-- ==== Sys2Proof/Word.lean ====
section
/-! DEFINITION. The words of the link block: bytes and 32-bit words, bit 0 least significant
(00_scope.md R14). Every other quantity of the rules is an unbounded natural (R15). -/

namespace Sys2Proof

/-- An 8-bit unsigned value (R14). -/
abbrev Byte := BitVec 8

/-- A 32-bit word: a T32 label (30_encoding.md R119) or a host register (10_state.md R48). -/
abbrev Word32 := BitVec 32

end Sys2Proof
end

