-- ==== Sys2Proof/Config.lean ====
section
/-! DEFINITION. The parameters of the block (00_scope.md R10) and its free values.

Every parameter the spec leaves open is an opaque constant with no body, so that a theorem about the machine
holds for every value of it. The constants are shaped so that the constraints of R10 hold of `Config.params`
whatever they are (log entry 3). -/

namespace Sys2Proof

/-- What happens to a valid header whose frame is larger than the buffer (R10 `OVERSIZE_POLICY`; D5). -/
inductive OversizePolicy where
  | fatal
  | discard
deriving DecidableEq, Repr, Inhabited

/-- Order of the handlers when both sources are pending (R10 `DISPATCH_ORDER`; D13). -/
inductive DispatchOrder where
  | any
  | linkFirst
  | coreFirst
deriving DecidableEq, Repr, Inhabited

/-- Parity of a UART character (R10 `CHAR_FORMAT`; D21). That there is no mark or space parity is the model's (DESIGN CHOICE, log
entry 26). -/
inductive Parity where
  | noParity
  | even
  | odd
deriving DecidableEq, Repr, Inhabited

/-- UART character format (R10 `CHAR_FORMAT`; D21). The spec gives its default, 8N1, and leaves open which formats there are: data
bits and stop bits in whole numbers (so not 1.5), with one of three parities, is the model's (DESIGN CHOICE, log entry 26). The
block sees bytes only, and no rule reads it. -/
structure CharFormat where
  dataBits : Nat
  parity : Parity
  stopBits : Nat
deriving DecidableEq, Repr, Inhabited

/-- `BITS_PER_BYTE`, the bits per byte of the pacing formulas (R10, R181). -/
def Config.bitsPerByte : Nat := 8

/-- `GAP_BYTES`, the idle gap in byte-times (R10, R185). -/
def Config.gapBytes : Nat := 20

/-- The Frame Codec, a configuration record (R12). `hcsOk` and `plen` are functions of the header bytes alone. -/
structure FrameCodec where
  /-- `H`, the header size in bytes. -/
  H : Nat
  /-- `MARKER`, the expected first byte of a header. -/
  marker : Byte
  /-- `HCS_OK`, the header checksum predicate. -/
  hcsOk : List Byte → Bool
  /-- `PLEN`, the payload-length field decoder. -/
  plen : List Byte → Nat
  /-- `LEN_BITS`, the width of the payload-length field. -/
  lenBits : Nat

/-- The parameters of R10, and `CSR_BASE` (10_state.md R48). -/
structure Params extends FrameCodec where
  /-- `MAX_PAYLOAD`. -/
  maxPayload : Nat
  /-- `CAP`, capacity of the accumulation buffer. -/
  cap : Nat
  /-- `OVERSIZE_POLICY`. -/
  oversize : OversizePolicy
  /-- `RATE_SET`, the supported bit rates. -/
  rates : List Nat
  /-- `TX_MAX`, capacity of the egress message buffer. -/
  txMax : Nat
  /-- `RX_FIFO_DEPTH`. -/
  rxFifoDepth : Nat
  /-- `CORE_OUT_DEPTH`. -/
  coreOutDepth : Nat
  /-- `DISPATCH_ORDER`. -/
  dispatchOrder : DispatchOrder
  /-- `CHAR_FORMAT`. -/
  charFormat : CharFormat
  /-- `CSR_BASE`, the address of the host port (R48). -/
  csrBase : Nat
  /-- The free value of a pacing quotient whose divisor, the bit rate, is 0 (log entry 12). No run reaches it. -/
  zeroRateUs : Nat → Nat

/-- The constraints of R10. -/
structure Params.Valid (p : Params) : Prop where
  header_pos : 1 ≤ p.H
  lenBits_pos : 1 ≤ p.lenBits
  plen_lt : ∀ w, p.plen w < 2 ^ p.lenBits
  cap_ge : p.H + p.maxPayload ≤ p.cap
  rates_pos : ∀ r ∈ p.rates, 1 ≤ r
  rates_115200 : 115200 ∈ p.rates
  txMax_pos : 1 ≤ p.txMax
  rxFifoDepth_pos : 1 ≤ p.rxFifoDepth
  coreOutDepth_pos : 1 ≤ p.coreOutDepth

namespace Config

/-- The header size less 1 (D2). -/
opaque headerSizePred : Nat
/-- `MARKER` (D2). -/
opaque marker : Byte
/-- `HCS_OK` (D2). -/
opaque headerChecksumOk : List Byte → Bool
/-- The payload length before it is cut to its field's width (D2). -/
opaque lengthField : List Byte → Nat
/-- `LEN_BITS` less 1 (D2). -/
opaque lenBitsPred : Nat
/-- `MAX_PAYLOAD` (D4). -/
opaque maxPayload : Nat
/-- How much `CAP` exceeds `H + MAX_PAYLOAD` (D4). -/
opaque spareCapacity : Nat
/-- `OVERSIZE_POLICY` (D5). -/
opaque oversizePolicy : OversizePolicy
/-- The rates of `RATE_SET` beside 115200 (D20). -/
opaque otherRates : List Nat
/-- `TX_MAX` less 1 (D9). -/
opaque txMaxPred : Nat
/-- `RX_FIFO_DEPTH` less 1 (D22). -/
opaque rxFifoDepthPred : Nat
/-- `CORE_OUT_DEPTH` less 1 (D8). -/
opaque coreOutDepthPred : Nat
/-- `DISPATCH_ORDER` (D13). -/
opaque dispatchOrder : DispatchOrder
/-- `CHAR_FORMAT` (D21). -/
opaque charFormat : CharFormat
/-- `CSR_BASE` (D17). -/
opaque csrBase : Nat
/-- Free value: a pacing quotient at bit rate 0, of its dividend (log entry 12). -/
opaque zeroRateUs : Nat → Nat
/-- Free value: how far the full argument of a bare label word with `ARG = 0xFFFFFF` exceeds `0xFFFFFF`, by the
index of the draw (30_encoding.md R120; log entry 4). -/
opaque freeExcess : Nat → Nat
/-- Free value: byte `j` of the message of a bare ENV_CORE_SEND word, by the index of the draw and `j`
(R120, 42_dispatch_control.md R232; log entry 4). -/
opaque freeByte : Nat → Nat → Byte

/-- The parameters of the machine (R10). -/
def params : Params where
  H := headerSizePred + 1
  marker := marker
  hcsOk := headerChecksumOk
  plen w := lengthField w % 2 ^ (lenBitsPred + 1)
  lenBits := lenBitsPred + 1
  maxPayload := maxPayload
  cap := headerSizePred + 1 + maxPayload + spareCapacity
  oversize := oversizePolicy
  rates := 115200 :: otherRates.filter (fun r => 1 ≤ r)
  txMax := txMaxPred + 1
  rxFifoDepth := rxFifoDepthPred + 1
  coreOutDepth := coreOutDepthPred + 1
  dispatchOrder := dispatchOrder
  charFormat := charFormat
  csrBase := csrBase
  zeroRateUs := zeroRateUs

end Config

/-- The test codec TC4 with the parameters of 95_test_vectors.md (R13): for test vectors only; no rule and no
meaning of the model depends on it. -/
def Params.tc4 : Params where
  H := 4
  marker := 0xA5
  hcsOk w := w.getD 3 0 == w.getD 0 0 ^^^ w.getD 1 0 ^^^ w.getD 2 0
  plen w := (w.getD 1 0).toNat + 256 * (w.getD 2 0).toNat
  lenBits := 16
  maxPayload := 16
  cap := 20
  oversize := .fatal
  rates := [115200, 9600, 921600]
  txMax := 64
  rxFifoDepth := 32
  coreOutDepth := 4
  dispatchOrder := .any
  charFormat := ⟨8, .noParity, 1⟩
  csrBase := 0
  zeroRateUs _ := 0

end Sys2Proof
end

