-- ==== Sys2Proof/Syntax.lean ====
section
/-! DEFINITION. The step labels (30_encoding.md R119 to R122): one constructor per row of opcode_table.json, with
the full argument of the event record (R120). The block runs no program (20_memory.md R81); a label says what one
step of one agent did. -/

namespace Sys2Proof

/-- A step label with its full argument (R120, R122). A natural argument is unbounded; the T32 word holds it
saturated (`Decode.lean`). -/
inductive Instr where
  /-- LINK_READ r: bytes read and appended (R146). -/
  | linkRead (r : Nat)
  /-- HDR_FOUND i: offset of the validating window (R152). -/
  | hdrFound (i : Nat)
  /-- HDR_FAIL n: bytes discarded (R153). -/
  | hdrFail (n : Nat)
  /-- HDR_WAIT h: `head` (R154). -/
  | hdrWait (h : Nat)
  /-- PAY_WAIT h: `head` (R155). -/
  | payWait (h : Nat)
  /-- FRAME_EMIT fs: frame size (R158). -/
  | frameEmit (fs : Nat)
  /-- CORE_READ L: `eg_len` after truncation (R180). -/
  | coreRead (len : Nat)
  /-- DEPTH_POLL d: depth read (R182). -/
  | depthPoll (d : Nat)
  /-- DRAIN_SLEEP s: `eg_sleep_us` (R184). -/
  | drainSleep (us : Nat)
  /-- IDLE_GAP s: `eg_sleep_us` (R186). -/
  | idleGap (us : Nat)
  /-- LINK_WRITE L: `eg_len` (R188). -/
  | linkWrite (len : Nat)
  /-- WAIT_WAKE mask: bit 0 link, bit 1 core (R210). -/
  | waitWake (mask : BitVec 2)
  /-- WAIT_EINTR (R211). -/
  | waitEintr
  /-- DISPATCH_LINK (R214). -/
  | dispatchLink
  /-- DISPATCH_CORE (R215). -/
  | dispatchCore
  /-- IO_RETRY op: OPC of the operation retried (R216). -/
  | ioRetry (op : Byte)
  /-- CFG_BITRATE v: host write of BITRATE (R219). -/
  | cfgBitrate (rate : Word32)
  /-- CFG_FLOWCTL f: bit 0 of the host write of FLOWCTL (R220). -/
  | cfgFlowctl (hwfc : Bool)
  /-- START (R221). -/
  | start
  /-- FATAL cause: cause code (R250, R241). -/
  | fatal (code : Byte)
  /-- RESET (R226). -/
  | reset
  /-- ENV_RX b: byte received (R230). -/
  | envRx (b : Byte)
  /-- ENV_TX_DRAIN k: bytes that left the transmit queue (R231). -/
  | envTxDrain (k : Nat)
  /-- ENV_CORE_SEND L: the message, whose length is the argument (R232). -/
  | envCoreSend (m : List Byte)
  /-- ENV_CORE_RECV n: length of the frame taken (R233). -/
  | envCoreRecv (n : Nat)
  /-- ENV_TICK u: microseconds elapsed (R234). -/
  | envTick (u : Nat)
  /-- ENV_LINK_HUP (R235). -/
  | envLinkHup
deriving DecidableEq, Repr

/-- The operation codes by name, in the order of R121. -/
inductive Opcode where
  | linkRead | hdrFound | hdrFail | hdrWait | payWait | frameEmit
  | coreRead | depthPoll | drainSleep | idleGap | linkWrite
  | waitWake | waitEintr | dispatchLink | dispatchCore | ioRetry
  | cfgBitrate | cfgFlowctl | start | fatal | reset
  | envRx | envTxDrain | envCoreSend | envCoreRecv | envTick | envLinkHup
deriving DecidableEq, Repr

/-- Why a label record is not a label (R123), and two checks of the record against its word (R120). -/
inductive Reject where
  /-- `OPC` is not in the table of R121. -/
  | reservedOpcode
  /-- `ARG` has a 1 in a fixed-zero bit of R122. -/
  | reservedArgBits
  /-- The record's full argument is not one the word's `ARG` holds (R120), or is no value of the operand. -/
  | argMismatch
  /-- The record's byte content is not of the length the label says, or the label takes none (R120). -/
  | contentMismatch
deriving DecidableEq, Repr

/-- The record of a label offered to the machine: the T32 word, the full argument where it is given, the byte content
where it is given (R120, R126). -/
structure LabelRecord where
  word : Word32
  arg : Option Nat
  content : Option (List Byte)
deriving DecidableEq, Repr

/-- One event of the history: the label taken with its full argument, and the byte content of ENV_CORE_SEND,
ENV_CORE_RECV, FRAME_EMIT, CORE_READ and LINK_WRITE (R120). -/
structure Event where
  label : Instr
  content : List Byte
deriving DecidableEq, Repr

/-- The pseudo-labels of R127. -/
inductive PseudoLabel where
  /-- `ENV_RXS b1 ... bn`. -/
  | envRxs (bs : List Byte)
  /-- `CONFIG rate, hwfc`. -/
  | config (rate : Word32) (hwfc : Bool)
  /-- `BOOT rate, hwfc`. -/
  | boot (rate : Word32) (hwfc : Bool)
  /-- `SERVE_LINK r`. -/
  | serveLink (r : Nat)
  /-- `SERVE_CORE L`. -/
  | serveCore (len : Nat)
deriving DecidableEq, Repr

end Sys2Proof
end

