-- ==== Sys2Proof/WellFormed.lean ====
section
/-! DEFINITION. Which labels can be some step's label: the bounds a rule puts on its label's argument whatever the
state. The decoder is total on words (30_encoding.md R123) and does not check these; a label that fails one is
enabled in no state and holds (log entry 2). -/

namespace Sys2Proof

/-- The OPC of an operation that makes an I/O call: LINK_READ, FRAME_EMIT, CORE_READ, DEPTH_POLL, LINK_WRITE
(42_dispatch_control.md R216). -/
def isIoOpcode (op : Byte) : Bool :=
  op == 0x10 || op == 0x15 || op == 0x20 || op == 0x21 || op == 0x24

/-- A cause code some rule raises: 0x01 to 0x0F (60_exceptions.md R241). -/
def isRaisedCode (code : Byte) : Bool :=
  1 ≤ code.toNat && code.toNat ≤ 15

/-- The argument is one a step can have. -/
def Instr.wellFormed : Instr → Bool
  | .linkRead r => 1 ≤ r                     -- R146: `OK(r) | 1 <= r <= n_req`
  | .hdrFound _ => true
  | .hdrFail n => 1 ≤ n                      -- R153: "n >= 1 always"
  | .hdrWait _ => true
  | .payWait _ => true
  | .frameEmit _ => true
  | .coreRead len => 1 ≤ len                 -- R180: a zero-length message is fatal
  | .depthPoll _ => true
  | .drainSleep _ => true
  | .idleGap _ => true
  | .linkWrite _ => true
  | .waitWake mask => mask != 0              -- R210: `mask != 0`
  | .waitEintr => true
  | .dispatchLink => true
  | .dispatchCore => true
  | .ioRetry op => isIoOpcode op             -- R216
  | .cfgBitrate _ => true
  | .cfgFlowctl _ => true
  | .start => true
  | .fatal code => isRaisedCode code         -- R241: NONE is raised by none, 0x10..0xFF are never recorded
  | .reset => true
  | .envRx _ => true
  | .envTxDrain k => 1 ≤ k                   -- R231: `1 <= k`
  | .envCoreSend _ => true
  | .envCoreRecv _ => true
  | .envTick u => 1 ≤ u                      -- R234: `u >= 1`
  | .envLinkHup => true

end Sys2Proof
end

