-- ==== Sys2Proof/Decode.lean ====
section
/-! DEFINITION. The T32 label format (30_encoding.md R119 to R125): the opcode table, the decoder, total on every
label record, and after it the encoder, written from the same table. -/

namespace Sys2Proof

/-- `OPC`, bits 31:24 (R119). -/
def opcOf (w : Word32) : Byte := w.extractLsb' 24 8

/-- `ARG`, bits 23:0 (R119). -/
def argOf (w : Word32) : BitVec 24 := w.extractLsb' 0 24

/-- `ARG` of a full argument: `zext_24` below `2^24`, `0xFFFFFF` otherwise (R120). -/
def sat24 (a : Nat) : BitVec 24 := if a < 2 ^ 24 then BitVec.ofNat 24 a else 0xFFFFFF

/-- The code of an operation (R121). -/
def Opcode.code : Opcode → Byte
  | .linkRead => 0x10
  | .hdrFound => 0x11
  | .hdrFail => 0x12
  | .hdrWait => 0x13
  | .payWait => 0x14
  | .frameEmit => 0x15
  | .coreRead => 0x20
  | .depthPoll => 0x21
  | .drainSleep => 0x22
  | .idleGap => 0x23
  | .linkWrite => 0x24
  | .waitWake => 0x30
  | .waitEintr => 0x31
  | .dispatchLink => 0x32
  | .dispatchCore => 0x33
  | .ioRetry => 0x34
  | .cfgBitrate => 0x40
  | .cfgFlowctl => 0x41
  | .start => 0x42
  | .fatal => 0x43
  | .reset => 0x44
  | .envRx => 0x50
  | .envTxDrain => 0x51
  | .envCoreSend => 0x52
  | .envCoreRecv => 0x53
  | .envTick => 0x54
  | .envLinkHup => 0x55

/-- Every operation, in the order of R121. -/
def Opcode.all : List Opcode :=
  [.linkRead, .hdrFound, .hdrFail, .hdrWait, .payWait, .frameEmit] ++
  [.coreRead, .depthPoll, .drainSleep, .idleGap, .linkWrite] ++
  [.waitWake, .waitEintr, .dispatchLink, .dispatchCore, .ioRetry] ++
  [.cfgBitrate, .cfgFlowctl, .start, .fatal, .reset] ++
  [.envRx, .envTxDrain, .envCoreSend, .envCoreRecv, .envTick, .envLinkHup]

/-- The operation of a code, none for a reserved one (R121, R124). -/
def Opcode.ofCode? (c : Byte) : Option Opcode :=
  Opcode.all.find? (fun op => op.code == c)

/-- The fixed-zero bits of `ARG` (R122). -/
def Opcode.zeroBits : Opcode → BitVec 24
  | .waitWake => 0xFFFFFC
  | .waitEintr | .dispatchLink | .dispatchCore | .start | .reset | .envLinkHup => 0xFFFFFF
  | .ioRetry | .fatal | .envRx => 0xFFFF00
  | .cfgFlowctl => 0xFFFFFE
  | .linkRead | .hdrFound | .hdrFail | .hdrWait | .payWait | .frameEmit => 0
  | .coreRead | .depthPoll | .drainSleep | .idleGap | .linkWrite => 0
  | .cfgBitrate | .envTxDrain | .envCoreSend | .envCoreRecv | .envTick => 0

/-- The mask of an operation's row of opcode_table.json: the bits a word of it has fixed. -/
def Opcode.rowMask (op : Opcode) : Word32 := (0xFF : Byte) ++ op.zeroBits

/-- The match of an operation's row of opcode_table.json: the values of the fixed bits. -/
def Opcode.rowMatch (op : Opcode) : Word32 := op.code ++ (0 : BitVec 24)

/-- The message of a bare ENV_CORE_SEND word: `L` free bytes (R232, log entry 4). -/
def freeMessage (n len : Nat) : List Byte :=
  (List.range len).map (Config.freeByte n)

/-- The full argument of a bare word: `ARG`, and at `0xFFFFFF`, where the word does not fix it, a free value from
`0xFFFFFF` on (R120), below `2^32` for the 32-bit operand of CFG_BITRATE (10_state.md R46). -/
def bareArg (op : Opcode) (x : BitVec 24) (n : Nat) : Nat :=
  if x = 0xFFFFFF then
    0xFFFFFF + (if op = .cfgBitrate then Config.freeExcess n % (2 ^ 32 - 0xFFFFFF) else Config.freeExcess n)
  else x.toNat

/-- `a` is an argument the operation can have: that of CFG_BITRATE is a 32-bit value (10_state.md R46). -/
def argFits (op : Opcode) (a : Nat) : Bool :=
  match op with
  | .cfgBitrate => a < 2 ^ 32
  | .linkRead | .hdrFound | .hdrFail | .hdrWait | .payWait | .frameEmit => true
  | .coreRead | .depthPoll | .drainSleep | .idleGap | .linkWrite => true
  | .waitWake | .waitEintr | .dispatchLink | .dispatchCore | .ioRetry => true
  | .cfgFlowctl | .start | .fatal | .reset => true
  | .envRx | .envTxDrain | .envCoreSend | .envCoreRecv | .envTick | .envLinkHup => true

/-- The full argument of a record: the one given, which the word's `ARG` must hold, else the word's own (R120). -/
def fullArgOf (op : Opcode) (x : BitVec 24) (arg : Option Nat) (n : Nat) : Option Nat :=
  match arg with
  | some a => if sat24 a = x ∧ argFits op a = true then some a else none
  | none => some (bareArg op x n)

/-- A label whose only operand is its argument takes no byte content when it is offered, the bytes R120 records with
FRAME_EMIT, CORE_READ, LINK_WRITE and ENV_CORE_RECV included: they are what the step gives, not what it is given (DESIGN CHOICE,
log entry 25). -/
def noContent (content : Option (List Byte)) (i : Instr) : Except Reject Instr :=
  match content with
  | none => .ok i
  | some _ => .error .contentMismatch

/-- The label of an operation and its full argument (R122). -/
def labelOf (op : Opcode) (a : Nat) (content : Option (List Byte)) (n : Nat) : Except Reject Instr :=
  match op with
  | .linkRead => noContent content (.linkRead a)
  | .hdrFound => noContent content (.hdrFound a)
  | .hdrFail => noContent content (.hdrFail a)
  | .hdrWait => noContent content (.hdrWait a)
  | .payWait => noContent content (.payWait a)
  | .frameEmit => noContent content (.frameEmit a)
  | .coreRead => noContent content (.coreRead a)
  | .depthPoll => noContent content (.depthPoll a)
  | .drainSleep => noContent content (.drainSleep a)
  | .idleGap => noContent content (.idleGap a)
  | .linkWrite => noContent content (.linkWrite a)
  | .waitWake => noContent content (.waitWake (BitVec.ofNat 2 a))
  | .waitEintr => noContent content .waitEintr
  | .dispatchLink => noContent content .dispatchLink
  | .dispatchCore => noContent content .dispatchCore
  | .ioRetry => noContent content (.ioRetry (BitVec.ofNat 8 a))
  | .cfgBitrate => noContent content (.cfgBitrate (BitVec.ofNat 32 a))
  | .cfgFlowctl => noContent content (.cfgFlowctl (a == 1))
  | .start => noContent content .start
  | .fatal => noContent content (.fatal (BitVec.ofNat 8 a))
  | .reset => noContent content .reset
  | .envRx => noContent content (.envRx (BitVec.ofNat 8 a))
  | .envTxDrain => noContent content (.envTxDrain a)
  | .envCoreSend =>
    match content with
    | some m => if m.length = a then .ok (.envCoreSend m) else .error .contentMismatch
    | none => .ok (.envCoreSend (freeMessage n a))
  | .envCoreRecv => noContent content (.envCoreRecv a)
  | .envTick => noContent content (.envTick a)
  | .envLinkHup => noContent content .envLinkHup

/-- Decoding a label record, total (R123). `n` is the index of the free values a bare word draws on. -/
def decode (r : LabelRecord) (n : Nat) : Except Reject Instr :=
  match Opcode.ofCode? (opcOf r.word) with
  | none => .error .reservedOpcode
  | some op =>
    if argOf r.word &&& op.zeroBits ≠ 0 then .error .reservedArgBits
    else
      match fullArgOf op (argOf r.word) r.arg n with
      | none => .error .argMismatch
      | some a => labelOf op a r.content n

/-- The record of a word alone. -/
def bareRecord (w : Word32) : LabelRecord := ⟨w, none, none⟩

/-- The operation of a label (R121). -/
def Instr.opcode : Instr → Opcode
  | .linkRead _ => .linkRead
  | .hdrFound _ => .hdrFound
  | .hdrFail _ => .hdrFail
  | .hdrWait _ => .hdrWait
  | .payWait _ => .payWait
  | .frameEmit _ => .frameEmit
  | .coreRead _ => .coreRead
  | .depthPoll _ => .depthPoll
  | .drainSleep _ => .drainSleep
  | .idleGap _ => .idleGap
  | .linkWrite _ => .linkWrite
  | .waitWake _ => .waitWake
  | .waitEintr => .waitEintr
  | .dispatchLink => .dispatchLink
  | .dispatchCore => .dispatchCore
  | .ioRetry _ => .ioRetry
  | .cfgBitrate _ => .cfgBitrate
  | .cfgFlowctl _ => .cfgFlowctl
  | .start => .start
  | .fatal _ => .fatal
  | .reset => .reset
  | .envRx _ => .envRx
  | .envTxDrain _ => .envTxDrain
  | .envCoreSend _ => .envCoreSend
  | .envCoreRecv _ => .envCoreRecv
  | .envTick _ => .envTick
  | .envLinkHup => .envLinkHup

/-- The full argument of a label (R122). -/
def Instr.fullArg : Instr → Nat
  | .linkRead r => r
  | .hdrFound i => i
  | .hdrFail n => n
  | .hdrWait h => h
  | .payWait h => h
  | .frameEmit fs => fs
  | .coreRead len => len
  | .depthPoll d => d
  | .drainSleep us => us
  | .idleGap us => us
  | .linkWrite len => len
  | .waitWake mask => mask.toNat
  | .waitEintr => 0
  | .dispatchLink => 0
  | .dispatchCore => 0
  | .ioRetry op => op.toNat
  | .cfgBitrate rate => rate.toNat
  | .cfgFlowctl hwfc => hwfc.toNat
  | .start => 0
  | .fatal code => code.toNat
  | .reset => 0
  | .envRx b => b.toNat
  | .envTxDrain k => k
  | .envCoreSend m => m.length
  | .envCoreRecv n => n
  | .envTick u => u
  | .envLinkHup => 0

/-- The byte content that is an operand: the message of ENV_CORE_SEND (R120, R232). -/
def Instr.operandContent : Instr → Option (List Byte)
  | .envCoreSend m => some m
  | .linkRead _ | .hdrFound _ | .hdrFail _ | .hdrWait _ | .payWait _ | .frameEmit _ => none
  | .coreRead _ | .depthPoll _ | .drainSleep _ | .idleGap _ | .linkWrite _ => none
  | .waitWake _ | .waitEintr | .dispatchLink | .dispatchCore | .ioRetry _ => none
  | .cfgBitrate _ | .cfgFlowctl _ | .start | .fatal _ | .reset => none
  | .envRx _ | .envTxDrain _ | .envCoreRecv _ | .envTick _ | .envLinkHup => none

/-- The T32 word of a label (R119, R120). -/
def encodeWord (i : Instr) : Word32 := i.opcode.code ++ sat24 i.fullArg

/-- The record of a label: its word, its full argument, and the message of ENV_CORE_SEND (R120). -/
def encode (i : Instr) : LabelRecord := ⟨encodeWord i, some i.fullArg, i.operandContent⟩

/-- The sequence a pseudo-label abbreviates (R127). -/
def PseudoLabel.expand : PseudoLabel → List Instr
  | .envRxs bs => bs.map .envRx
  | .config rate hwfc => [.cfgBitrate rate, .cfgFlowctl hwfc]
  | .boot rate hwfc => [.cfgBitrate rate, .cfgFlowctl hwfc, .start]
  | .serveLink r => [.waitWake 1, .dispatchLink, .linkRead r]
  | .serveCore len => [.waitWake 2, .dispatchCore, .coreRead len]

/-- The label of a row's word, bits above `nbits` zero: every label is one 32-bit word (R125), so a longer one is
none. The index of the free values is 0, as after reset. -/
def decodeTableWord (nbits w : Nat) : Option Instr :=
  if nbits ≤ 32 then
    match decode (bareRecord (BitVec.ofNat 32 (w % 2 ^ nbits))) 0 with
    | .ok i => some i
    | .error _ => none
  else none

end Sys2Proof
end

