-- ==== Sys2Proof/Machine/State.lean ====
section
/-! DEFINITION. The state of the machine (10_state.md R30): the block, its environment, the event history
(20_memory.md R102) and the model's own two fields; the reasons a step can stop; the state at power-on
(70_reset_and_hazards.md R270). -/

namespace Sys2Proof.Machine

/-- A byte store: its cells that hold a value, as (offset, byte) pairs at strictly rising offsets. An offset not
listed holds no value (10_state.md R33, R38), so no listed cell equals what an unlisted one reads as. -/
abbrev Memory := List Host.Cell

/-- The canonical form: offsets strictly rising. -/
abbrev Memory.wf (m : Memory) : Prop := m.Pairwise (fun c d => c.1 < d.1)

/-- The synchronization state `sync` (R36). -/
inductive SyncState where
  | seekingHeader
  | seekingPayload
deriving DecidableEq, Repr

/-- The sequencer phases (R40). Codes 10 to 14 are never held. -/
inductive Phase where
  /-- 0, `P_RESET`: not started. -/
  | reset
  /-- 1, `P_WAIT`: blocked in the readiness wait. -/
  | wait
  /-- 2, `P_DISPATCH`: a wake is being served. -/
  | dispatch
  /-- 3, `P_LINK_READ`: link handler, read from the link. -/
  | linkRead
  /-- 4, `P_SYNC`: link handler, synchronizer loop. -/
  | sync
  /-- 5, `P_CORE_READ`: core handler, read one message. -/
  | coreRead
  /-- 6, `P_POLL`: core handler, poll the queue depth. -/
  | poll
  /-- 7, `P_SLEEP_DRAIN`: drain sleep armed. -/
  | sleepDrain
  /-- 8, `P_GAP`: idle gap armed. -/
  | gap
  /-- 9, `P_WRITE`: write the message to the link. -/
  | write
  /-- 15, `P_FATAL`: halted. -/
  | fatal
deriving DecidableEq, Repr

/-- The pending source set, a subset of `{LINK, CORE}` (R41). -/
structure Pending where
  link : Bool
  core : Bool
deriving DecidableEq, Repr

/-- The run status (R42). Code 3 is never held. -/
inductive RunStatus where
  | idle
  | running
  | fatal
deriving DecidableEq, Repr

/-- The fatal causes (60_exceptions.md R241), in code order from `NONE` = 0x00. Codes 0x10 to 0xFF are never recorded. -/
inductive Cause where
  | none
  | setupFail
  | unsupportedBitrate
  | waitFailure
  | waitZeroReady
  | linkReadError
  | linkReadableZero
  | feedOverflow
  | coreWriteError
  | coreShortWrite
  | oversizeFrame
  | coreReadError
  | coreClosed
  | depthPollError
  | linkWriteError
  | linkShortWrite
deriving DecidableEq, Repr

/-- Outcome of the setup START performs, an environment draw (42_dispatch_control.md R221). -/
inductive SetupDraw where
  | ok
  | fail
deriving DecidableEq, Repr

/-- A move some agent is offered: a step label, or an access of the host to its register port (R48, R49).
A host write of 1 to `CTRL` carries the setup draw (R221). -/
inductive Move where
  | label (r : LabelRecord)
  | hostWrite (width offset : Nat) (value : Word32) (setup : SetupDraw)
  | hostRead (width offset : Nat)
deriving DecidableEq, Repr

/-- The state of the machine. -/
structure State where
  /-- `buf`, the accumulation buffer (R32, R33). -/
  buf : Memory
  /-- `head`, the count of valid bytes (R34). -/
  head : Nat
  /-- `sync` (R36). -/
  sync : SyncState
  /-- `eg_msg`, the egress message buffer (R38). -/
  egMsg : Memory
  /-- `eg_len` (R38). -/
  egLen : Nat
  /-- `eg_deadline`, the clock value at which the current sleep ends (R39). -/
  egDeadline : Nat
  /-- `eg_sleep_us`, the length of the sleep armed (R39). -/
  egSleepUs : Nat
  /-- `pc`, the sequencer phase (R40). -/
  pc : Phase
  /-- `pending` (R41). -/
  pending : Pending
  /-- `run` (R42). -/
  run : RunStatus
  /-- `cause` (R43). -/
  cause : Cause
  /-- `BITRATE` (R46). -/
  bitrate : Word32
  /-- `HWFC` (R47). -/
  hwfc : Bool
  /-- `rx_fifo`, oldest byte first (R50). -/
  rxFifo : List Byte
  /-- `link_hup` (R51). -/
  linkHup : Bool
  /-- `tx_queue`, oldest byte first (R52). -/
  txQueue : List Byte
  /-- `wire`, the bytes that left the transmit queue, with the clock at which each left (R53). -/
  wire : List (Nat × Byte)
  /-- `core_in`, messages from the core, oldest first (R54). -/
  coreIn : List (List Byte)
  /-- `core_out`, frames to the core, oldest first (R55). -/
  coreOut : List (List Byte)
  /-- `now_us`, the clock in microseconds (R56). -/
  nowUs : Nat
  /-- The event history: every step taken, oldest first (30_encoding.md R120, R102). No rule reads it. -/
  history : List Event
  /-- The model's own: the moves offered to the agents, next first (log entry 1). -/
  moves : List Move
  /-- The model's own: the index of the next free value (log entry 4). -/
  freeCount : Nat
deriving DecidableEq, Repr

/-- Why the machine stops with a fault. -/
inductive Fault where
  /-- `UNDEF_READ`: a read of a buffer cell that holds no value (R33, R38). Raised by the reads of `buf` and `eg_msg`
  of the synchronizer steps, LINK_WRITE, and the FATAL and IO_RETRY labels of those calls. A modelling error, never a
  block behaviour: no state that meets the invariant of `Safety.lean` raises it. Safe. -/
  | undefRead
deriving DecidableEq, Repr

/-- Why a move has no meaning. -/
inductive Refusal where
  /-- An arm of the dispatch without a meaning. None is left. Safe. -/
  | notModelled (mnemonic : String)
  /-- The offered record is no label (30_encoding.md R123: "the model refuses an invalid word"). Raised by `step`. Safe. -/
  | invalidLabel (r : Reject)
  /-- A host access narrower than 32 bits or misaligned (R49: "refused by the model"). Raised by `step`. Safe. -/
  | hostAccess
deriving DecidableEq, Repr

/-- The state at power-on (R270), no move offered. -/
def State.reset : State where
  buf := []
  head := 0
  sync := .seekingHeader
  egMsg := []
  egLen := 0
  egDeadline := 0
  egSleepUs := 0
  pc := .reset
  pending := ⟨false, false⟩
  run := .idle
  cause := .none
  bitrate := 0
  hwfc := false
  rxFifo := []
  linkHup := false
  txQueue := []
  wire := []
  coreIn := []
  coreOut := []
  nowUs := 0
  history := []
  moves := []
  freeCount := 0

end Sys2Proof.Machine
end

