-- ==== Sys2Proof/Machine/Flags.lean ====
section
/-! DEFINITION. The status flags of the block (10_state.md R44) and their register encodings (R36, R40, R41, R42, R43),
the readiness conditions (60_exceptions.md R245). The block has no arithmetic condition codes. -/

namespace Sys2Proof.Machine

/-- `SYNC` (R36). -/
def SyncState.code : SyncState → BitVec 1
  | .seekingHeader => 0
  | .seekingPayload => 1

/-- `PHASE` (R40). -/
def Phase.code : Phase → BitVec 4
  | .reset => 0
  | .wait => 1
  | .dispatch => 2
  | .linkRead => 3
  | .sync => 4
  | .coreRead => 5
  | .poll => 6
  | .sleepDrain => 7
  | .gap => 8
  | .write => 9
  | .fatal => 15

/-- `RUN` (R42). -/
def RunStatus.code : RunStatus → BitVec 2
  | .idle => 0
  | .running => 1
  | .fatal => 2

/-- `CAUSE` (R241). -/
def Cause.code : Cause → Byte
  | .none => 0x00
  | .setupFail => 0x01
  | .unsupportedBitrate => 0x02
  | .waitFailure => 0x03
  | .waitZeroReady => 0x04
  | .linkReadError => 0x05
  | .linkReadableZero => 0x06
  | .feedOverflow => 0x07
  | .coreWriteError => 0x08
  | .coreShortWrite => 0x09
  | .oversizeFrame => 0x0A
  | .coreReadError => 0x0B
  | .coreClosed => 0x0C
  | .depthPollError => 0x0D
  | .linkWriteError => 0x0E
  | .linkShortWrite => 0x0F

/-- Every cause, in code order (R241). -/
def Cause.all : List Cause :=
  [.none, .setupFail, .unsupportedBitrate, .waitFailure, .waitZeroReady, .linkReadError, .linkReadableZero] ++
  [.feedOverflow, .coreWriteError, .coreShortWrite, .oversizeFrame, .coreReadError, .coreClosed] ++
  [.depthPollError, .linkWriteError, .linkShortWrite]

/-- The cause of a code, none for a reserved one (R241). -/
def Cause.ofCode? (code : Byte) : Option Cause :=
  Cause.all.find? (fun c => c.code == code)

/-- The pending set as 2 bits: bit 0 `LINK`, bit 1 `CORE` (R41). -/
def Pending.bits (q : Pending) : BitVec 2 := BitVec.ofBool q.core ++ BitVec.ofBool q.link

/-- The pending set of a ready mask (42_dispatch_control.md R210). -/
def Pending.ofMask (mask : BitVec 2) : Pending := ⟨mask.getLsbD 0, mask.getLsbD 1⟩

/-- No source is pending. -/
def Pending.isEmpty (q : Pending) : Bool := !q.link && !q.core

/-- Link-readable (R245). -/
def linkReady (s : State) : Bool := !s.rxFifo.isEmpty || s.linkHup

/-- Core-channel-readable (R245). -/
def coreReady (s : State) : Bool := !s.coreIn.isEmpty

/-- The ready mask of the current state (R210, R245). -/
def readyMask (s : State) : BitVec 2 := BitVec.ofBool (coreReady s) ++ BitVec.ofBool (linkReady s)

/-- `BITRATE` is a supported rate (00_scope.md R10 `RATE_SET`, a set of positive integers; R221). -/
def rateSupported (p : Params) (v : Word32) : Bool := 1 ≤ v.toNat && p.rates.contains v.toNat

end Sys2Proof.Machine
end

