-- ==== Sys2Proof/Machine/Ops.lean ====
section
/-! DEFINITION. The operations every meaning shares: reads and writes of the two byte stores (00_scope.md R16), the append
and compaction primitives (40_ingress.md R141, R143), recording a step (30_encoding.md R120), taking a fatal condition
(60_exceptions.md R250), leaving it (42_dispatch_control.md R226), handler completion (R217), and a label offered where it
is not enabled (R17). -/

namespace Sys2Proof.Machine

/-! ### Byte stores -/

/-- The value of a cell, none where it holds none (10_state.md R33). -/
def memRead : Memory → Nat → Option Byte
  | [], _ => none
  | (k, v) :: m, a => if k = a then some v else memRead m a

/-- Write of one cell. -/
def memWrite : Memory → Nat → Byte → Memory
  | [], a, b => [(a, b)]
  | (k, v) :: m, a, b =>
    if a < k then (a, b) :: (k, v) :: m
    else if a = k then (a, b) :: m
    else (k, v) :: memWrite m a b

/-- `MemRead(a, n)` (R16): `n` bytes from offset `a`, none where a cell of them holds no value. -/
def memReadBytes (m : Memory) (a : Nat) : Nat → Option (List Byte)
  | 0 => some []
  | n + 1 =>
    match memRead m a, memReadBytes m (a + 1) n with
    | some b, some bs => some (b :: bs)
    | _, _ => none

/-- `MemWrite(a, n, v)` (R16): the bytes in order from offset `a`. -/
def memWriteBytes (m : Memory) (a : Nat) : List Byte → Memory
  | [] => m
  | b :: bs => memWriteBytes (memWrite m a b) (a + 1) bs

/-- The cells at or beyond offset `k` hold no value afterwards (R33). -/
def memForget (m : Memory) (k : Nat) : Memory := m.filter (fun c => c.1 < k)

/-! ### Steps -/

/-- `emit label` (R16): the step taken, in the event history with its byte content (R120). -/
def emit (i : Instr) (content : List Byte) (s : State) : State :=
  { s with history := s.history ++ [⟨i, content⟩] }

/-- A label offered in state `s`: its step where it is enabled; elsewhere it holds, and no step occurs (R16, R17; log
entry 2). -/
def stepIf (enabled : Bool) (taken s : State) : Host.Outcome State Fault Refusal :=
  .next (if enabled then taken else s)

/-- `raise Fatal(cause)` (R250): taking the block's one class of exception. Nothing else changes. -/
def raiseFatal (c : Cause) (s : State) : State :=
  emit (.fatal c.code) [] { s with cause := c, run := .fatal, pc := .fatal, pending := ⟨false, false⟩ }

/-- RESET, the only way out of a fatal (R226, R252): every element at its reset value but the clock and the wire
history. The history and the moves still offered are the model's record of the run, not the block's. -/
def resetBlock (s : State) : State :=
  emit .reset []
    { State.reset with
      nowUs := s.nowUs, wire := s.wire, history := s.history, moves := s.moves, freeCount := s.freeCount }

/-- Handler completion (R217). -/
def completeHandler (s : State) : State :=
  { s with pc := if s.pending.isEmpty then .wait else .dispatch }

/-! ### The accumulation buffer -/

/-- `Append(chunk)` (R141): fatal, the buffer unchanged, where the chunk exceeds the remaining capacity. -/
def append (p : Params) (chunk : List Byte) (s : State) : Except Cause State :=
  if p.cap - s.head < chunk.length then .error .feedOverflow
  else .ok { s with buf := memWriteBytes s.buf s.head chunk, head := s.head + chunk.length }

/-- `Compact(k)` (R143) for `k ≤ head`: every source byte is read before any is written. -/
def compact (k : Nat) (s : State) : Except Fault State :=
  match memReadBytes s.buf k (s.head - k) with
  | none => .error .undefRead
  | some old => .ok { s with buf := memForget (memWriteBytes s.buf 0 old) (s.head - k), head := s.head - k }

/-! ### The egress message buffer -/

/-- The first `TX_MAX` bytes of a message into `eg_msg`, and their count into `eg_len` (41_egress.md R180); the cells at
or beyond `eg_len` hold no value (10_state.md R38). -/
def loadMessage (p : Params) (m : List Byte) (s : State) : State :=
  { s with
    egMsg := memForget (memWriteBytes s.egMsg 0 (m.take p.txMax)) (min m.length p.txMax)
    egLen := min m.length p.txMax }

end Sys2Proof.Machine
end

