-- ==== Sys2Proof/Machine/Operands.lean ====
section
/-! DEFINITION. What the labels' rules compute from the state: windows and header validity (30_encoding.md R113 to R115,
40_ingress.md R142), the synchronizer's choice (R150), the I/O call of the current phase (00_scope.md R18,
42_dispatch_control.md R216), the fatal conditions (60_exceptions.md R241), and the pacing durations (41_egress.md R181). -/

namespace Sys2Proof.Machine

/-! ### Headers -/

/-- `size_ok(w)` (R113). -/
def sizeOk (p : Params) (w : List Byte) : Bool :=
  match p.oversize with
  | .fatal => true
  | .discard => p.H + p.plen w ≤ p.cap

/-- `valid(w)` (R113): marker, header checksum, size. -/
def headerValid (p : Params) (w : List Byte) : Bool :=
  w.head? == some p.marker && p.hcsOk w && sizeOk p w

/-- `fs`, the frame size a header announces, exact (R114). -/
def frameSize (p : Params) (w : List Byte) : Nat := p.H + p.plen w

/-- `window(i)`, the `H` bytes from offset `i` (R142). -/
def window (p : Params) (m : Memory) (i : Nat) : Option (List Byte) := memReadBytes m i p.H

/-- The least offset from `i` on, among `n` of them, whose window validates (R152: "Accept the first offset that
validates"). -/
def findHeader (p : Params) (m : Memory) (i : Nat) : Nat → Except Fault (Option Nat)
  | 0 => .ok none
  | n + 1 =>
    match window p m i with
    | none => .error .undefRead
    | some w => if headerValid p w then .ok (some i) else findHeader p m (i + 1) n

/-! ### The synchronizer loop -/

/-- The synchronizer step of phase `P_SYNC` (R150). -/
inductive SyncChoice where
  | hdrWait
  | hdrFound (i : Nat)
  | hdrFail
  | payWait
  | oversize
  | frameEmit (fs : Nat)
deriving DecidableEq, Repr

/-- `SyncStep()` (R150): the one synchronizer step, by `sync`, `head` and the buffer. -/
def syncChoice (p : Params) (s : State) : Except Fault SyncChoice :=
  match s.sync with
  | .seekingHeader =>
    if s.head < p.H then .ok .hdrWait
    else
      match findHeader p s.buf 0 (s.head - p.H + 1) with
      | .error f => .error f
      | .ok (some i) => .ok (.hdrFound i)
      | .ok none => .ok .hdrFail
  | .seekingPayload =>
    if s.head < p.H then .ok .payWait
    else
      match window p s.buf 0 with
      | none => .error .undefRead
      | some w =>
        if p.cap < frameSize p w then .ok .oversize
        else if s.head < frameSize p w then .ok .payWait
        else .ok (.frameEmit (frameSize p w))

/-- A synchronizer label: in phase `P_SYNC`, `k` on the synchronizer's choice; in any other phase it holds (R150). -/
def inSync (p : Params) (s : State) (k : SyncChoice → Host.Outcome State Fault Refusal) :
    Host.Outcome State Fault Refusal :=
  if s.pc = .sync then
    match syncChoice p s with
    | .error f => .fault f
    | .ok c => k c
  else .next s

/-- A step that compacts the buffer first (R143). -/
def afterCompact (k : Nat) (s : State) (f : State → State) : Host.Outcome State Fault Refusal :=
  match compact k s with
  | .error e => .fault e
  | .ok s' => .next (f s')

/-! ### Reads of the link -/

/-- `n_req`, the request of a link read (R145). -/
def readRequest (p : Params) (s : State) : Nat := min s.rxFifo.length (p.cap - s.head)

/-- The core channel can take a frame (R157). -/
def coreSpace (p : Params) (s : State) : Bool := s.coreOut.length < p.coreOutDepth

/-! ### I/O calls -/

/-- An I/O call of the block other than the readiness wait (R18, R216). -/
inductive IoCall where
  | linkRead
  | frameEmit (fs : Nat)
  | coreRead
  | depthPoll
  | linkWrite
deriving DecidableEq, Repr

/-- The operation a call belongs to (R216). -/
def IoCall.opcode : IoCall → Opcode
  | .linkRead => .linkRead
  | .frameEmit _ => .frameEmit
  | .coreRead => .coreRead
  | .depthPoll => .depthPoll
  | .linkWrite => .linkWrite

/-- The I/O call the sequencer makes in the current state. A link read is made once its two checks pass (R146), a frame
write once the frame is complete and the core channel has space (R157, R158). -/
def ioCall (p : Params) (s : State) : Except Fault (Option IoCall) :=
  match s.pc with
  | .linkRead => .ok (if s.rxFifo ≠ [] ∧ s.head < p.cap then some .linkRead else none)
  | .sync =>
    match syncChoice p s with
    | .error f => .error f
    | .ok (.frameEmit fs) => .ok (if coreSpace p s then some (.frameEmit fs) else none)
    | .ok .hdrWait | .ok (.hdrFound _) | .ok .hdrFail | .ok .payWait | .ok .oversize => .ok none
  | .coreRead => .ok (some .coreRead)
  | .poll => .ok (some .depthPoll)
  | .write => .ok (some .linkWrite)
  | .reset | .wait | .dispatch | .sleepDrain | .gap | .fatal => .ok none

/-! ### Fatal conditions -/

/-- The oversize outcome of the payload step (R156). -/
def oversizeHeader (p : Params) (s : State) : Except Fault Bool :=
  if s.pc = .sync then
    match syncChoice p s with
    | .error f => .error f
    | .ok c => .ok (c = .oversize)
  else .ok false

/-- Whether the sequencer makes a call the predicate accepts. -/
def makesCall (p : Params) (s : State) (accept : IoCall → Bool) : Except Fault Bool :=
  match ioCall p s with
  | .error f => .error f
  | .ok none => .ok false
  | .ok (some call) => .ok (accept call)

/-- The condition under which a step may raise a cause (R241), checks in the order of R248. `NONE` is raised by none. -/
def fatalCondition (p : Params) (c : Cause) (s : State) : Except Fault Bool :=
  match c with
  | .none => .ok false
  | .setupFail => .ok (s.pc = .reset && rateSupported p s.bitrate)
  | .unsupportedBitrate => .ok (s.pc = .reset && !rateSupported p s.bitrate)
  | .waitFailure => .ok (s.pc = .wait)
  | .waitZeroReady => .ok (s.pc = .wait)
  | .linkReadError => makesCall p s (· = .linkRead)
  | .linkReadableZero => .ok (s.pc = .linkRead && s.rxFifo.isEmpty)
  | .feedOverflow => .ok (s.pc = .linkRead && !s.rxFifo.isEmpty && p.cap ≤ s.head)
  | .coreWriteError => makesCall p s (·.opcode = .frameEmit)
  | .coreShortWrite => makesCall p s (·.opcode = .frameEmit)
  | .oversizeFrame => oversizeHeader p s
  | .coreReadError => makesCall p s (· = .coreRead)
  | .coreClosed => .ok (s.pc = .coreRead && s.coreIn.head? = some [])
  | .depthPollError => makesCall p s (· = .depthPoll)
  | .linkWriteError => makesCall p s (· = .linkWrite)
  | .linkShortWrite => .ok (s.pc = .write && 1 ≤ s.egLen)

/-! ### Pacing -/

/-- `floor(bits * 1_000_000 / rate)`; at rate 0, which holds after no START, a free value (R181, log entry 12). -/
def bitTimesUs (p : Params) (bits : Nat) (rate : Word32) : Nat :=
  if rate.toNat = 0 then p.zeroRateUs bits else bits * 1000000 / rate.toNat

/-- `drain_us(d)` (R181). -/
def drainUs (p : Params) (d : Nat) (rate : Word32) : Nat := bitTimesUs p (d * Config.bitsPerByte) rate

/-- `gap_us` (R181). -/
def gapUs (p : Params) (rate : Word32) : Nat := bitTimesUs p (Config.gapBytes * Config.bitsPerByte) rate

end Sys2Proof.Machine
end

