-- ==== Sys2Proof/Machine/Control.lean ====
section
/-! DEFINITION. The control labels: configuration, START, RESET (42_dispatch_control.md R219 to R226) and FATAL
(60_exceptions.md R250). -/

namespace Sys2Proof.Machine

/-- CFG_BITRATE v (R219): the register is written while `run = IDLE`, else the write is ignored. -/
def cfgBitrateOp (rate : Word32) (s : State) : Host.Outcome State Fault Refusal :=
  .next (emit (.cfgBitrate rate) [] (if s.run = .idle then { s with bitrate := rate } else s))

/-- CFG_FLOWCTL f (R220). -/
def cfgFlowctlOp (f : Bool) (s : State) : Host.Outcome State Fault Refusal :=
  .next (emit (.cfgFlowctl f) [] (if s.run = .idle then { s with hwfc := f } else s))

/-- The state after a successful START (R221, 70_reset_and_hazards.md R271). -/
def started (s : State) : State :=
  emit .start []
    { s with
      rxFifo := [], txQueue := [], coreIn := [], coreOut := [], linkHup := false
      buf := [], head := 0, sync := .seekingHeader, pending := ⟨false, false⟩
      egMsg := [], egLen := 0, run := .running, pc := .wait }

/-- START (R221), a supported rate and setup draw `OK`. Its failures are FATAL labels. -/
def startOp (p : Params) (s : State) : Host.Outcome State Fault Refusal :=
  stepIf (s.pc = .reset && rateSupported p s.bitrate) (started s) s

/-- FATAL cause (R250): where the condition of the cause holds (R241). A code no rule raises is never enabled. -/
def fatalOp (p : Params) (code : Byte) (s : State) : Host.Outcome State Fault Refusal :=
  match Cause.ofCode? code with
  | none => .next s
  | some c =>
    match fatalCondition p c s with
    | .error f => .fault f
    | .ok holds => stepIf holds (raiseFatal c s) s

/-- CFG_BITRATE v. -/
def execCfgBitrate (rate : Word32) (s : State) : Host.Outcome State Fault Refusal := cfgBitrateOp rate s

/-- CFG_FLOWCTL f. -/
def execCfgFlowctl (hwfc : Bool) (s : State) : Host.Outcome State Fault Refusal := cfgFlowctlOp hwfc s

/-- START. -/
def execStart (s : State) : Host.Outcome State Fault Refusal := startOp Config.params s

/-- FATAL cause. -/
def execFatal (code : Byte) (s : State) : Host.Outcome State Fault Refusal := fatalOp Config.params code s

/-- RESET (R226), in every state. -/
def execReset (s : State) : Host.Outcome State Fault Refusal := .next (resetBlock s)

end Sys2Proof.Machine
end

