-- ==== Sys2Proof/Machine/Dispatcher.lean ====
section
/-! DEFINITION. The labels of the event dispatcher (42_dispatch_control.md R210 to R218). The two sources are a closed
set (R218). -/

namespace Sys2Proof.Machine

/-- WAIT_WAKE mask (R210): readiness is sampled at the wake. With no source ready the wait does not return. -/
def waitWakeOp (mask : BitVec 2) (s : State) : Host.Outcome State Fault Refusal :=
  stepIf (s.pc = .wait && mask ≠ 0 && mask = readyMask s)
    (emit (.waitWake mask) [] { s with pending := Pending.ofMask mask, pc := .dispatch }) s

/-- WAIT_EINTR (R211): the wait is re-entered. -/
def waitEintrOp (s : State) : Host.Outcome State Fault Refusal :=
  stepIf (s.pc = .wait) (emit .waitEintr [] s) s

/-- DISPATCH_LINK (R214): the link handler, unless a fixed order puts a pending core source first. -/
def dispatchLinkOp (p : Params) (s : State) : Host.Outcome State Fault Refusal :=
  stepIf (s.pc = .dispatch && s.pending.link && !(s.pending.core && p.dispatchOrder = .coreFirst))
    (emit .dispatchLink [] { s with pending := { s.pending with link := false }, pc := .linkRead }) s

/-- DISPATCH_CORE (R215): the core handler, unless a fixed order puts a pending link source first. -/
def dispatchCoreOp (p : Params) (s : State) : Host.Outcome State Fault Refusal :=
  stepIf (s.pc = .dispatch && s.pending.core && !(s.pending.link && p.dispatchOrder = .linkFirst))
    (emit .dispatchCore [] { s with pending := { s.pending with core := false }, pc := .coreRead }) s

/-- IO_RETRY op (R216): the call the sequencer makes was interrupted, and it is made again. -/
def ioRetryOp (p : Params) (op : Byte) (s : State) : Host.Outcome State Fault Refusal :=
  match makesCall p s (fun call => call.opcode.code = op) with
  | .error f => .fault f
  | .ok made => stepIf made (emit (.ioRetry op) [] s) s

/-- WAIT_WAKE mask. -/
def execWaitWake (mask : BitVec 2) (s : State) : Host.Outcome State Fault Refusal := waitWakeOp mask s

/-- WAIT_EINTR. -/
def execWaitEintr (s : State) : Host.Outcome State Fault Refusal := waitEintrOp s

/-- DISPATCH_LINK. -/
def execDispatchLink (s : State) : Host.Outcome State Fault Refusal := dispatchLinkOp Config.params s

/-- DISPATCH_CORE. -/
def execDispatchCore (s : State) : Host.Outcome State Fault Refusal := dispatchCoreOp Config.params s

/-- IO_RETRY op. -/
def execIoRetry (op : Byte) (s : State) : Host.Outcome State Fault Refusal := ioRetryOp Config.params op s

end Sys2Proof.Machine
end

