-- ==== Sys2Proof/Machine/Egress.lean ====
section
/-! DEFINITION. The labels of the egress pacer (41_egress.md). -/

namespace Sys2Proof.Machine

/-- CORE_READ L (R180), outcome `OK` with a message of at least one byte: it leaves `core_in`, and its first `TX_MAX`
bytes are the message to send. On an empty `core_in`, which no run reaches (R213), it holds (log entry 8). -/
def coreReadOp (p : Params) (len : Nat) (s : State) : Host.Outcome State Fault Refusal :=
  match s.coreIn with
  | [] => .next s
  | m :: rest =>
    stepIf (s.pc = .coreRead && m ≠ [] && len = min m.length p.txMax)
      (emit (.coreRead len) (m.take p.txMax) { loadMessage p m s with coreIn := rest, pc := .poll })
      s

/-- The sleep a poll of depth `d` arms: the drain time of `d` bytes, or the idle gap at depth 0 (R182). -/
def pollSleepUs (p : Params) (d : Nat) (rate : Word32) : Nat :=
  if 0 < d then drainUs p d rate else gapUs p rate

/-- DEPTH_POLL d (R182), outcome `OK`: the timer is armed. -/
def depthPollOp (p : Params) (d : Nat) (s : State) : Host.Outcome State Fault Refusal :=
  stepIf (s.pc = .poll && d = s.txQueue.length)
    (emit (.depthPoll d) []
      { s with
        egSleepUs := pollSleepUs p d s.bitrate
        egDeadline := s.nowUs + pollSleepUs p d s.bitrate
        pc := if 0 < d then .sleepDrain else .gap })
    s

/-- DRAIN_SLEEP s (R184): from the deadline on, at any later time (R183). -/
def drainSleepOp (us : Nat) (s : State) : Host.Outcome State Fault Refusal :=
  stepIf (s.pc = .sleepDrain && s.egDeadline ≤ s.nowUs && us = s.egSleepUs)
    (emit (.drainSleep us) [] { s with pc := .poll }) s

/-- IDLE_GAP s (R186): from the deadline on, at any later time (R183). -/
def idleGapOp (us : Nat) (s : State) : Host.Outcome State Fault Refusal :=
  stepIf (s.pc = .gap && s.egDeadline ≤ s.nowUs && us = s.egSleepUs)
    (emit (.idleGap us) [] { s with pc := .write }) s

/-- LINK_WRITE L (R188), outcome `OK`: the message joins the transmit queue, and the handler completes. -/
def linkWriteOp (len : Nat) (s : State) : Host.Outcome State Fault Refusal :=
  if s.pc = .write ∧ len = s.egLen then
    match memReadBytes s.egMsg 0 s.egLen with
    | none => .fault .undefRead
    | some bytes =>
      .next (completeHandler (emit (.linkWrite len) bytes { s with txQueue := s.txQueue ++ bytes }))
  else .next s

/-- CORE_READ L. -/
def execCoreRead (len : Nat) (s : State) : Host.Outcome State Fault Refusal := coreReadOp Config.params len s

/-- DEPTH_POLL d. -/
def execDepthPoll (d : Nat) (s : State) : Host.Outcome State Fault Refusal := depthPollOp Config.params d s

/-- DRAIN_SLEEP s. -/
def execDrainSleep (us : Nat) (s : State) : Host.Outcome State Fault Refusal := drainSleepOp us s

/-- IDLE_GAP s. -/
def execIdleGap (us : Nat) (s : State) : Host.Outcome State Fault Refusal := idleGapOp us s

/-- LINK_WRITE L. -/
def execLinkWrite (len : Nat) (s : State) : Host.Outcome State Fault Refusal := linkWriteOp len s

end Sys2Proof.Machine
end

