-- ==== Sys2Proof/Machine/Environment.lean ====
section
/-! DEFINITION. The environment labels (42_dispatch_control.md R230 to R235). None reads or writes the block's own state
but ENV_RX, which reads `HWFC` (10_state.md R47, R59). -/

namespace Sys2Proof.Machine

/-- ENV_RX b (R230): delivered, or lost when the buffer is full without flow control; with it the remote is held off. -/
def envRxOp (p : Params) (b : Byte) (s : State) : Host.Outcome State Fault Refusal :=
  stepIf (!(s.hwfc && s.rxFifo.length = p.rxFifoDepth))
    (emit (.envRx b) []
      { s with rxFifo := if s.rxFifo.length < p.rxFifoDepth then s.rxFifo ++ [b] else s.rxFifo })
    s

/-- ENV_TX_DRAIN k (R231): `k` bytes go onto the wire at the current clock. -/
def envTxDrainOp (k : Nat) (s : State) : Host.Outcome State Fault Refusal :=
  stepIf (1 ≤ k && k ≤ s.txQueue.length)
    (emit (.envTxDrain k) []
      { s with
        wire := s.wire ++ (s.txQueue.take k).map (fun b => (s.nowUs, b))
        txQueue := s.txQueue.drop k })
    s

/-- ENV_CORE_SEND m (R232). -/
def envCoreSendOp (m : List Byte) (s : State) : Host.Outcome State Fault Refusal :=
  .next (emit (.envCoreSend m) m { s with coreIn := s.coreIn ++ [m] })

/-- ENV_CORE_RECV n (R233). -/
def envCoreRecvOp (n : Nat) (s : State) : Host.Outcome State Fault Refusal :=
  match s.coreOut with
  | [] => .next s
  | frame :: rest => stepIf (n = frame.length) (emit (.envCoreRecv n) frame { s with coreOut := rest }) s

/-- ENV_TICK u (R234). -/
def envTickOp (u : Nat) (s : State) : Host.Outcome State Fault Refusal :=
  stepIf (1 ≤ u) (emit (.envTick u) [] { s with nowUs := s.nowUs + u }) s

/-- ENV_LINK_HUP (R235). -/
def envLinkHupOp (s : State) : Host.Outcome State Fault Refusal :=
  stepIf (!s.linkHup) (emit .envLinkHup [] { s with linkHup := true }) s

/-- ENV_RX b. -/
def execEnvRx (b : Byte) (s : State) : Host.Outcome State Fault Refusal := envRxOp Config.params b s

/-- ENV_TX_DRAIN k. -/
def execEnvTxDrain (k : Nat) (s : State) : Host.Outcome State Fault Refusal := envTxDrainOp k s

/-- ENV_CORE_SEND m. -/
def execEnvCoreSend (m : List Byte) (s : State) : Host.Outcome State Fault Refusal := envCoreSendOp m s

/-- ENV_CORE_RECV n. -/
def execEnvCoreRecv (n : Nat) (s : State) : Host.Outcome State Fault Refusal := envCoreRecvOp n s

/-- ENV_TICK u. -/
def execEnvTick (u : Nat) (s : State) : Host.Outcome State Fault Refusal := envTickOp u s

/-- ENV_LINK_HUP. -/
def execEnvLinkHup (s : State) : Host.Outcome State Fault Refusal := envLinkHupOp s

end Sys2Proof.Machine
end

