-- ==== Sys2Proof/Machine/Ingress.lean ====
section
/-! DEFINITION. The labels of the ingress synchronizer (40_ingress.md). Each `exec…` is its rule's meaning at the
machine's parameters; the function it calls takes the parameters as an argument, so that it can be run on the test codec. -/

namespace Sys2Proof.Machine

/-- LINK_READ r (R146), outcome `OK(r)`: the bytes leave the receive buffer and are appended. -/
def linkReadOp (p : Params) (r : Nat) (s : State) : Host.Outcome State Fault Refusal :=
  stepIf (s.pc = .linkRead && 1 ≤ r && r ≤ readRequest p s)
    (match append p (s.rxFifo.take r) s with
      | .error c => raiseFatal c s
      | .ok s' => emit (.linkRead r) [] { s' with rxFifo := s.rxFifo.drop r, pc := .sync })
    s

/-- HDR_FOUND i (R152): the bytes before the first validating window are discarded. -/
def hdrFoundOp (p : Params) (i : Nat) (s : State) : Host.Outcome State Fault Refusal :=
  inSync p s fun c =>
    if c = .hdrFound i then
      afterCompact i s fun s' => emit (.hdrFound i) [] { s' with sync := .seekingPayload }
    else .next s

/-- HDR_FAIL n (R153): all but the last `H - 1` bytes are discarded, and the handler completes. -/
def hdrFailOp (p : Params) (n : Nat) (s : State) : Host.Outcome State Fault Refusal :=
  inSync p s fun c =>
    if c = .hdrFail ∧ n = s.head - (p.H - 1) then
      afterCompact n s fun s' => completeHandler (emit (.hdrFail n) [] s')
    else .next s

/-- HDR_WAIT h (R154): fewer than `H` bytes, and the handler completes. -/
def hdrWaitOp (p : Params) (h : Nat) (s : State) : Host.Outcome State Fault Refusal :=
  inSync p s fun c =>
    stepIf (c = .hdrWait && h = s.head) (completeHandler (emit (.hdrWait h) [] s)) s

/-- PAY_WAIT h (R155): the frame is not complete, and the handler completes. -/
def payWaitOp (p : Params) (h : Nat) (s : State) : Host.Outcome State Fault Refusal :=
  inSync p s fun c =>
    stepIf (c = .payWait && h = s.head) (completeHandler (emit (.payWait h) [] s)) s

/-- FRAME_EMIT fs (R158), outcome `OK`: the frame goes to the core channel, the rest moves to offset 0. With the
channel full it holds (R157). -/
def frameEmitOp (p : Params) (fs : Nat) (s : State) : Host.Outcome State Fault Refusal :=
  inSync p s fun c =>
    if c = .frameEmit fs ∧ coreSpace p s = true then
      match memReadBytes s.buf 0 fs with
      | none => .fault .undefRead
      | some frame =>
        afterCompact fs s fun s' =>
          emit (.frameEmit fs) frame { s' with coreOut := s.coreOut ++ [frame], sync := .seekingHeader }
    else .next s

/-- LINK_READ r. -/
def execLinkRead (r : Nat) (s : State) : Host.Outcome State Fault Refusal := linkReadOp Config.params r s

/-- HDR_FOUND i. -/
def execHdrFound (i : Nat) (s : State) : Host.Outcome State Fault Refusal := hdrFoundOp Config.params i s

/-- HDR_FAIL n. -/
def execHdrFail (n : Nat) (s : State) : Host.Outcome State Fault Refusal := hdrFailOp Config.params n s

/-- HDR_WAIT h. -/
def execHdrWait (h : Nat) (s : State) : Host.Outcome State Fault Refusal := hdrWaitOp Config.params h s

/-- PAY_WAIT h. -/
def execPayWait (h : Nat) (s : State) : Host.Outcome State Fault Refusal := payWaitOp Config.params h s

/-- FRAME_EMIT fs. -/
def execFrameEmit (fs : Nat) (s : State) : Host.Outcome State Fault Refusal := frameEmitOp Config.params fs s

end Sys2Proof.Machine
end

