-- ==== Sys2Proof/Machine/Dispatch.lean ====
section
/-! DEFINITION. One arm per label (30_encoding.md R121). -/

namespace Sys2Proof.Machine

def exec (i : Instr) (s : State) : Host.Outcome State Fault Refusal :=
  match i with
  -- ingress
  | .linkRead r => Sys2Proof.Machine.execLinkRead r s
  | .hdrFound k => Sys2Proof.Machine.execHdrFound k s
  | .hdrFail n => Sys2Proof.Machine.execHdrFail n s
  | .hdrWait h => Sys2Proof.Machine.execHdrWait h s
  | .payWait h => Sys2Proof.Machine.execPayWait h s
  | .frameEmit fs => Sys2Proof.Machine.execFrameEmit fs s
  -- egress
  | .coreRead len => Sys2Proof.Machine.execCoreRead len s
  | .depthPoll d => Sys2Proof.Machine.execDepthPoll d s
  | .drainSleep us => Sys2Proof.Machine.execDrainSleep us s
  | .idleGap us => Sys2Proof.Machine.execIdleGap us s
  | .linkWrite len => Sys2Proof.Machine.execLinkWrite len s
  -- dispatcher
  | .waitWake mask => Sys2Proof.Machine.execWaitWake mask s
  | .waitEintr => Sys2Proof.Machine.execWaitEintr s
  | .dispatchLink => Sys2Proof.Machine.execDispatchLink s
  | .dispatchCore => Sys2Proof.Machine.execDispatchCore s
  | .ioRetry op => Sys2Proof.Machine.execIoRetry op s
  -- control
  | .cfgBitrate rate => Sys2Proof.Machine.execCfgBitrate rate s
  | .cfgFlowctl hwfc => Sys2Proof.Machine.execCfgFlowctl hwfc s
  | .start => Sys2Proof.Machine.execStart s
  | .fatal code => Sys2Proof.Machine.execFatal code s
  | .reset => Sys2Proof.Machine.execReset s
  -- environment
  | .envRx b => Sys2Proof.Machine.execEnvRx b s
  | .envTxDrain k => Sys2Proof.Machine.execEnvTxDrain k s
  | .envCoreSend m => Sys2Proof.Machine.execEnvCoreSend m s
  | .envCoreRecv n => Sys2Proof.Machine.execEnvCoreRecv n s
  | .envTick u => Sys2Proof.Machine.execEnvTick u s
  | .envLinkHup => Sys2Proof.Machine.execEnvLinkHup s

end Sys2Proof.Machine
end

