-- ==== Sys2Proof/Machine/HostPort.lean ====
section
/-! DEFINITION. The host register port (10_state.md R48, R49, 30_encoding.md R128) and the signal form of the environment
state (R57). The registers are views of the state and of the parameters; each value is stored once. -/

namespace Sys2Proof.Machine

/-- `STATUS` (R48). -/
def statusWord (s : State) : Word32 :=
  (0 : BitVec 10) ++ s.pending.bits ++ s.pc.code ++ s.cause.code ++ (0 : BitVec 5) ++ s.run.code ++ s.sync.code

/-- The address of a register: its byte offset from the platform's base (R48 `CSR_BASE`). -/
def csrAddress (p : Params) (offset : Nat) : Nat := p.csrBase + offset

/-- The value of the register at a 4-byte aligned offset; a reserved offset reads 0 (R48, R49). -/
def registerValue (p : Params) (offset : Nat) (s : State) : Word32 :=
  match offset with
  | 0x00 => 0
  | 0x04 => s.bitrate
  | 0x08 => BitVec.ofNat 32 s.hwfc.toNat
  | 0x0C => statusWord s
  | 0x10 => BitVec.ofNat 32 s.head
  | 0x14 => BitVec.ofNat 32 p.H
  | 0x18 => BitVec.ofNat 32 p.cap
  | 0x1C => p.marker.zeroExtend 32
  | 0x20 => BitVec.ofNat 32 p.txMax
  | _ => 0

/-- A host access the block has a meaning for: 32 bits wide and 4-byte aligned (R49). -/
def hostAccessOk (width offset : Nat) : Bool := width = 32 && offset % 4 = 0

/-- A host read: the current value, no side effect on any state (R49). -/
def hostReadValue (p : Params) (width offset : Nat) (s : State) : Except Refusal Word32 :=
  if hostAccessOk width offset then .ok (registerValue p offset s) else .error .hostAccess

/-- A host write of 1 to `CTRL.START` (R221): the rate is checked before the setup is drawn (R248). Outside `P_RESET` the
write is ignored. -/
def startRequest (p : Params) (setup : SetupDraw) (s : State) : State :=
  if s.pc = .reset then
    if rateSupported p s.bitrate then
      match setup with
      | .ok => started s
      | .fail => raiseFatal .setupFail s
    else raiseFatal .unsupportedBitrate s
  else s

/-- A host write (R48, R49, R219, R220, R221): a write to a read-only register or a reserved offset is ignored. -/
def hostWriteOp (p : Params) (width offset : Nat) (value : Word32) (setup : SetupDraw) (s : State) :
    Host.Outcome State Fault Refusal :=
  if hostAccessOk width offset then
    match offset with
    | 0x00 => .next (if value.getLsbD 0 then startRequest p setup s else s)
    | 0x04 => cfgBitrateOp value s
    | 0x08 => cfgFlowctlOp (value.getLsbD 0) s
    | _ => .next s
  else .refused .hostAccess

/-- A host read as a step: nothing changes (R49). -/
def hostReadOp (p : Params) (width offset : Nat) (s : State) : Host.Outcome State Fault Refusal :=
  match hostReadValue p width offset s with
  | .ok _ => .next s
  | .error r => .refused r

/-- The signals at the block's ports that a state holds (R57). -/
structure Ports where
  /-- `rx_count`. -/
  rxCount : Nat
  /-- `rx_hup`. -/
  rxHup : Bool
  /-- `tx_depth`. -/
  txDepth : Nat
  /-- `co_space`. -/
  coSpace : Bool
  /-- `ci_count`: `core_in` not empty. -/
  ciNonEmpty : Bool
  /-- `now_us`. -/
  nowUs : Nat
  /-- `uart_bitrate`. -/
  uartBitrate : Word32
  /-- `uart_hwfc`. -/
  uartHwfc : Bool
  /-- `fatal`. -/
  fatal : Bool
  /-- `fatal_cause`. -/
  fatalCause : Byte
deriving DecidableEq, Repr

/-- The ports in a state (R57). The transfers `rx_pop_n`, `tx_push`, `co_push` and `ci_pop` are the labels LINK_READ,
LINK_WRITE, FRAME_EMIT and CORE_READ with their outcomes. -/
def portsOf (p : Params) (s : State) : Ports where
  rxCount := s.rxFifo.length
  rxHup := s.linkHup
  txDepth := s.txQueue.length
  coSpace := coreSpace p s
  ciNonEmpty := coreReady s
  nowUs := s.nowUs
  uartBitrate := s.bitrate
  uartHwfc := s.hwfc
  fatal := s.run = .fatal
  fatalCause := s.cause.code

end Sys2Proof.Machine
end

