-- ==== Sys2Proof/Machine/Moves.lean ====
section
/-! DEFINITION. Taking the next move offered (60_exceptions.md R258: "Any enabled step of any agent may be taken next").
The block fetches nothing (20_memory.md R81); which agent moves, and every draw of the environment, is the list `moves`,
loaded from outside (log entry 1). -/

namespace Sys2Proof.Machine

/-- The state in which the first move, taken off the list, is made; a label takes an index of free values. -/
def afterOffer (rest : List Move) (s : State) : State := { s with moves := rest, freeCount := s.freeCount + 1 }

/-- A label record: the label it decodes to is run, an invalid one is refused (30_encoding.md R123). -/
def runRecord (r : LabelRecord) (n : Nat) (s : State) : Host.Outcome State Fault Refusal :=
  match decode r n with
  | .error e => .refused (.invalidLabel e)
  | .ok i => exec i s

/-- One move. -/
def runMove (m : Move) (n : Nat) (s : State) : Host.Outcome State Fault Refusal :=
  match m with
  | .label r => runRecord r n s
  | .hostWrite width offset value setup => hostWriteOp Config.params width offset value setup s
  | .hostRead width offset => hostReadOp Config.params width offset s

/-- The next move offered; with none offered no agent moves and nothing changes. -/
def takeMove (s : State) : Host.Outcome State Fault Refusal :=
  match s.moves with
  | [] => .next s
  | m :: rest => runMove m s.freeCount (afterOffer rest s)

/-- The label record of a word offered as the next move. -/
def offerWord (s : State) (w : Word32) : State := { s with moves := .label (bareRecord w) :: s.moves }

end Sys2Proof.Machine
end

