-- ==== Sys2Proof/Machine/Step.lean ====
section
/-! DEFINITION. One step of the machine: the next move offered is made. -/

namespace Sys2Proof.Machine

/-- One step (60_exceptions.md R258). -/
def step (s : State) : Host.Outcome State Fault Refusal := takeMove s

/-- The word offered as the next move, bits above `nbits` zero. Every label is one 32-bit word (30_encoding.md R125). -/
def State.withFetchWord (s : State) (nbits w : Nat) : State :=
  offerWord s (BitVec.ofNat 32 (w % 2 ^ nbits))

end Sys2Proof.Machine
end

