-- ==== Sys2Proof/Machine/Text.lean ====
section
/-! DEFINITION. The textual syntax of labels (30_encoding.md R126) and of the pseudo-labels (R127): a printer, and a reader
of one line, which answers the label records the line stands for, and the taking of a pseudo-label. Blanks and commas separate
words; an empty line or a comment stands for none (log entry 21). -/

namespace Sys2Proof.Machine

/-- The mnemonic of an operation (R121). -/
def mnemonicOf : Opcode → String
  | .linkRead => "LINK_READ"
  | .hdrFound => "HDR_FOUND"
  | .hdrFail => "HDR_FAIL"
  | .hdrWait => "HDR_WAIT"
  | .payWait => "PAY_WAIT"
  | .frameEmit => "FRAME_EMIT"
  | .coreRead => "CORE_READ"
  | .depthPoll => "DEPTH_POLL"
  | .drainSleep => "DRAIN_SLEEP"
  | .idleGap => "IDLE_GAP"
  | .linkWrite => "LINK_WRITE"
  | .waitWake => "WAIT_WAKE"
  | .waitEintr => "WAIT_EINTR"
  | .dispatchLink => "DISPATCH_LINK"
  | .dispatchCore => "DISPATCH_CORE"
  | .ioRetry => "IO_RETRY"
  | .cfgBitrate => "CFG_BITRATE"
  | .cfgFlowctl => "CFG_FLOWCTL"
  | .start => "START"
  | .fatal => "FATAL"
  | .reset => "RESET"
  | .envRx => "ENV_RX"
  | .envTxDrain => "ENV_TX_DRAIN"
  | .envCoreSend => "ENV_CORE_SEND"
  | .envCoreRecv => "ENV_CORE_RECV"
  | .envTick => "ENV_TICK"
  | .envLinkHup => "ENV_LINK_HUP"

/-- The name of a cause (60_exceptions.md R241). -/
def causeName : Cause → String
  | .none => "NONE"
  | .setupFail => "SETUP_FAIL"
  | .unsupportedBitrate => "UNSUPPORTED_BITRATE"
  | .waitFailure => "WAIT_FAILURE"
  | .waitZeroReady => "WAIT_ZERO_READY"
  | .linkReadError => "LINK_READ_ERROR"
  | .linkReadableZero => "LINK_READABLE_ZERO"
  | .feedOverflow => "FEED_OVERFLOW"
  | .coreWriteError => "CORE_WRITE_ERROR"
  | .coreShortWrite => "CORE_SHORT_WRITE"
  | .oversizeFrame => "OVERSIZE_FRAME"
  | .coreReadError => "CORE_READ_ERROR"
  | .coreClosed => "CORE_CLOSED"
  | .depthPollError => "DEPTH_POLL_ERROR"
  | .linkWriteError => "LINK_WRITE_ERROR"
  | .linkShortWrite => "LINK_SHORT_WRITE"

/-! ### Printing -/

/-- A natural in decimal. -/
def decimal (a : Nat) : List Char := Nat.toDigits 10 a

/-- A byte as two hexadecimal digits. -/
def hexByte (b : Byte) : List Char := [Nat.digitChar (b.toNat / 16), Nat.digitChar (b.toNat % 16)]

/-- Bytes in brackets, a blank between two (R126). -/
def bracketed (bs : List Byte) : List Char :=
  '[' :: ((bs.map hexByte).intersperse [' ']).flatten ++ [']']

/-- The ready mask of WAIT_WAKE: `link`, `core` or `link|core` (R126); 0, which no step has, as a number. -/
def maskText (mask : BitVec 2) : List Char :=
  match mask.toNat with
  | 1 => "link".toList
  | 2 => "core".toList
  | 3 => "link|core".toList
  | _ => "0".toList

/-- The operation of IO_RETRY by its mnemonic (R126), by number where the byte is no OPC. -/
def retryText (op : Byte) : List Char :=
  match Opcode.ofCode? op with
  | some o => (mnemonicOf o).toList
  | none => decimal op.toNat

/-- The cause of FATAL by its name (R126), by number where the code is reserved. -/
def causeText (code : Byte) : List Char :=
  match Cause.ofCode? code with
  | some c => (causeName c).toList
  | none => decimal code.toNat

/-- A label with an argument. -/
def withArg (i : Instr) (arg : List Char) : List Char := (mnemonicOf i.opcode).toList ++ ' ' :: arg

/-- A label as text (R126). -/
def labelText (i : Instr) : List Char :=
  match i with
  | .waitEintr | .dispatchLink | .dispatchCore | .start | .reset | .envLinkHup => (mnemonicOf i.opcode).toList
  | .waitWake mask => withArg i (maskText mask)
  | .ioRetry op => withArg i (retryText op)
  | .fatal code => withArg i (causeText code)
  | .envCoreSend m => withArg i (decimal m.length ++ ' ' :: bracketed m)
  | .linkRead a | .hdrFound a | .hdrFail a | .hdrWait a | .payWait a | .frameEmit a => withArg i (decimal a)
  | .coreRead a | .depthPoll a | .drainSleep a | .idleGap a | .linkWrite a => withArg i (decimal a)
  | .cfgBitrate v => withArg i (decimal v.toNat)
  | .cfgFlowctl f => withArg i (decimal f.toNat)
  | .envRx b => withArg i (decimal b.toNat)
  | .envTxDrain a | .envCoreRecv a | .envTick a => withArg i (decimal a)

/-! ### Reading -/

/-- The line without its comment (R126). -/
def uncommented (line : List Char) : List Char := line.takeWhile (· != ';')

/-- The words of a line: separated by blanks and commas, a bracket a word of its own. -/
def wordsOf : List Char → List Char → List (List Char)
  | [], cur => if cur = [] then [] else [cur.reverse]
  | c :: cs, cur =>
    let done := if cur = [] then [] else [cur.reverse]
    if c = ' ' ∨ c = '\t' ∨ c = ',' then done ++ wordsOf cs []
    else if c = '[' ∨ c = ']' then done ++ [c] :: wordsOf cs []
    else wordsOf cs (c :: cur)

/-- The value of a digit of a base, either case. -/
def digitValue (base : Nat) (c : Char) : Option Nat :=
  let v :=
    if '0' ≤ c ∧ c ≤ '9' then some (c.toNat - 48)
    else if 'a' ≤ c ∧ c ≤ 'f' then some (c.toNat - 87)
    else if 'A' ≤ c ∧ c ≤ 'F' then some (c.toNat - 55)
    else none
  v.filter (· < base)

/-- A numeral's value, none for the empty word or another character. -/
def numeral (base : Nat) (cs : List Char) : Option Nat :=
  if cs = [] then none
  else cs.foldl (fun acc c => acc.bind fun a => (digitValue base c).map (a * base + ·)) (some 0)

/-- A number, in decimal or `0x` hexadecimal (R126), the byte operands of ENV_RX and ENV_RXS included: `ENV_RX 11` is the byte
0x0B, though the traces of 95_test_vectors.md, whose bytes are bare hexadecimal, mean 0x11 by it (DESIGN CHOICE, log
entry 27). -/
def readNumber (w : List Char) : Option Nat :=
  match w with
  | '0' :: 'x' :: cs => numeral 16 cs
  | cs => numeral 10 cs

/-- A number below a bound: what does not fit an operand is no argument of it. -/
def readBelow (bound : Nat) (w : List Char) : Option Nat := (readNumber w).filter (· < bound)

/-- A byte of a bracketed list: exactly two hexadecimal digits, without `0x`. The rule has only the example `[01 02 03]`
(R126; DESIGN CHOICE, log entry 21). -/
def readHexByte (w : List Char) : Option Byte :=
  if w.length = 2 then (numeral 16 w).map (BitVec.ofNat 8) else none

/-- The bytes of a bracketed list (R126). -/
def readBytes (ws : List (List Char)) : Option (List Byte) :=
  match ws with
  | ['['] :: rest =>
    if rest.getLast? = some [']'] then rest.dropLast.mapM readHexByte else none
  | _ => none

/-- The operation of a mnemonic. -/
def readMnemonic (w : List Char) : Option Opcode := Opcode.all.find? (fun op => (mnemonicOf op).toList == w)

/-- The cause of a name. -/
def readCause (w : List Char) : Option Cause := Cause.all.find? (fun c => (causeName c).toList == w)

/-- The argument of an operation as text (R126). -/
def readArg (op : Opcode) (w : List Char) : Option Nat :=
  match op with
  | .waitWake =>
    if w = "link".toList then some 1
    else if w = "core".toList then some 2
    else if w = "link|core".toList then some 3
    else none
  | .ioRetry => (readMnemonic w).map (·.code.toNat)
  | .fatal => (readCause w).map (·.code.toNat)
  | .waitEintr | .dispatchLink | .dispatchCore | .start | .reset | .envLinkHup => none
  | .linkRead | .hdrFound | .hdrFail | .hdrWait | .payWait | .frameEmit => readNumber w
  | .coreRead | .depthPoll | .drainSleep | .idleGap | .linkWrite => readNumber w
  | .cfgBitrate | .cfgFlowctl | .envRx | .envTxDrain | .envCoreSend | .envCoreRecv | .envTick => readNumber w

/-- The record of an operation and its argument. -/
def textRecord (op : Opcode) (a : Nat) (content : Option (List Byte)) : LabelRecord :=
  ⟨op.code ++ sat24 a, some a, content⟩

/-- The record of a label's words (R126). The bytes after ENV_CORE_RECV are the frame's, which the step itself gives: they
are read and must be as many as the argument says. -/
def readLabel (ws : List (List Char)) : Option LabelRecord :=
  match ws with
  | [] => none
  | name :: rest =>
    (readMnemonic name).bind fun op =>
      match rest with
      | [] =>
        match op with
        | .waitEintr | .dispatchLink | .dispatchCore | .start | .reset | .envLinkHup => some (textRecord op 0 none)
        | .linkRead | .hdrFound | .hdrFail | .hdrWait | .payWait | .frameEmit => none
        | .coreRead | .depthPoll | .drainSleep | .idleGap | .linkWrite => none
        | .waitWake | .ioRetry | .cfgBitrate | .cfgFlowctl | .fatal => none
        | .envRx | .envTxDrain | .envCoreSend | .envCoreRecv | .envTick => none
      | [arg] => (readArg op arg).map fun a => textRecord op a none
      | arg :: bytes =>
        (readArg op arg).bind fun a =>
          (readBytes bytes).bind fun bs =>
            if bs.length = a then
              match op with
              | .envCoreSend => some (textRecord op a (some bs))
              | .envCoreRecv => some (textRecord op a none)
              | .linkRead | .hdrFound | .hdrFail | .hdrWait | .payWait | .frameEmit => none
              | .coreRead | .depthPoll | .drainSleep | .idleGap | .linkWrite => none
              | .waitWake | .waitEintr | .dispatchLink | .dispatchCore | .ioRetry => none
              | .cfgBitrate | .cfgFlowctl | .start | .fatal | .reset => none
              | .envRx | .envTxDrain | .envTick | .envLinkHup => none
            else none

/-- A pseudo-label's words (R127). An operand that its labels cannot hold makes the line no pseudo-label. -/
def readPseudo (ws : List (List Char)) : Option PseudoLabel :=
  match ws with
  | [] => none
  | name :: rest =>
    if name = "ENV_RXS".toList then (rest.mapM (readBelow (2 ^ 8))).map fun ns => .envRxs (ns.map (BitVec.ofNat 8))
    else
      match rest with
      | [a] =>
        if name = "SERVE_LINK".toList then (readNumber a).map .serveLink
        else if name = "SERVE_CORE".toList then (readNumber a).map .serveCore
        else none
      | [a, b] =>
        (readBelow (2 ^ 32) a).bind fun rate =>
          (readBelow 2 b).bind fun hwfc =>
            if name = "CONFIG".toList then some (.config (BitVec.ofNat 32 rate) (hwfc = 1))
            else if name = "BOOT".toList then some (.boot (BitVec.ofNat 32 rate) (hwfc = 1))
            else none
      | _ => none

/-- The label records of one line (R126, R127); none where the line is neither a label nor a pseudo-label. -/
def readLine (line : List Char) : Option (List LabelRecord) :=
  let ws := wordsOf (uncommented line) []
  if ws = [] then some []
  else
    match readPseudo ws with
    | some q => some (q.expand.map encode)
    | none => (readLabel ws).map fun r => [r]

/-! ### Pseudo-labels taken -/

/-- The labels taken one after the other; none where one of them is not enabled in its turn. -/
def takeInTurn : List Instr → State → Option State
  | [], s => some s
  | i :: rest, s =>
    match exec i s with
    | .next t => if t.history.length = s.history.length + 1 then takeInTurn rest t else none
    | .fault _ => none
    | .refused _ => none

/-- A pseudo-label taken: valid only where every label of its expansion is enabled in turn (R127). -/
def takePseudo (q : PseudoLabel) (s : State) : Option State := takeInTurn q.expand s

end Sys2Proof.Machine
end

