-- ==== Sys2Proof/Safety.lean ====
section
/-! DEFINITION. The terms claims about the block are stated in: a label taken, the invariant of the block
(40_ingress.md R144, 10_state.md R34, R41, R42, R43), what the event history says of the two data paths (20_memory.md R94 to
R96, 41_egress.md R190), the synchronizer loop as a whole (40_ingress.md R150, R163), and the fairness assumptions
(70_reset_and_hazards.md R290). -/

namespace Sys2Proof.Machine

/-! ### Labels taken -/

/-- The answer of a label at parameters `p`: the meaning `exec` dispatches to, at any parameters instead of the machine's own
(92_eei_decisions.md D2). -/
def execAt (p : Params) (i : Instr) (s : State) : Host.Outcome State Fault Refusal :=
  match i with
  | .linkRead r => linkReadOp p r s
  | .hdrFound k => hdrFoundOp p k s
  | .hdrFail n => hdrFailOp p n s
  | .hdrWait h => hdrWaitOp p h s
  | .payWait h => payWaitOp p h s
  | .frameEmit fs => frameEmitOp p fs s
  | .coreRead len => coreReadOp p len s
  | .depthPoll d => depthPollOp p d s
  | .drainSleep us => drainSleepOp us s
  | .idleGap us => idleGapOp us s
  | .linkWrite len => linkWriteOp len s
  | .waitWake mask => waitWakeOp mask s
  | .waitEintr => waitEintrOp s
  | .dispatchLink => dispatchLinkOp p s
  | .dispatchCore => dispatchCoreOp p s
  | .ioRetry op => ioRetryOp p op s
  | .cfgBitrate rate => cfgBitrateOp rate s
  | .cfgFlowctl hwfc => cfgFlowctlOp hwfc s
  | .start => startOp p s
  | .fatal code => fatalOp p code s
  | .reset => .next (resetBlock s)
  | .envRx b => envRxOp p b s
  | .envTxDrain k => envTxDrainOp k s
  | .envCoreSend m => envCoreSendOp m s
  | .envCoreRecv n => envCoreRecvOp n s
  | .envTick u => envTickOp u s
  | .envLinkHup => envLinkHupOp s

/-- The label is a step from `s` to `t`: it is enabled in `s`, and its step is in the history of `t` (30_encoding.md R119,
R120). A label that is not enabled holds and leaves the history as it is (log entry 2). -/
def Taken (i : Instr) (s t : State) : Prop :=
  exec i s = .next t ∧ t.history.length = s.history.length + 1

/-- The label is not enabled in `s`: no step occurs (00_scope.md R17). -/
def HoldsIn (i : Instr) (s : State) : Prop := exec i s = .next s

/-- The labels are steps from `s` to `t`, each enabled in its turn (30_encoding.md R127). -/
def TakenInTurn : List Instr → State → State → Prop
  | [], s, t => t = s
  | i :: rest, s, t => ∃ u, Taken i s u ∧ TakenInTurn rest u t

/-- A label of the sequencer: an ingress, egress or dispatcher operation, or one of their fatals (60_exceptions.md R258). The
two fatals of START are steps of the host (42_dispatch_control.md R221). -/
def isSequencer : Instr → Bool
  | .linkRead _ | .hdrFound _ | .hdrFail _ | .hdrWait _ | .payWait _ | .frameEmit _ => true
  | .coreRead _ | .depthPoll _ | .drainSleep _ | .idleGap _ | .linkWrite _ => true
  | .waitWake _ | .waitEintr | .dispatchLink | .dispatchCore | .ioRetry _ => true
  | .fatal code => code != Cause.setupFail.code && code != Cause.unsupportedBitrate.code
  | .cfgBitrate _ | .cfgFlowctl _ | .start | .reset => false
  | .envRx _ | .envTxDrain _ | .envCoreSend _ | .envCoreRecv _ | .envTick _ | .envLinkHup => false

/-- An environment label (30_encoding.md R121 family 5). -/
def isEnvironment : Instr → Bool
  | .envRx _ | .envTxDrain _ | .envCoreSend _ | .envCoreRecv _ | .envTick _ | .envLinkHup => true
  | .linkRead _ | .hdrFound _ | .hdrFail _ | .hdrWait _ | .payWait _ | .frameEmit _ => false
  | .coreRead _ | .depthPoll _ | .drainSleep _ | .idleGap _ | .linkWrite _ => false
  | .waitWake _ | .waitEintr | .dispatchLink | .dispatchCore | .ioRetry _ | .fatal _ => false
  | .cfgBitrate _ | .cfgFlowctl _ | .start | .reset => false

/-- A phase of the core handler between CORE_READ and LINK_WRITE (41_egress.md R189). -/
def Phase.isEgress : Phase → Bool
  | .poll | .sleepDrain | .gap | .write => true
  | .reset | .wait | .dispatch | .linkRead | .sync | .coreRead | .fatal => false

/-! ### The buffers -/

/-- Exactly the cells below `n` hold a value (10_state.md R33). -/
def Filled (m : Memory) (n : Nat) : Prop :=
  Memory.wf m ∧ ∀ a, (memRead m a).isSome = true ↔ a < n

/-- The window at offset `i` can be read and validates (30_encoding.md R113). -/
def ValidAt (p : Params) (s : State) (i : Nat) : Prop :=
  ∃ w, window p s.buf i = some w ∧ headerValid p w = true

/-- The window at offset `i` can be read and does not validate. -/
def InvalidAt (p : Params) (s : State) (i : Nat) : Prop :=
  ∃ w, window p s.buf i = some w ∧ headerValid p w = false

/-- Offset `i` is the least whose window validates (40_ingress.md R152). -/
def FirstHeaderAt (p : Params) (s : State) (i : Nat) : Prop :=
  i + p.H ≤ s.head ∧ ValidAt p s i ∧ ∀ j, j < i → InvalidAt p s j

/-- The header at offset 0 announces a frame of `fs` bytes (30_encoding.md R114). -/
def Announces (p : Params) (s : State) (fs : Nat) : Prop :=
  ∃ w, window p s.buf 0 = some w ∧ fs = frameSize p w

/-- A complete frame of `fs` bytes waits at offset 0 and the core channel has space: FRAME_EMIT is enabled (40_ingress.md R158). -/
def FrameReady (p : Params) (s : State) (fs : Nat) : Prop :=
  s.pc = .sync ∧ s.sync = .seekingPayload ∧ Filled s.buf s.head ∧ p.H ≤ s.head ∧
    Announces p s fs ∧ fs ≤ p.cap ∧ fs ≤ s.head ∧ s.coreOut.length < p.coreOutDepth

/-! ### The invariant of the block -/

/-- The ingress invariant at rest (40_ingress.md R144). -/
def AtRest (p : Params) (s : State) : Prop :=
  (s.sync = .seekingHeader ∧ s.head ≤ p.H - 1) ∨
  (s.sync = .seekingPayload ∧ ∃ w, window p s.buf 0 = some w ∧ headerValid p w = true ∧
    p.H ≤ s.head ∧ s.head < frameSize p w ∧ frameSize p w ≤ p.cap)

/-- What holds of the block in every reachable state. -/
structure Inv (p : Params) (s : State) : Prop where
  /-- 10_state.md R33: the cells below `head`, and no others, hold a value; the memory is in canonical form. -/
  buf_filled : Filled s.buf s.head
  /-- R34: `0 <= head <= capacity`. -/
  head_le : s.head ≤ p.cap
  /-- R38. -/
  egMsg_filled : Filled s.egMsg s.egLen
  /-- R38. -/
  egLen_le : s.egLen ≤ p.txMax
  /-- R42. -/
  idle_iff : s.run = .idle ↔ s.pc = .reset
  /-- R42. -/
  fatal_iff : s.run = .fatal ↔ s.pc = .fatal
  /-- R43: a cause is recorded exactly when the block is halted. -/
  cause_iff : s.cause ≠ .none ↔ s.run = .fatal
  /-- 42_dispatch_control.md R221: a running block has a supported rate. -/
  rate_ok : s.run = .running → rateSupported p s.bitrate = true
  /-- R41: a wake is being served exactly while a handler is or will be run. -/
  pending_dispatch : s.pc = .dispatch → s.pending.isEmpty = false
  /-- R41. -/
  pending_idle : s.pc = .wait ∨ s.pc = .reset ∨ s.pc = .fatal → s.pending.isEmpty = true
  /-- R41, R214: a handler is not pending while it runs. -/
  pending_link : s.pc = .linkRead ∨ s.pc = .sync → s.pending.link = false
  /-- R41, R215. -/
  pending_core : s.pc = .coreRead ∨ s.pc.isEgress = true → s.pending.core = false
  /-- R213: a pending source, or the one being read, is still ready. -/
  link_ready : s.pending.link = true ∨ s.pc = .linkRead → linkReady s = true
  /-- R213. -/
  core_ready : s.pending.core = true ∨ s.pc = .coreRead → coreReady s = true
  /-- R144, R162, R169. -/
  at_rest : s.run = .running → s.pc ≠ .sync → AtRest p s
  /-- R152: in the loop, a payload is sought behind a header that validated. -/
  in_loop : s.pc = .sync → s.sync = .seekingPayload → p.H ≤ s.head ∧ ValidAt p s 0
  /-- R50. -/
  rxFifo_le : s.rxFifo.length ≤ p.rxFifoDepth
  /-- R55. -/
  coreOut_le : s.coreOut.length ≤ p.coreOutDepth
  /-- 41_egress.md R180: a message in the pacer has at least one byte. -/
  egLen_pos : s.pc.isEgress = true → 1 ≤ s.egLen
  /-- R186: from the zero poll to the write the queue is empty and the gap is armed. -/
  gap_armed : s.pc = .gap ∨ s.pc = .write → s.txQueue = [] ∧ s.egSleepUs = gapUs p s.bitrate
  /-- R186: the write comes after the deadline. -/
  write_after : s.pc = .write → s.egDeadline ≤ s.nowUs

/-! ### What the history says -/

/-- A link write, as the history tells it. -/
structure LinkWrite where
  /-- The clock of the last poll that read 0, if nothing was written between it and this write. -/
  zeroPoll : Option Nat
  /-- The clock of the write. -/
  clock : Nat
  /-- How many bytes the writes before it put in the transmit queue. -/
  before : Nat
deriving DecidableEq, Repr

/-- What the events since the last START or RESET say of the two data paths, and the clock and the wire since power-on. The
bytes of each event are those of log entry 15. -/
structure Trace where
  /-- The clock: the ticks since power-on (42_dispatch_control.md R234). -/
  clock : Nat
  /-- The bytes the receiver delivered, in order; those lost on a full buffer (R230) are not among them. -/
  arrived : List Byte
  /-- How many of them the link reads took, from the first on. -/
  taken : Nat
  /-- Frames emitted, in order. -/
  emitted : List (List Byte)
  /-- Frames the core took, in order. -/
  received : List (List Byte)
  /-- Messages the core sent, in order. -/
  sent : List (List Byte)
  /-- Messages the pacer read, in order, as truncated. -/
  read : List (List Byte)
  /-- Messages written to the link, in order. -/
  written : List (List Byte)
  /-- Bytes that left the transmit queue, in order, each with its clock. -/
  departed : List (Nat × Byte)
  /-- Bytes that left the transmit queue since power-on, each with its clock. -/
  wire : List (Nat × Byte)
  /-- The clock of the last poll that read 0, if nothing was written since. -/
  zeroPoll : Option Nat
  /-- The link writes, in order. -/
  writes : List LinkWrite
deriving DecidableEq, Repr

/-- Before any event. -/
def Trace.start : Trace := ⟨0, [], 0, [], [], [], [], [], [], [], none, []⟩

/-- START and RESET empty every queue (R221, R226); the clock and the wire go on. -/
def Trace.flush (t : Trace) : Trace := { Trace.start with clock := t.clock, wire := t.wire }

/-- The first `k` bytes written and still in the transmit queue, at the current clock (R231). -/
def Trace.departing (t : Trace) (k : Nat) : List (Nat × Byte) :=
  ((t.written.flatten.drop t.departed.length).take k).map (fun b => (t.clock, b))

/-- One event more. -/
def Trace.add (p : Params) (t : Trace) (e : Event) : Trace :=
  match e.label with
  | .envTick u => { t with clock := t.clock + u }
  | .start => t.flush
  | .reset => t.flush
  | .envRx b => if t.arrived.length - t.taken < p.rxFifoDepth then { t with arrived := t.arrived ++ [b] } else t
  | .linkRead r => { t with taken := t.taken + r }
  | .frameEmit _ => { t with emitted := t.emitted ++ [e.content] }
  | .envCoreRecv _ => { t with received := t.received ++ [e.content] }
  | .envCoreSend _ => { t with sent := t.sent ++ [e.content] }
  | .coreRead _ => { t with read := t.read ++ [e.content] }
  | .depthPoll d => { t with zeroPoll := if d = 0 then some t.clock else none }
  | .linkWrite _ =>
    { t with
      written := t.written ++ [e.content]
      writes := t.writes ++ [⟨t.zeroPoll, t.clock, t.written.flatten.length⟩]
      zeroPoll := none }
  | .envTxDrain k => { t with departed := t.departed ++ t.departing k, wire := t.wire ++ t.departing k }
  | .hdrFound _ | .hdrFail _ | .hdrWait _ | .payWait _ => t
  | .drainSleep _ | .idleGap _ | .waitWake _ | .waitEintr | .dispatchLink | .dispatchCore | .ioRetry _ => t
  | .cfgBitrate _ | .cfgFlowctl _ | .fatal _ | .envLinkHup => t

/-- What a history says. -/
def traceOf (p : Params) (h : List Event) : Trace := h.foldl (Trace.add p) Trace.start

/-- The bytes appended to the buffer since START, in order: the stream `S` of 40_ingress.md R163. -/
def Trace.appended (t : Trace) : List Byte := t.arrived.take t.taken

/-- The clock, the four queues and the wire are what the history says (20_memory.md R94, R95, R96; 10_state.md R53): each queue
holds, in order, exactly what its producer added and its consumer did not yet take; a message is written to the link as it was
read, in the order sent, and its bytes leave in that order. -/
structure QueuesMatch (p : Params) (s : State) : Prop where
  clock : (traceOf p s.history).clock = s.nowUs
  rx_fifo : s.rxFifo = (traceOf p s.history).arrived.drop (traceOf p s.history).taken
  taken_le : (traceOf p s.history).taken ≤ (traceOf p s.history).arrived.length
  core_out : (traceOf p s.history).emitted = (traceOf p s.history).received ++ s.coreOut
  core_in : s.coreIn = (traceOf p s.history).sent.drop (traceOf p s.history).read.length
  read_le : (traceOf p s.history).read.length ≤ (traceOf p s.history).sent.length
  read_eq : (traceOf p s.history).read =
    ((traceOf p s.history).sent.take (traceOf p s.history).read.length).map (fun m => m.take p.txMax)
  tx_queue : (traceOf p s.history).written.flatten = (traceOf p s.history).departed.map Prod.snd ++ s.txQueue
  wire : s.wire = (traceOf p s.history).wire
  departed : ∃ older, s.wire = older ++ (traceOf p s.history).departed
  /-- Of the messages read, all are written but the one in the pacer, or the one it held when it halted. -/
  written : (s.pc.isEgress = false ∧ s.pc ≠ .fatal → (traceOf p s.history).read = (traceOf p s.history).written) ∧
    (s.pc.isEgress = true → ∃ m, memReadBytes s.egMsg 0 s.egLen = some m ∧
      (traceOf p s.history).read = (traceOf p s.history).written ++ [m]) ∧
    (s.pc = .fatal → ∃ ms, (traceOf p s.history).read = (traceOf p s.history).written ++ ms ∧ ms.length ≤ 1)

/-- Every link write since START came at least the idle gap after a poll that read 0, with no write between them; on the wire,
every byte written before it had left by that poll, and its own bytes and all later ones leave at least the gap after it
(41_egress.md R190). -/
def WritesPaced (p : Params) (s : State) : Prop :=
  ∀ w ∈ (traceOf p s.history).writes, ∃ t0, w.zeroPoll = some t0 ∧ t0 + gapUs p s.bitrate ≤ w.clock ∧
    w.before ≤ (traceOf p s.history).departed.length ∧
    ∀ (j : Nat) (e : Nat × Byte), (traceOf p s.history).departed[j]? = some e →
      (j < w.before → e.1 ≤ t0) ∧ (w.before ≤ j → t0 + gapUs p s.bitrate ≤ e.1)

/-- What carries the pacing from step to step: between the zero poll and the write, the deadline is the poll's clock and the
gap, and every byte written had left by the poll; no byte left later than now; before START nothing was written. -/
structure PacedInv (p : Params) (s : State) : Prop where
  armed : s.pc = .gap ∨ s.pc = .write →
    ∃ t0, (traceOf p s.history).zeroPoll = some t0 ∧ s.egDeadline = t0 + gapUs p s.bitrate ∧
      ∀ e ∈ (traceOf p s.history).departed, e.1 ≤ t0
  departed_le : ∀ e ∈ (traceOf p s.history).departed, e.1 ≤ s.nowUs
  writes_le : ∀ w ∈ (traceOf p s.history).writes, w.clock ≤ s.nowUs
  idle_none : s.run = .idle → (traceOf p s.history).writes = []
  paced : WritesPaced p s

/-! ### The synchronizer loop -/

/-- The label of a synchronizer choice (40_ingress.md R150). -/
def SyncChoice.label (p : Params) (s : State) : SyncChoice → Instr
  | .hdrWait => .hdrWait s.head
  | .hdrFound i => .hdrFound i
  | .hdrFail => .hdrFail (s.head - (p.H - 1))
  | .payWait => .payWait s.head
  | .oversize => .fatal Cause.oversizeFrame.code
  | .frameEmit fs => .frameEmit fs

/-- The label of the one synchronizer step of phase `P_SYNC` (R150), none elsewhere. -/
def syncLabel (p : Params) (s : State) : Option Instr :=
  if s.pc = .sync then
    match syncChoice p s with
    | .ok c => some (c.label p s)
    | .error _ => none
  else none

/-- At most `n` synchronizer steps, each the one enabled, with no other agent moving and every call's outcome `OK`. -/
def syncLoop (p : Params) : Nat → State → State
  | 0, s => s
  | n + 1, s =>
    match syncLabel p s with
    | none => s
    | some i =>
      match execAt p i s with
      | .next t => syncLoop p n t
      | .fault _ => s
      | .refused _ => s

/-- The loop is suspended: a frame is complete and the core channel is full (R157, R160). -/
def Suspended (p : Params) (s : State) : Prop :=
  s.pc = .sync ∧ (∃ fs, syncChoice p s = .ok (.frameEmit fs)) ∧ p.coreOutDepth ≤ s.coreOut.length

/-- The least offset from `i` on, among `n`, at which a window of a byte sequence validates. -/
def firstHeader (p : Params) (bs : List Byte) (i : Nat) : Nat → Option Nat
  | 0 => none
  | n + 1 => if headerValid p ((bs.drop i).take p.H) then some i else firstHeader p bs (i + 1) n

/-- What the greedy reading of a byte sequence leaves (R163). -/
structure Parsed where
  /-- The frames found, in order. -/
  frames : List (List Byte)
  /-- The synchronization state at the end. -/
  sync : SyncState
  /-- The bytes kept. -/
  rest : List Byte
  /-- A header announced a frame larger than the buffer (R156). -/
  oversize : Bool
deriving DecidableEq, Repr

/-- The greedy reading of R163 over a byte sequence alone: the next header is the first window that validates, the frame is
the bytes it announces, and reading resumes after them. `n` bounds the headers and frames read. -/
def greedy (p : Params) : Nat → SyncState → List Byte → Parsed
  | 0, q, bs => ⟨[], q, bs, false⟩
  | n + 1, .seekingHeader, bs =>
    if bs.length < p.H then ⟨[], .seekingHeader, bs, false⟩
    else
      match firstHeader p bs 0 (bs.length - p.H + 1) with
      | some i => greedy p n .seekingPayload (bs.drop i)
      | none => ⟨[], .seekingHeader, bs.drop (bs.length - (p.H - 1)), false⟩
  | n + 1, .seekingPayload, bs =>
    let fs := frameSize p (bs.take p.H)
    if p.cap < fs then ⟨[], .seekingPayload, bs, true⟩
    else if bs.length < fs then ⟨[], .seekingPayload, bs, false⟩
    else
      let r := greedy p n .seekingHeader (bs.drop fs)
      ⟨bs.take fs :: r.frames, r.sync, r.rest, r.oversize⟩

/-- Enough for a sequence of `len` bytes (R160). -/
def loopBound (p : Params) (len : Nat) : Nat := 2 * (len / p.H) + 2

/-- The block has read its link greedily (40_ingress.md R163; 20_memory.md R82, R95): the greedy reading of all bytes appended
since START gives the frames emitted so far, and then what the greedy reading of the buffer, from the current synchronization
state, gives. -/
def ReadsGreedily (p : Params) (s : State) : Prop :=
  ∃ bs, memReadBytes s.buf 0 s.head = some bs ∧
    let stream := (traceOf p s.history).appended
    let here := greedy p (loopBound p bs.length) s.sync bs
    greedy p (loopBound p stream.length) .seekingHeader stream =
      { here with frames := (traceOf p s.history).emitted ++ here.frames }

/-- At rest the frames emitted, the synchronization state and the buffer depend only on the bytes appended since START: they are
what the greedy reading of those bytes leaves (R163). -/
def StreamDeterminesRest (p : Params) (s : State) : Prop :=
  ∃ bs, memReadBytes s.buf 0 s.head = some bs ∧
    let stream := (traceOf p s.history).appended
    greedy p (loopBound p stream.length) .seekingHeader stream = ⟨(traceOf p s.history).emitted, s.sync, bs, false⟩

/-! ### Runs and fairness -/

/-- A state some run from power-on reaches, whatever moves the agents are offered (60_exceptions.md R258). -/
inductive Reachable : State → Prop where
  | powerOn (ms : List Move) : Reachable { State.reset with moves := ms }
  | step {s t : State} : Reachable s → Machine.step s = .next t → Reachable t

/-- An infinite run: at each point one label is offered, and it is taken or holds. -/
structure LabelRun where
  state : Nat → State
  label : Nat → Instr
  next : ∀ n, exec (label n) (state n) = .next (state (n + 1))

/-- The label offered at point `n` is taken there. -/
def LabelRun.takes (r : LabelRun) (n : Nat) : Prop := Taken (r.label n) (r.state n) (r.state (n + 1))

/-- An interruption or a failure that the environment may draw for a call (00_scope.md R18): `EINTR`, `ERROR`, a short count, a
failed or zero-ready wait, a failed setup. The other fatals are found by a check. -/
def isDraw : Instr → Bool
  | .ioRetry _ | .waitEintr => true
  | .fatal code =>
    [Cause.setupFail, .waitFailure, .waitZeroReady, .linkReadError, .coreWriteError, .coreShortWrite, .coreReadError,
      .depthPollError, .linkWriteError, .linkShortWrite].any (fun c => c.code == code)
  | .linkRead _ | .hdrFound _ | .hdrFail _ | .hdrWait _ | .payWait _ | .frameEmit _ => false
  | .coreRead _ | .depthPoll _ | .drainSleep _ | .idleGap _ | .linkWrite _ => false
  | .waitWake _ | .dispatchLink | .dispatchCore => false
  | .cfgBitrate _ | .cfgFlowctl _ | .start | .reset => false
  | .envRx _ | .envTxDrain _ | .envCoreSend _ | .envCoreRecv _ | .envTick _ | .envLinkHup => false

/-- The label answers the call that `retry` retried: another label of the sequencer, or a RESET, which ends the run. -/
def answersRetry (retry i : Instr) : Prop := i ≠ retry ∧ (isSequencer i = true ∨ i = .reset)

/-- The fairness assumptions, on which only progress claims rest (70_reset_and_hazards.md R290). How the model reads "every
enabled step of the sequencer" and an interrupted wait with no source ready is log entry 19. -/
structure Fair (r : LabelRun) : Prop where
  /-- The clock advances without bound. -/
  clock : ∀ t, ∃ n, t ≤ (r.state n).nowUs
  /-- With `HWFC = 0` the transmitter eventually drains a non-empty queue. -/
  drains : ∀ n, (∀ m, n ≤ m → (r.state m).hwfc = false ∧ (r.state m).txQueue ≠ []) →
    ∃ m, n ≤ m ∧ r.takes m ∧ ∃ k, r.label m = .envTxDrain k
  /-- The core eventually takes frames. -/
  receives : ∀ n, (∀ m, n ≤ m → (r.state m).coreOut ≠ []) →
    ∃ m, n ≤ m ∧ r.takes m ∧ ∃ k, r.label m = .envCoreRecv k
  /-- A call retried after `EINTR` eventually returns another outcome (42_dispatch_control.md R216). -/
  retries : ∀ n op, r.takes n → r.label n = .ioRetry op →
    ∃ m, n < m ∧ r.takes m ∧ answersRetry (.ioRetry op) (r.label m)
  /-- So does the wait (R211), unless it is in the end left alone: with no source ready it returns nothing. -/
  rewaits : ∀ n, r.takes n → r.label n = .waitEintr →
    ∃ m, n < m ∧ (r.takes m ∧ answersRetry .waitEintr (r.label m) ∨ ∀ k, m ≤ k → ¬ (r.takes k ∧ r.label k = .waitEintr))
  /-- An operation of the sequencer that stays enabled is eventually taken. Of a call this is the outcome `OK`, which a claim of
  progress assumes to come (R216), unless another outcome is drawn before. -/
  sequencer : ∀ op n,
    (∀ m, n ≤ m → ∃ i t, i.opcode = op ∧ isSequencer i = true ∧ isDraw i = false ∧ Taken i (r.state m) t) →
    ∃ m, n ≤ m ∧ r.takes m ∧ (r.label m).opcode = op ∧ isSequencer (r.label m) = true ∧ isDraw (r.label m) = false

end Sys2Proof.Machine
end

