-- ==== Sys2Proof/Certificates/Slice0/Obligations.lean ====
section
/-! DEFINITION. The statements for the provers. Each is about `exec` or `step` at the machine's parameters, which are opaque:
it holds for every value of them. Where a premise is about header bytes, of whose validity nothing is assumed (00_scope.md
R12), the statement ranges over all parameters `p` (92_eei_decisions.md D2): it is about the label's meaning at `p`, and at
`p = Config.params` about `exec`. A statement about a label says when it is enabled, what its step gives, everything it leaves
unchanged, and that elsewhere it holds. Premises: `Filled s.buf s.head` and `Inv` are invariants of the machine
(`PowerOnMeetsTheInvariants`, `StepKeepsTheBlockInvariant`). -/

open Sys2Proof Sys2Proof.Machine

/-! ### Encoding (30_encoding.md) -/

/-- Encoding a label and decoding its record gives the label back, whatever its arguments (R119, R120, R122). -/
def Obligations.LabelRecordRoundTrip : Prop :=
  ∀ (i : Instr) (n : Nat), decode (encode i) n = .ok i

/-- A bare word gives its label back when the word fixes the argument (below `0xFFFFFF`) and the label carries no content
(R119, R120, R122). -/
def Obligations.BareWordRoundTrip : Prop :=
  ∀ (i : Instr) (n : Nat), i.fullArg < 0xFFFFFF → i.operandContent = none →
    decode (bareRecord (encodeWord i)) n = .ok i

/-- The words decoding accepts are exactly those of the opcode table's rows; every other is reserved (R124). -/
def Obligations.AcceptedWordsAreTableRows : Prop :=
  ∀ (w : Word32) (n : Nat),
    (∃ i, decode (bareRecord w) n = .ok i) ↔ ∃ op : Opcode, w &&& op.rowMask = op.rowMatch

/-- The three verdicts of decoding a word, that a valid one is the word of its label, and that the machine refuses an invalid
one (R123). At `ARG = 0xFFFFFF` the word does not fix the argument (R120): it is 0xFFFFFF or more. -/
def Obligations.DecodeVerdicts : Prop :=
  ∀ (w : Word32) (n : Nat),
    ((∀ op : Opcode, op.code ≠ opcOf w) → decode (bareRecord w) n = .error .reservedOpcode) ∧
    (∀ op : Opcode, op.code = opcOf w → argOf w &&& op.zeroBits ≠ 0 →
      decode (bareRecord w) n = .error .reservedArgBits) ∧
    (∀ op : Opcode, op.code = opcOf w → argOf w &&& op.zeroBits = 0 →
      ∃ i, decode (bareRecord w) n = .ok i ∧ i.opcode = op ∧ encodeWord i = w ∧
        (argOf w ≠ 0xFFFFFF → i.fullArg = (argOf w).toNat) ∧
        (argOf w = 0xFFFFFF → 0xFFFFFF ≤ i.fullArg)) ∧
    (∀ (s : State) (rest : List Move), s.moves = .label (bareRecord w) :: rest → s.freeCount = n →
      ((∀ op : Opcode, op.code ≠ opcOf w) → step s = .refused (.invalidLabel .reservedOpcode)) ∧
      (∀ op : Opcode, op.code = opcOf w → argOf w &&& op.zeroBits ≠ 0 →
        step s = .refused (.invalidLabel .reservedArgBits)))

/-- Words written out in 95_test_vectors.md section 5 decode to their labels, or are refused. -/
def Obligations.WrittenOutWordsDecode : Prop :=
  decode (bareRecord 0x10000009) 0 = .ok (.linkRead 9) ∧
  decode (bareRecord 0x2300056C) 0 = .ok (.idleGap 1388) ∧
  decode (bareRecord 0x30000003) 0 = .ok (.waitWake 3) ∧
  decode (bareRecord 0x34000010) 0 = .ok (.ioRetry 0x10) ∧
  decode (bareRecord 0x4001C200) 0 = .ok (.cfgBitrate 115200) ∧
  decode (bareRecord 0x4300000A) 0 = .ok (.fatal 0x0A) ∧
  decode (bareRecord 0x500000A5) 0 = .ok (.envRx 0xA5) ∧
  decode (bareRecord 0x30000004) 0 = .error .reservedArgBits ∧
  decode (bareRecord 0x32000001) 0 = .error .reservedArgBits ∧
  decode (bareRecord 0x16000000) 0 = .error .reservedOpcode

/-! ### One step -/

/-- A step runs the label the next record decodes to, with the record taken off and the free-value index advanced; an
invalid record is refused (R123); with no move offered nothing changes (log entry 1). -/
def Obligations.StepRunsTheDecodedLabel : Prop :=
  (∀ (s : State) (r : LabelRecord) (rest : List Move) (i : Instr), s.moves = .label r :: rest →
    decode r s.freeCount = .ok i →
    step s = exec i { s with moves := rest, freeCount := s.freeCount + 1 }) ∧
  (∀ (s : State) (r : LabelRecord) (rest : List Move) (e : Reject), s.moves = .label r :: rest →
    decode r s.freeCount = .error e → step s = .refused (.invalidLabel e)) ∧
  (∀ s : State, s.moves = [] → step s = .next s)

/-- The machine's labels are the meanings of `execAt` at its parameters, which the statements about all parameters speak of. -/
def Obligations.ExecIsTheMeaningAtTheParameters : Prop :=
  ∀ (i : Instr) (s : State), exec i s = execAt Config.params i s

/-- A label whose argument no rule's step can have (`Instr.wellFormed`) is enabled in no state: it holds, or its condition
meets the model fault (R119; log entry 2). -/
def Obligations.IllFormedLabelsAreNeverTaken : Prop :=
  ∀ (i : Instr) (s t : State), i.wellFormed = false → ¬ Taken i s t

/-- A label's answer is a step recorded in the history, once and with its label, or no change at all (R120, R17; log entry 2). -/
def Obligations.HistoryRecordsTheLabelTaken : Prop :=
  ∀ (i : Instr) (s t : State), exec i s = .next t →
    t = s ∨ ∃ content, t.history = s.history ++ [⟨i, content⟩]

/-! ### Ingress (40_ingress.md) -/

/-- LINK_READ (R146, R145, R248): its check order, and its outcomes `OK(r)`, `EINTR` and `ERROR`. -/
def Obligations.LinkReadOutcomes : Prop :=
  ∀ s : State,
    -- in no other phase
    (s.pc ≠ .linkRead →
      (∀ r, HoldsIn (.linkRead r) s) ∧ HoldsIn (.fatal Cause.linkReadableZero.code) s ∧
      HoldsIn (.fatal Cause.feedOverflow.code) s ∧
      (Filled s.buf s.head → HoldsIn (.fatal Cause.linkReadError.code) s)) ∧
    -- readable with no bytes
    (s.pc = .linkRead → s.rxFifo = [] →
      exec (.fatal Cause.linkReadableZero.code) s = .next (raiseFatal .linkReadableZero s) ∧
      (∀ r, HoldsIn (.linkRead r) s) ∧ HoldsIn (.fatal Cause.feedOverflow.code) s ∧
      HoldsIn (.ioRetry Opcode.linkRead.code) s ∧ HoldsIn (.fatal Cause.linkReadError.code) s) ∧
    -- no space
    (s.pc = .linkRead → s.rxFifo ≠ [] → Config.params.cap ≤ s.head →
      exec (.fatal Cause.feedOverflow.code) s = .next (raiseFatal .feedOverflow s) ∧
      (∀ r, HoldsIn (.linkRead r) s) ∧ HoldsIn (.fatal Cause.linkReadableZero.code) s ∧
      HoldsIn (.ioRetry Opcode.linkRead.code) s ∧ HoldsIn (.fatal Cause.linkReadError.code) s) ∧
    -- the read
    (s.pc = .linkRead → s.rxFifo ≠ [] → s.head < Config.params.cap →
      (∀ r, 1 ≤ r → r ≤ min s.rxFifo.length (Config.params.cap - s.head) →
        ∃ t, exec (.linkRead r) s = .next t ∧
          t = { s with
            buf := t.buf, head := s.head + r, rxFifo := s.rxFifo.drop r, pc := .sync
            history := s.history ++ [⟨.linkRead r, []⟩] } ∧
          (∀ j, j < r → memRead t.buf (s.head + j) = s.rxFifo[j]?) ∧
          (∀ a, a < s.head ∨ s.head + r ≤ a → memRead t.buf a = memRead s.buf a)) ∧
      (∀ r, ¬ (1 ≤ r ∧ r ≤ min s.rxFifo.length (Config.params.cap - s.head)) → HoldsIn (.linkRead r) s) ∧
      exec (.ioRetry Opcode.linkRead.code) s =
        .next { s with history := s.history ++ [⟨.ioRetry Opcode.linkRead.code, []⟩] } ∧
      exec (.fatal Cause.linkReadError.code) s = .next (raiseFatal .linkReadError s) ∧
      HoldsIn (.fatal Cause.linkReadableZero.code) s ∧ HoldsIn (.fatal Cause.feedOverflow.code) s)

/-- HDR_FOUND i (R152): enabled exactly where `i` is the least offset whose window validates; the bytes before it are
discarded, the rest move to offset 0. -/
def Obligations.HdrFoundCompactsToTheFirstHeader : Prop :=
  ∀ (p : Params) (i : Nat) (s : State), Filled s.buf s.head →
    (s.pc = .sync → s.sync = .seekingHeader → p.H ≤ s.head → FirstHeaderAt p s i →
      ∃ t, execAt p (.hdrFound i) s = .next t ∧ (p = Config.params → exec (.hdrFound i) s = .next t) ∧
        t = { s with
          buf := t.buf, head := s.head - i, sync := .seekingPayload
          history := s.history ++ [⟨.hdrFound i, []⟩] } ∧
        (∀ a, a < s.head - i → memRead t.buf a = memRead s.buf (a + i)) ∧
        (∀ a, s.head - i ≤ a → memRead t.buf a = none) ∧
        (i = 0 → t.buf = s.buf)) ∧
    (¬ (s.pc = .sync ∧ s.sync = .seekingHeader ∧ p.H ≤ s.head ∧ FirstHeaderAt p s i) →
      execAt p (.hdrFound i) s = .next s ∧ (p = Config.params → HoldsIn (.hdrFound i) s))

/-- HDR_FAIL n (R153): enabled exactly where no window validates; the last `H - 1` bytes are kept, and the handler
completes (R217). -/
def Obligations.HdrFailKeepsTheLastBytes : Prop :=
  ∀ (p : Params) (n : Nat) (s : State), 1 ≤ p.H → Filled s.buf s.head →
    (s.pc = .sync → s.sync = .seekingHeader → p.H ≤ s.head →
      (∀ i, i + p.H ≤ s.head → InvalidAt p s i) → n = s.head - (p.H - 1) →
      1 ≤ n ∧ ∃ t, execAt p (.hdrFail n) s = .next t ∧ (p = Config.params → exec (.hdrFail n) s = .next t) ∧
        t = { s with
          buf := t.buf, head := p.H - 1
          pc := if s.pending = ⟨false, false⟩ then .wait else .dispatch
          history := s.history ++ [⟨.hdrFail n, []⟩] } ∧
        (∀ a, a < p.H - 1 → memRead t.buf a = memRead s.buf (a + n)) ∧
        (∀ a, p.H - 1 ≤ a → memRead t.buf a = none)) ∧
    (¬ (s.pc = .sync ∧ s.sync = .seekingHeader ∧ p.H ≤ s.head ∧
        (∀ i, i + p.H ≤ s.head → InvalidAt p s i) ∧ n = s.head - (p.H - 1)) →
      execAt p (.hdrFail n) s = .next s ∧ (p = Config.params → HoldsIn (.hdrFail n) s))

/-- HDR_WAIT h (R154): enabled exactly with fewer than `H` bytes; only the phase changes (R217). -/
def Obligations.HdrWaitCompletesTheHandler : Prop :=
  ∀ (h : Nat) (s : State), Filled s.buf s.head →
    (s.pc = .sync → s.sync = .seekingHeader → s.head < Config.params.H → h = s.head →
      exec (.hdrWait h) s = .next
        { s with
          pc := if s.pending = ⟨false, false⟩ then .wait else .dispatch
          history := s.history ++ [⟨.hdrWait h, []⟩] }) ∧
    (¬ (s.pc = .sync ∧ s.sync = .seekingHeader ∧ s.head < Config.params.H ∧ h = s.head) → HoldsIn (.hdrWait h) s)

/-- PAY_WAIT h (R155): enabled exactly with a frame that fits and is not complete, or with fewer than `H` bytes; only the
phase changes (R217). -/
def Obligations.PayWaitCompletesTheHandler : Prop :=
  ∀ (p : Params) (h : Nat) (s : State), Filled s.buf s.head →
    (s.pc = .sync → s.sync = .seekingPayload → h = s.head →
      (s.head < p.H ∨ ∃ fs, Announces p s fs ∧ p.H ≤ s.head ∧ fs ≤ p.cap ∧ s.head < fs) →
      ∃ t, execAt p (.payWait h) s = .next t ∧ (p = Config.params → exec (.payWait h) s = .next t) ∧
        t = { s with
          pc := if s.pending = ⟨false, false⟩ then .wait else .dispatch
          history := s.history ++ [⟨.payWait h, []⟩] }) ∧
    (¬ (s.pc = .sync ∧ s.sync = .seekingPayload ∧ h = s.head ∧
        (s.head < p.H ∨ ∃ fs, Announces p s fs ∧ p.H ≤ s.head ∧ fs ≤ p.cap ∧ s.head < fs)) →
      execAt p (.payWait h) s = .next s ∧ (p = Config.params → HoldsIn (.payWait h) s))

/-- The oversize outcome of the payload step (R156): FATAL OVERSIZE_FRAME is enabled exactly behind a header whose frame
exceeds `CAP`. -/
def Obligations.OversizeHeaderHalts : Prop :=
  ∀ (p : Params) (s : State), Filled s.buf s.head →
    let code := Cause.oversizeFrame.code
    (s.pc = .sync → s.sync = .seekingPayload → p.H ≤ s.head → (∃ fs, Announces p s fs ∧ p.cap < fs) →
      execAt p (.fatal code) s = .next (raiseFatal .oversizeFrame s) ∧
        (p = Config.params → exec (.fatal code) s = .next (raiseFatal .oversizeFrame s))) ∧
    (¬ (s.pc = .sync ∧ s.sync = .seekingPayload ∧ p.H ≤ s.head ∧ ∃ fs, Announces p s fs ∧ p.cap < fs) →
      execAt p (.fatal code) s = .next s ∧ (p = Config.params → HoldsIn (.fatal code) s))

/-- FRAME_EMIT fs (R158, R157). Outcome `OK`: the frame, in order, joins `core_out`, and the rest moves to offset 0; `EINTR`
changes nothing and retries; `ERROR` and a short write halt with nothing emitted or compacted (R251). It is enabled exactly
where `FrameReady` says, so with the core channel full it holds. Two clauses are the model's inferences: that the event holds the
frame's bytes (of R120; log entry 15), and that FATAL CORE_WRITE_ERROR and CORE_SHORT_WRITE hold where no call is made, the full
channel included (log entry 9). -/
def Obligations.FrameEmitOutcomes : Prop :=
  ∀ (p : Params) (fs : Nat) (s : State), Filled s.buf s.head →
    let op := Opcode.frameEmit.code
    let retried := { s with history := s.history ++ [⟨.ioRetry op, []⟩] }
    (FrameReady p s fs →
      (∃ t frame, execAt p (.frameEmit fs) s = .next t ∧ (p = Config.params → exec (.frameEmit fs) s = .next t) ∧
        t = { s with
          buf := t.buf, head := s.head - fs, coreOut := s.coreOut ++ [frame], sync := .seekingHeader
          history := s.history ++ [⟨.frameEmit fs, frame⟩] } ∧
        frame.length = fs ∧ (∀ j, j < fs → memRead s.buf j = frame[j]?) ∧
        (∀ a, a < s.head - fs → memRead t.buf a = memRead s.buf (a + fs)) ∧
        (∀ a, s.head - fs ≤ a → memRead t.buf a = none)) ∧
      execAt p (.ioRetry op) s = .next retried ∧
      execAt p (.fatal Cause.coreWriteError.code) s = .next (raiseFatal .coreWriteError s) ∧
      execAt p (.fatal Cause.coreShortWrite.code) s = .next (raiseFatal .coreShortWrite s) ∧
      (p = Config.params →
        exec (.ioRetry op) s = .next retried ∧
        exec (.fatal Cause.coreWriteError.code) s = .next (raiseFatal .coreWriteError s) ∧
        exec (.fatal Cause.coreShortWrite.code) s = .next (raiseFatal .coreShortWrite s))) ∧
    (¬ FrameReady p s fs → execAt p (.frameEmit fs) s = .next s ∧ (p = Config.params → HoldsIn (.frameEmit fs) s)) ∧
    ((∀ n, ¬ FrameReady p s n) →
      execAt p (.fatal Cause.coreWriteError.code) s = .next s ∧ execAt p (.fatal Cause.coreShortWrite.code) s = .next s ∧
        (p = Config.params →
          HoldsIn (.fatal Cause.coreWriteError.code) s ∧ HoldsIn (.fatal Cause.coreShortWrite.code) s))

/-- In `P_SYNC` exactly one synchronizer label is enabled, the one of `syncLabel`, unless a complete frame waits for
core-channel space (R150, R157). -/
def Obligations.ExactlyOneSynchronizerStep : Prop :=
  ∀ s : State, Filled s.buf s.head → s.pc = .sync →
    ∃ i, syncLabel Config.params s = some i ∧
      (Suspended Config.params s ∨ ∃ t, Taken i s t) ∧
      ∀ (j : Instr) (t : State),
        ((∃ k, j = .hdrFound k) ∨ (∃ k, j = .hdrFail k) ∨ (∃ k, j = .hdrWait k) ∨ (∃ k, j = .payWait k) ∨
          (∃ k, j = .frameEmit k) ∨ j = .fatal Cause.oversizeFrame.code) →
        Taken j s t → j = i

/-- From any entry the loop ends within `2 * floor(head / H) + 2` steps, in another phase, or suspended by a full core
channel (R160). -/
def Obligations.SynchronizerLoopTerminates : Prop :=
  ∀ (p : Params) (s : State), p.Valid → Inv p s → s.pc = .sync →
    let t := syncLoop p (loopBound p s.head) s
    t.pc ≠ .sync ∨ Suspended p t

/-- The loop over the buffer is the greedy reading of its bytes (R163): where it ends unsuspended and unhalted, the frames
added to `core_out`, the synchronization state and the bytes kept are those of `greedy`, which knows nothing of the machine. -/
def Obligations.SynchronizerRefinesGreedyReading : Prop :=
  ∀ (p : Params) (s : State) (bs : List Byte), p.Valid → Inv p s → s.pc = .sync → memReadBytes s.buf 0 s.head = some bs →
    let t := syncLoop p (loopBound p s.head) s
    let g := greedy p (loopBound p s.head) s.sync bs
    ¬ Suspended p t → t.pc ≠ .fatal →
      g.oversize = false ∧ t.coreOut = s.coreOut ++ g.frames ∧ t.sync = g.sync ∧
        t.head = g.rest.length ∧ memReadBytes t.buf 0 t.head = some g.rest

/-- Chunking independence (R163): the link handler given a chunk in one read, or in two reads with the loop run after each,
leaves the same frames in `core_out`, the same synchronization state and the same buffer. -/
def Obligations.ChunkingIndependence : Prop :=
  ∀ (p : Params) (s : State) (a b : List Byte), p.Valid → Inv p s → s.pc = .linkRead → a ≠ [] → b ≠ [] →
    s.head + a.length + b.length ≤ p.cap →
    let loop := syncLoop p (loopBound p p.cap)
    let feed := fun (u : State) (chunk : List Byte) =>
      loop { u with buf := memWriteBytes u.buf u.head chunk, head := u.head + chunk.length, pc := .sync }
    let whole := feed s (a ++ b)
    let first := feed s a
    let both := feed first b
    ¬ Suspended p first → first.pc ≠ .fatal → ¬ Suspended p both → both.pc ≠ .fatal →
    ¬ Suspended p whole → whole.pc ≠ .fatal →
      whole.coreOut = both.coreOut ∧ whole.sync = both.sync ∧ whole.head = both.head ∧ whole.buf = both.buf

/-- At every LINK_READ at least one byte of space is left, and at most `H - 1` bytes wait while a header is sought: a read
never overflows (R162, R169). -/
def Obligations.LinkReadNeverOverflows : Prop :=
  ∀ s : State, Inv Config.params s → s.pc = .linkRead →
    1 ≤ Config.params.cap - s.head ∧ (s.sync = .seekingHeader → s.head ≤ Config.params.H - 1) ∧
      HoldsIn (.fatal Cause.feedOverflow.code) s

/-! ### Egress (41_egress.md) -/

/-- CORE_READ L (R180): `OK` with a non-empty message, its first `TX_MAX` bytes loaded and the rest lost; `OK` with an empty
one is CORE_CLOSED, `core_in` unchanged; `EINTR` and `ERROR`. Two clauses are the model's reading: that the history holds the
bytes loaded (of R120; log entry 15), and that the cells of `eg_msg` from the new `eg_len` on hold no value afterwards (of
10_state.md R38, where R180 writes the cells below it only; log entry 6). -/
def Obligations.CoreReadOutcomes : Prop :=
  ∀ s : State,
    (s.pc = .coreRead →
      (∀ m rest, s.coreIn = m :: rest → m ≠ [] → Memory.wf s.egMsg →
        (∃ t, exec (.coreRead (min m.length Config.params.txMax)) s = .next t ∧
          t = { s with
            coreIn := rest, egMsg := t.egMsg, egLen := min m.length Config.params.txMax, pc := .poll
            history := s.history ++
              [⟨.coreRead (min m.length Config.params.txMax), m.take Config.params.txMax⟩] } ∧
          (∀ a, a < min m.length Config.params.txMax → memRead t.egMsg a = m[a]?) ∧
          (∀ a, min m.length Config.params.txMax ≤ a → memRead t.egMsg a = none)) ∧
        HoldsIn (.fatal Cause.coreClosed.code) s) ∧
      (∀ m rest len, s.coreIn = m :: rest → (m = [] ∨ len ≠ min m.length Config.params.txMax) →
        HoldsIn (.coreRead len) s) ∧
      (∀ rest, s.coreIn = [] :: rest → exec (.fatal Cause.coreClosed.code) s = .next (raiseFatal .coreClosed s)) ∧
      exec (.ioRetry Opcode.coreRead.code) s =
        .next { s with history := s.history ++ [⟨.ioRetry Opcode.coreRead.code, []⟩] } ∧
      exec (.fatal Cause.coreReadError.code) s = .next (raiseFatal .coreReadError s)) ∧
    (s.pc ≠ .coreRead →
      (∀ len, HoldsIn (.coreRead len) s) ∧ HoldsIn (.fatal Cause.coreClosed.code) s ∧
      (Filled s.buf s.head → HoldsIn (.fatal Cause.coreReadError.code) s))

/-- The pacing durations (R181): exact products, rounded down, and a rate of at least 1 after START. -/
def Obligations.PacingDurations : Prop :=
  (∀ (d : Nat) (rate : Word32), 1 ≤ rate.toNat →
    drainUs Config.params d rate = d * 8 * 1000000 / rate.toNat ∧
    gapUs Config.params rate = 20 * 8 * 1000000 / rate.toNat) ∧
  ∀ s t : State, Taken .start s t → 1 ≤ t.bitrate.toNat

/-- DEPTH_POLL d (R182): the depth is the transmit queue's length, and the timer is armed with the drain time, or at depth
0 with the idle gap; `EINTR` and `ERROR`. -/
def Obligations.DepthPollOutcomes : Prop :=
  ∀ s : State,
    (s.pc = .poll → s.txQueue ≠ [] →
      exec (.depthPoll s.txQueue.length) s = .next
        { s with
          egSleepUs := drainUs Config.params s.txQueue.length s.bitrate
          egDeadline := s.nowUs + drainUs Config.params s.txQueue.length s.bitrate
          pc := .sleepDrain
          history := s.history ++ [⟨.depthPoll s.txQueue.length, []⟩] }) ∧
    (s.pc = .poll → s.txQueue = [] →
      exec (.depthPoll 0) s = .next
        { s with
          egSleepUs := gapUs Config.params s.bitrate
          egDeadline := s.nowUs + gapUs Config.params s.bitrate
          pc := .gap
          history := s.history ++ [⟨.depthPoll 0, []⟩] }) ∧
    (∀ d, ¬ (s.pc = .poll ∧ d = s.txQueue.length) → HoldsIn (.depthPoll d) s) ∧
    (s.pc = .poll →
      exec (.ioRetry Opcode.depthPoll.code) s =
        .next { s with history := s.history ++ [⟨.ioRetry Opcode.depthPoll.code, []⟩] } ∧
      exec (.fatal Cause.depthPollError.code) s = .next (raiseFatal .depthPollError s)) ∧
    (s.pc ≠ .poll → Filled s.buf s.head → HoldsIn (.fatal Cause.depthPollError.code) s)

/-- DRAIN_SLEEP s (R184): from the deadline on and at any later time, back to the poll; before it, the label holds (R183). -/
def Obligations.DrainSleepEndsAtTheDeadline : Prop :=
  ∀ (us : Nat) (s : State),
    (s.pc = .sleepDrain → s.egDeadline ≤ s.nowUs → us = s.egSleepUs →
      exec (.drainSleep us) s = .next { s with pc := .poll, history := s.history ++ [⟨.drainSleep us, []⟩] }) ∧
    (¬ (s.pc = .sleepDrain ∧ s.egDeadline ≤ s.nowUs ∧ us = s.egSleepUs) → HoldsIn (.drainSleep us) s)

/-- IDLE_GAP s (R186): from the deadline on and at any later time, on to the write; before it, the label holds (R183). -/
def Obligations.IdleGapEndsAtTheDeadline : Prop :=
  ∀ (us : Nat) (s : State),
    (s.pc = .gap → s.egDeadline ≤ s.nowUs → us = s.egSleepUs →
      exec (.idleGap us) s = .next { s with pc := .write, history := s.history ++ [⟨.idleGap us, []⟩] }) ∧
    (¬ (s.pc = .gap ∧ s.egDeadline ≤ s.nowUs ∧ us = s.egSleepUs) → HoldsIn (.idleGap us) s)

/-- LINK_WRITE L (R188): the message's bytes, in order, join the transmit queue and the handler completes (R217); `EINTR`,
`ERROR` and a short write append nothing. Two clauses are the model's inferences: that the event holds the bytes written (of R120;
log entry 15), and that a short write needs a message of at least one byte (log entry 10). -/
def Obligations.LinkWriteOutcomes : Prop :=
  ∀ s : State, Filled s.egMsg s.egLen →
    (s.pc = .write →
      ∃ bytes, bytes.length = s.egLen ∧ (∀ j, j < s.egLen → memRead s.egMsg j = bytes[j]?) ∧
        exec (.linkWrite s.egLen) s = .next
          { s with
            txQueue := s.txQueue ++ bytes
            pc := if s.pending = ⟨false, false⟩ then .wait else .dispatch
            history := s.history ++ [⟨.linkWrite s.egLen, bytes⟩] }) ∧
    (∀ len, ¬ (s.pc = .write ∧ len = s.egLen) → HoldsIn (.linkWrite len) s) ∧
    (s.pc = .write →
      exec (.ioRetry Opcode.linkWrite.code) s =
        .next { s with history := s.history ++ [⟨.ioRetry Opcode.linkWrite.code, []⟩] } ∧
      exec (.fatal Cause.linkWriteError.code) s = .next (raiseFatal .linkWriteError s) ∧
      (1 ≤ s.egLen → exec (.fatal Cause.linkShortWrite.code) s = .next (raiseFatal .linkShortWrite s))) ∧
    (¬ (s.pc = .write ∧ 1 ≤ s.egLen) → HoldsIn (.fatal Cause.linkShortWrite.code) s) ∧
    (s.pc ≠ .write → Filled s.buf s.head → HoldsIn (.fatal Cause.linkWriteError.code) s)

/-- While the core handler works, no step of the sequencer reads the link, emits a frame, or touches the synchronizer's
state (R193, 20_memory.md R98). -/
def Obligations.IngressStallsWhileThePacerWorks : Prop :=
  ∀ (i : Instr) (s t : State), (s.pc = .coreRead ∨ s.pc.isEgress = true) → isSequencer i = true →
    exec i s = .next t →
      t.rxFifo = s.rxFifo ∧ t.coreOut = s.coreOut ∧ t.buf = s.buf ∧ t.head = s.head ∧ t.sync = s.sync

/-! ### Dispatcher (42_dispatch_control.md) -/

/-- WAIT_WAKE mask (R210, 60_exceptions.md R245): bit 0 is link-readable, bit 1 core-readable; the wake samples both. -/
def Obligations.WaitWakeSamplesReadiness : Prop :=
  ∀ (mask : BitVec 2) (s : State),
    (s.pc = .wait → mask ≠ 0 →
      (mask.getLsbD 0 = true ↔ (s.rxFifo ≠ [] ∨ s.linkHup = true)) → (mask.getLsbD 1 = true ↔ s.coreIn ≠ []) →
      exec (.waitWake mask) s = .next
        { s with
          pending := ⟨mask.getLsbD 0, mask.getLsbD 1⟩, pc := .dispatch
          history := s.history ++ [⟨.waitWake mask, []⟩] }) ∧
    (¬ (s.pc = .wait ∧ mask ≠ 0 ∧ (mask.getLsbD 0 = true ↔ (s.rxFifo ≠ [] ∨ s.linkHup = true)) ∧
        (mask.getLsbD 1 = true ↔ s.coreIn ≠ [])) →
      HoldsIn (.waitWake mask) s)

/-- WAIT_EINTR changes nothing and the wait is re-entered (R211); a failed wait and a zero-ready wake halt (R212). -/
def Obligations.WaitOutcomes : Prop :=
  ∀ s : State,
    (s.pc = .wait →
      exec .waitEintr s = .next { s with history := s.history ++ [⟨.waitEintr, []⟩] } ∧
      exec (.fatal Cause.waitZeroReady.code) s = .next (raiseFatal .waitZeroReady s) ∧
      exec (.fatal Cause.waitFailure.code) s = .next (raiseFatal .waitFailure s)) ∧
    (s.pc ≠ .wait →
      HoldsIn .waitEintr s ∧ HoldsIn (.fatal Cause.waitZeroReady.code) s ∧ HoldsIn (.fatal Cause.waitFailure.code) s)

/-- DISPATCH_LINK and DISPATCH_CORE (R214, R215): each runs its pending handler; with both pending either order is admitted,
unless `DISPATCH_ORDER` fixes one. -/
def Obligations.DispatchRunsAPendingHandler : Prop :=
  ∀ s : State,
    (s.pc = .dispatch → s.pending.link = true →
      ¬ (Config.params.dispatchOrder = .coreFirst ∧ s.pending.core = true) →
      exec .dispatchLink s = .next
        { s with
          pending := ⟨false, s.pending.core⟩, pc := .linkRead
          history := s.history ++ [⟨.dispatchLink, []⟩] }) ∧
    (¬ (s.pc = .dispatch ∧ s.pending.link = true ∧
        ¬ (Config.params.dispatchOrder = .coreFirst ∧ s.pending.core = true)) → HoldsIn .dispatchLink s) ∧
    (s.pc = .dispatch → s.pending.core = true →
      ¬ (Config.params.dispatchOrder = .linkFirst ∧ s.pending.link = true) →
      exec .dispatchCore s = .next
        { s with
          pending := ⟨s.pending.link, false⟩, pc := .coreRead
          history := s.history ++ [⟨.dispatchCore, []⟩] }) ∧
    (¬ (s.pc = .dispatch ∧ s.pending.core = true ∧
        ¬ (Config.params.dispatchOrder = .linkFirst ∧ s.pending.link = true)) → HoldsIn .dispatchCore s)

/-- IO_RETRY op (R216): it changes no state, and is enabled only for the call the phase's operation makes, past the checks that
come before the call (log entry 9). -/
def Obligations.IoRetryChangesNothing : Prop :=
  ∀ (op : Byte) (s : State), Filled s.buf s.head →
    (((s.pc = .linkRead ∧ op = 0x10 ∧ s.rxFifo ≠ [] ∧ s.head < Config.params.cap) ∨
      (op = 0x15 ∧ ∃ fs, FrameReady Config.params s fs) ∨ (s.pc = .coreRead ∧ op = 0x20) ∨
      (s.pc = .poll ∧ op = 0x21) ∨ (s.pc = .write ∧ op = 0x24)) →
      exec (.ioRetry op) s = .next { s with history := s.history ++ [⟨.ioRetry op, []⟩] }) ∧
    (¬ ((s.pc = .linkRead ∧ op = 0x10 ∧ s.rxFifo ≠ [] ∧ s.head < Config.params.cap) ∨
      (op = 0x15 ∧ ∃ fs, FrameReady Config.params s fs) ∨ (s.pc = .coreRead ∧ op = 0x20) ∨
      (s.pc = .poll ∧ op = 0x21) ∨ (s.pc = .write ∧ op = 0x24)) → HoldsIn (.ioRetry op) s)

/-! ### Control and the fatal conditions (42_dispatch_control.md, 60_exceptions.md) -/

/-- CFG_BITRATE v and CFG_FLOWCTL f (R219, R220): always enabled; the register is written while `run = IDLE`, and otherwise
only the label is recorded. -/
def Obligations.ConfigurationWrites : Prop :=
  ∀ (v : Word32) (f : Bool) (s : State),
    (s.run = .idle →
      exec (.cfgBitrate v) s = .next { s with bitrate := v, history := s.history ++ [⟨.cfgBitrate v, []⟩] } ∧
      exec (.cfgFlowctl f) s = .next { s with hwfc := f, history := s.history ++ [⟨.cfgFlowctl f, []⟩] }) ∧
    (s.run ≠ .idle →
      exec (.cfgBitrate v) s = .next { s with history := s.history ++ [⟨.cfgBitrate v, []⟩] } ∧
      exec (.cfgFlowctl f) s = .next { s with history := s.history ++ [⟨.cfgFlowctl f, []⟩] })

/-- START (R221, 70_reset_and_hazards.md R271): with a supported rate the queues are flushed and the block runs from
`P_WAIT`, or its setup fails; with any other rate it halts; outside `P_RESET` it is not enabled. -/
def Obligations.StartOutcomes : Prop :=
  ∀ s : State,
    (s.pc = .reset → 1 ≤ s.bitrate.toNat → s.bitrate.toNat ∈ Config.params.rates →
      exec .start s = .next
        { s with
          rxFifo := [], txQueue := [], coreIn := [], coreOut := [], linkHup := false, head := 0, buf := []
          sync := .seekingHeader, pending := ⟨false, false⟩, egLen := 0, egMsg := [], run := .running, pc := .wait
          history := s.history ++ [⟨.start, []⟩] } ∧
      exec (.fatal Cause.setupFail.code) s = .next (raiseFatal .setupFail s) ∧
      HoldsIn (.fatal Cause.unsupportedBitrate.code) s) ∧
    (s.pc = .reset → ¬ (1 ≤ s.bitrate.toNat ∧ s.bitrate.toNat ∈ Config.params.rates) →
      exec (.fatal Cause.unsupportedBitrate.code) s = .next (raiseFatal .unsupportedBitrate s) ∧
      HoldsIn .start s ∧ HoldsIn (.fatal Cause.setupFail.code) s) ∧
    (s.pc ≠ .reset →
      HoldsIn .start s ∧ HoldsIn (.fatal Cause.setupFail.code) s ∧ HoldsIn (.fatal Cause.unsupportedBitrate.code) s)

/-- `raise Fatal(cause)` (R250, R251): where its condition holds, FATAL records the cause, halts, empties `pending`, and
changes nothing else. -/
def Obligations.FatalEntryChangesOnlyTheStatus : Prop :=
  ∀ (c : Cause) (s : State), fatalCondition Config.params c s = .ok true →
    exec (.fatal c.code) s = .next
      { s with
        cause := c, run := .fatal, pc := .fatal, pending := ⟨false, false⟩
        history := s.history ++ [⟨.fatal c.code, []⟩] }

/-- A code no rule raises, `NONE` and `0x10` to `0xFF`, is never recorded (R241). That its FATAL, a valid word, is answered by the
same state is the model's choice (log entry 11): 93_implementation_defined.md I20 says `refuse`, in that no rule records one. -/
def Obligations.UnraisedCodesAreNeverRecorded : Prop :=
  ∀ (code : Byte) (s : State), (code = 0 ∨ 0x10 ≤ code.toNat) → HoldsIn (.fatal code) s

/-- There is no return from a fatal but RESET (R252): no operation of the block is enabled, and neither the cause nor the
halt is changed by any other label; the buffer, the egress registers and the configuration keep their values (R250, R253). -/
def Obligations.FatalIsSticky : Prop :=
  ∀ (i : Instr) (s t : State), s.pc = .fatal → s.run = .fatal → i ≠ .reset → exec i s = .next t →
    (isSequencer i = true ∨ i = .start ∨ (∃ code, i = .fatal code) → t = s) ∧
      t.pc = .fatal ∧ t.run = .fatal ∧ t.cause = s.cause ∧ t.buf = s.buf ∧ t.head = s.head ∧ t.sync = s.sync ∧
      t.egMsg = s.egMsg ∧ t.egLen = s.egLen ∧ t.bitrate = s.bitrate ∧ t.hwfc = s.hwfc ∧ t.pending = s.pending

/-- RESET (R226, R270), in every state: every element at its reset value, the clock and the wire unchanged. -/
def Obligations.ResetRestoresEveryElement : Prop :=
  ∀ s : State,
    exec .reset s = .next
      { buf := [], head := 0, sync := .seekingHeader, egMsg := [], egLen := 0, egDeadline := 0, egSleepUs := 0
        pc := .reset, pending := ⟨false, false⟩, run := .idle, cause := .none, bitrate := 0, hwfc := false
        rxFifo := [], linkHup := false, txQueue := [], wire := s.wire, coreIn := [], coreOut := [], nowUs := s.nowUs
        history := s.history ++ [⟨.reset, []⟩], moves := s.moves, freeCount := s.freeCount }

/-- The state at power-on (R270). The last three fields are the model's own record, empty by its choice (log entry 17). -/
def Obligations.PowerOnState : Prop :=
  State.reset =
    { buf := [], head := 0, sync := .seekingHeader, egMsg := [], egLen := 0, egDeadline := 0, egSleepUs := 0
      pc := .reset, pending := ⟨false, false⟩, run := .idle, cause := .none, bitrate := 0, hwfc := false
      rxFifo := [], linkHup := false, txQueue := [], wire := [], coreIn := [], coreOut := [], nowUs := 0
      history := [], moves := [], freeCount := 0 }

/-! ### Environment (42_dispatch_control.md) -/

/-- ENV_RX b (R230): delivered; lost on a full buffer without flow control; with it, held off. -/
def Obligations.EnvRxDelivery : Prop :=
  ∀ (b : Byte) (s : State),
    (s.rxFifo.length < Config.params.rxFifoDepth →
      exec (.envRx b) s = .next { s with rxFifo := s.rxFifo ++ [b], history := s.history ++ [⟨.envRx b, []⟩] }) ∧
    (Config.params.rxFifoDepth ≤ s.rxFifo.length → s.hwfc = false →
      exec (.envRx b) s = .next { s with history := s.history ++ [⟨.envRx b, []⟩] }) ∧
    (s.rxFifo.length = Config.params.rxFifoDepth → s.hwfc = true → HoldsIn (.envRx b) s)

/-- ENV_TX_DRAIN k (R231): the first `k` bytes, in order, onto the wire at the current clock. -/
def Obligations.EnvTxDrainOntoTheWire : Prop :=
  ∀ (k : Nat) (s : State),
    (1 ≤ k → k ≤ s.txQueue.length →
      exec (.envTxDrain k) s = .next
        { s with
          wire := s.wire ++ (s.txQueue.take k).map (fun b => (s.nowUs, b)), txQueue := s.txQueue.drop k
          history := s.history ++ [⟨.envTxDrain k, []⟩] }) ∧
    (¬ (1 ≤ k ∧ k ≤ s.txQueue.length) → HoldsIn (.envTxDrain k) s)

/-- ENV_CORE_SEND and ENV_CORE_RECV (R232, R233): the core's ends of the two queues. That the events hold the message and the
frame is the model's inference (of R120; log entry 15): R232 and R233 emit the length. -/
def Obligations.EnvCoreSendAndReceive : Prop :=
  ∀ s : State,
    (∀ m, exec (.envCoreSend m) s = .next
      { s with coreIn := s.coreIn ++ [m], history := s.history ++ [⟨.envCoreSend m, m⟩] }) ∧
    (∀ frame rest, s.coreOut = frame :: rest →
      exec (.envCoreRecv frame.length) s = .next
        { s with coreOut := rest, history := s.history ++ [⟨.envCoreRecv frame.length, frame⟩] }) ∧
    (∀ n, (∀ frame rest, s.coreOut = frame :: rest → n ≠ frame.length) → HoldsIn (.envCoreRecv n) s)

/-- ENV_TICK u and ENV_LINK_HUP (R234, R235). -/
def Obligations.EnvTickAndHangUp : Prop :=
  ∀ s : State,
    (∀ u, 1 ≤ u → exec (.envTick u) s = .next
      { s with nowUs := s.nowUs + u, history := s.history ++ [⟨.envTick u, []⟩] }) ∧
    HoldsIn (.envTick 0) s ∧
    (s.linkHup = false → exec .envLinkHup s = .next
      { s with linkHup := true, history := s.history ++ [⟨.envLinkHup, []⟩] }) ∧
    (s.linkHup = true → HoldsIn .envLinkHup s)

/-- No environment step writes the block's own state (10_state.md R59). -/
def Obligations.EnvironmentLeavesTheBlockAlone : Prop :=
  ∀ (i : Instr) (s t : State), isEnvironment i = true → exec i s = .next t →
    t.buf = s.buf ∧ t.head = s.head ∧ t.sync = s.sync ∧ t.egMsg = s.egMsg ∧ t.egLen = s.egLen ∧
      t.egDeadline = s.egDeadline ∧ t.egSleepUs = s.egSleepUs ∧ t.pc = s.pc ∧ t.pending = s.pending ∧ t.run = s.run ∧
      t.cause = s.cause ∧ t.bitrate = s.bitrate ∧ t.hwfc = s.hwfc

/-! ### Who writes what (10_state.md) -/

/-- Each element of the block changes only by the operations its rule names, START and RESET (R32, R34, R36, R38, R39, R40, R41,
R42, R43, R46, R47; 42_dispatch_control.md R223): the buffer by the ingress operations, the phase by the one step each phase
allows, the run status by a fatal. -/
def Obligations.BlockStateIsWrittenOnlyByItsOperations : Prop :=
  ∀ (p : Params) (i : Instr) (s t : State), execAt p i s = .next t → i ≠ .start → i ≠ .reset →
    (t.buf ≠ s.buf →
      (∃ r, i = .linkRead r) ∨ (∃ k, i = .hdrFound k) ∨ (∃ n, i = .hdrFail n) ∨ ∃ fs, i = .frameEmit fs) ∧
    (s.head < t.head → ∃ r, i = .linkRead r) ∧
    (t.head < s.head → (∃ k, i = .hdrFound k) ∨ (∃ n, i = .hdrFail n) ∨ ∃ fs, i = .frameEmit fs) ∧
    (t.sync ≠ s.sync → (∃ k, i = .hdrFound k) ∨ ∃ fs, i = .frameEmit fs) ∧
    (t.egMsg ≠ s.egMsg ∨ t.egLen ≠ s.egLen → ∃ len, i = .coreRead len) ∧
    (t.egDeadline ≠ s.egDeadline ∨ t.egSleepUs ≠ s.egSleepUs → ∃ d, i = .depthPoll d) ∧
    (t.pc ≠ s.pc →
      (s.pc = .wait ∧ t.pc = .dispatch ∧ ∃ mask, i = .waitWake mask) ∨
      (s.pc = .dispatch ∧ (t.pc = .linkRead ∧ i = .dispatchLink ∨ t.pc = .coreRead ∧ i = .dispatchCore)) ∨
      (s.pc = .linkRead ∧ t.pc = .sync ∧ ∃ r, i = .linkRead r) ∨
      (s.pc = .sync ∧ t.pc = (if s.pending = ⟨false, false⟩ then .wait else .dispatch) ∧
        ((∃ n, i = .hdrFail n) ∨ (∃ h, i = .hdrWait h) ∨ ∃ h, i = .payWait h)) ∨
      (s.pc = .coreRead ∧ t.pc = .poll ∧ ∃ len, i = .coreRead len) ∨
      (s.pc = .poll ∧ ((∃ d, i = .depthPoll d ∧ 0 < d ∧ t.pc = .sleepDrain) ∨ i = .depthPoll 0 ∧ t.pc = .gap)) ∨
      (s.pc = .sleepDrain ∧ t.pc = .poll ∧ ∃ us, i = .drainSleep us) ∨
      (s.pc = .gap ∧ t.pc = .write ∧ ∃ us, i = .idleGap us) ∨
      (s.pc = .write ∧ t.pc = (if s.pending = ⟨false, false⟩ then .wait else .dispatch) ∧ ∃ len, i = .linkWrite len) ∨
      (t.pc = .fatal ∧ ∃ code, i = .fatal code)) ∧
    (t.pending ≠ s.pending →
      (∃ mask, i = .waitWake mask) ∨ i = .dispatchLink ∨ i = .dispatchCore ∨
        (t.pending = ⟨false, false⟩ ∧ ∃ code, i = .fatal code)) ∧
    (t.run ≠ s.run → t.run = .fatal ∧ ∃ code, i = .fatal code) ∧
    (t.cause ≠ s.cause → ∃ code, i = .fatal code) ∧
    (t.bitrate ≠ s.bitrate → s.run = .idle ∧ ∃ v, i = .cfgBitrate v) ∧
    (t.hwfc ≠ s.hwfc → s.run = .idle ∧ ∃ f, i = .cfgFlowctl f)

/-- The clock never goes back, and the wire history only grows, whatever the step (R53, R56). -/
def Obligations.ClockAndWireOnlyGrow : Prop :=
  ∀ s t : State, step s = .next t → s.nowUs ≤ t.nowUs ∧ ∃ more, t.wire = s.wire ++ more

/-! ### The host port (10_state.md R48, R49) -/

/-- `STATUS`, at offset `0x0C` (R48): `SYNC` (R36), `RUN` (R42), `CAUSE` (60_exceptions.md R241), `PHASE` (R40) and `PENDING`
(R41) in their numbers, and the reserved bits 0. -/
def Obligations.StatusFields : Prop :=
  ∀ s : State, ∃ w : Word32, hostReadValue Config.params 32 0x0C s = .ok w ∧
    w.extractLsb' 0 1 = (match s.sync with | .seekingHeader => 0 | .seekingPayload => 1) ∧
    w.extractLsb' 1 2 = (match s.run with | .idle => 0 | .running => 1 | .fatal => 2) ∧
    w.extractLsb' 3 5 = 0 ∧
    w.extractLsb' 8 8 =
      (match s.cause with
        | .none => 0x00 | .setupFail => 0x01 | .unsupportedBitrate => 0x02 | .waitFailure => 0x03 | .waitZeroReady => 0x04
        | .linkReadError => 0x05 | .linkReadableZero => 0x06 | .feedOverflow => 0x07 | .coreWriteError => 0x08
        | .coreShortWrite => 0x09 | .oversizeFrame => 0x0A | .coreReadError => 0x0B | .coreClosed => 0x0C
        | .depthPollError => 0x0D | .linkWriteError => 0x0E | .linkShortWrite => 0x0F) ∧
    w.extractLsb' 16 4 =
      (match s.pc with
        | .reset => 0 | .wait => 1 | .dispatch => 2 | .linkRead => 3 | .sync => 4 | .coreRead => 5 | .poll => 6
        | .sleepDrain => 7 | .gap => 8 | .write => 9 | .fatal => 15) ∧
    (w.getLsbD 20 = s.pending.link ∧ w.getLsbD 21 = s.pending.core) ∧
    w.extractLsb' 22 10 = 0

/-- Host accesses (R48, R49): what a read of each register gives, `STATUS` by `StatusFields` (a value wider than a register reads
as its low 32 bits: log entry 13); a read changes nothing; a write to a reserved offset or a read-only register, a write of 0 to
`CTRL.START`, is ignored; a write to `BITRATE` or `FLOWCTL` outside `IDLE` changes no state but the record of the label (R219,
R220); an access not 32 bits wide or misaligned is refused (log entry 13). -/
def Obligations.HostAccessRules : Prop :=
  ∀ (s : State) (width offset : Nat) (value : Word32) (setup : SetupDraw) (rest : List Move),
    let u := { s with moves := rest, freeCount := s.freeCount + 1 }
    (s.moves = .hostRead width offset :: rest →
      step s = if width = 32 ∧ offset % 4 = 0 then .next u else .refused .hostAccess) ∧
    (s.moves = .hostWrite width offset value setup :: rest →
      (¬ (width = 32 ∧ offset % 4 = 0) → step s = .refused .hostAccess) ∧
      (width = 32 → offset % 4 = 0 → offset ≠ 0 → offset ≠ 4 → offset ≠ 8 → step s = .next u) ∧
      (width = 32 → offset = 0 → value.getLsbD 0 = false → step s = .next u) ∧
      (width = 32 → offset = 4 → s.run ≠ .idle →
        step s = .next { u with history := s.history ++ [⟨.cfgBitrate value, []⟩] }) ∧
      (width = 32 → offset = 8 → s.run ≠ .idle →
        step s = .next { u with history := s.history ++ [⟨.cfgFlowctl (value.getLsbD 0), []⟩] })) ∧
    hostReadValue Config.params 32 0x00 s = .ok 0 ∧
    hostReadValue Config.params 32 0x04 s = .ok s.bitrate ∧
    hostReadValue Config.params 32 0x08 s = .ok (if s.hwfc then 1 else 0) ∧
    hostReadValue Config.params 32 0x10 s = .ok (BitVec.ofNat 32 s.head) ∧
    hostReadValue Config.params 32 0x14 s = .ok (BitVec.ofNat 32 Config.params.H) ∧
    hostReadValue Config.params 32 0x18 s = .ok (BitVec.ofNat 32 Config.params.cap) ∧
    hostReadValue Config.params 32 0x1C s = .ok (BitVec.ofNat 32 Config.params.marker.toNat) ∧
    hostReadValue Config.params 32 0x20 s = .ok (BitVec.ofNat 32 Config.params.txMax) ∧
    (offset % 4 = 0 → 0x24 ≤ offset → hostReadValue Config.params 32 offset s = .ok 0) ∧
    (¬ (width = 32 ∧ offset % 4 = 0) → hostReadValue Config.params width offset s = .error .hostAccess)

/-- Host writes that act (R48, R219 to R221): `BITRATE` and `FLOWCTL` while `IDLE`, and 1 to `CTRL.START`, whose rate check
comes before the setup draw (R248); outside `P_RESET` START is ignored. -/
def Obligations.HostWritesThatAct : Prop :=
  ∀ (s : State) (offset : Nat) (value : Word32) (setup : SetupDraw) (rest : List Move),
    s.moves = .hostWrite 32 offset value setup :: rest →
    let u := { s with moves := rest, freeCount := s.freeCount + 1 }
    (offset = 4 → s.run = .idle →
      step s = .next { u with bitrate := value, history := s.history ++ [⟨.cfgBitrate value, []⟩] }) ∧
    (offset = 8 → s.run = .idle →
      step s = .next
        { u with hwfc := value.getLsbD 0, history := s.history ++ [⟨.cfgFlowctl (value.getLsbD 0), []⟩] }) ∧
    (offset = 0 → value.getLsbD 0 = true →
      (s.pc ≠ .reset → step s = .next u) ∧
      (s.pc = .reset → rateSupported Config.params s.bitrate = false →
        step s = exec (.fatal Cause.unsupportedBitrate.code) u) ∧
      (s.pc = .reset → rateSupported Config.params s.bitrate = true → setup = .fail →
        step s = exec (.fatal Cause.setupFail.code) u) ∧
      (s.pc = .reset → rateSupported Config.params s.bitrate = true → setup = .ok → step s = exec .start u))

/-! ### Invariants -/

/-- The invariants hold at power-on, whatever moves are offered. The history is then empty (log entry 17). -/
def Obligations.PowerOnMeetsTheInvariants : Prop :=
  ∀ ms : List Move,
    Inv Config.params { State.reset with moves := ms } ∧ QueuesMatch Config.params { State.reset with moves := ms } ∧
      PacedInv Config.params { State.reset with moves := ms } ∧ ReadsGreedily Config.params { State.reset with moves := ms }

/-- Every step keeps the invariant of the block: the buffers hold exactly their counted bytes in canonical form, the status
registers agree with the phase, pending sources stay ready, and the ingress invariant holds at rest (10_state.md R33, R34,
R38, R41, R42, R43; 40_ingress.md R144, R162, R169; R213). -/
def Obligations.StepKeepsTheBlockInvariant : Prop :=
  ∀ s t : State, Inv Config.params s → step s = .next t → Inv Config.params t

/-- In a state that meets the invariant no step reads a cell without a value: the model fault UNDEF_READ never occurs
(10_state.md R33). -/
def Obligations.NoStepReadsAnUndefinedCell : Prop :=
  ∀ (s : State) (f : Fault), Inv Config.params s → step s ≠ .fault f

/-- Every step keeps the four queues and the wire what the history says (20_memory.md R94, R95, R96; 10_state.md R53): nothing is
lost, duplicated or reordered between the block and its environment but the bytes lost on a full receive buffer (R230), messages
are written as they were read, and bytes leave as they were written. The bytes of the events are log entry 15. -/
def Obligations.StepKeepsQueueOrder : Prop :=
  ∀ s t : State, Inv Config.params s → QueuesMatch Config.params s → step s = .next t → QueuesMatch Config.params t

/-- Every step keeps the pacing (41_egress.md R190): each link write comes at least the idle gap after a poll that read 0, with no
write between them; on the wire, every earlier byte had left by that poll, and the message's bytes leave at least the gap after
it. -/
def Obligations.StepKeepsThePacing : Prop :=
  ∀ s t : State, Inv Config.params s → QueuesMatch Config.params s → PacedInv Config.params s → step s = .next t →
    PacedInv Config.params t

/-- Every step keeps the greedy reading of the link (40_ingress.md R163; 20_memory.md R82, R95): the bytes appended since START,
read greedily, give the frames emitted so far and then what the buffer gives from the current synchronization state. The frames
are the bytes of the FRAME_EMIT events (log entry 15). -/
def Obligations.StepKeepsTheGreedyReading : Prop :=
  ∀ s t : State, Inv Config.params s → QueuesMatch Config.params s → ReadsGreedily Config.params s → step s = .next t →
    ReadsGreedily Config.params t

/-- In every reachable state the guarantees hold together: the invariant of the block, ordering on both paths, paced egress and
the greedy reading of the link; while the block runs and the loop is at rest, the frames emitted, the synchronization state and
the buffer are those the bytes appended since START determine (R95, R96, R144, R163, R190). The history is read from the empty
one of power-on (log entry 17), and the bytes of its events are log entry 15. -/
def Obligations.ReachableStatesKeepTheGuarantees : Prop :=
  ∀ s : State, Reachable s →
    Inv Config.params s ∧ QueuesMatch Config.params s ∧ WritesPaced Config.params s ∧ ReadsGreedily Config.params s ∧
      (s.run = .running → s.pc ≠ .sync → StreamDeterminesRest Config.params s)

/-- A source in `pending` is still ready when its handler runs (42_dispatch_control.md R213). -/
def Obligations.PendingSourcesStayReady : Prop :=
  ∀ s : State, Reachable s →
    (s.pc = .linkRead ∨ s.pending.link = true → s.rxFifo ≠ [] ∨ s.linkHup = true) ∧
    (s.pc = .coreRead ∨ s.pending.core = true → s.coreIn ≠ [])

/-- Under fairness a sleep of the pacer ends: from a state in `P_SLEEP_DRAIN` or `P_GAP` some later state is in another phase
(41_egress.md R183). `Fair` is the model's reading of 70_reset_and_hazards.md R290 (log entry 19). -/
def Obligations.SleepsEndUnderFairness : Prop :=
  ∀ (r : LabelRun) (n : Nat), Fair r → ((r.state n).pc = .sleepDrain ∨ (r.state n).pc = .gap) →
    ∃ m, n ≤ m ∧ (r.state m).pc ≠ (r.state n).pc

/-- Under fairness, with hardware flow control off, and if neither a fatal nor a RESET comes, a message in the pacer is written to
the link (41_egress.md R189, R193; 42_dispatch_control.md R216, R236). `Fair` is the model's reading of
70_reset_and_hazards.md R290 (log entry 19). -/
def Obligations.MessagesAreWrittenUnderFairness : Prop :=
  ∀ (r : LabelRun) (n : Nat), Fair r → Inv Config.params (r.state n) → (r.state n).pc.isEgress = true →
    (r.state n).hwfc = false →
    (∀ m, n ≤ m → r.takes m → r.label m ≠ .reset ∧ ∀ code, r.label m ≠ .fatal code) →
    ∃ m, n ≤ m ∧ r.takes m ∧ r.label m = .linkWrite (r.state n).egLen

/-! ### Pseudo-labels (30_encoding.md R127) -/

/-- A pseudo-label abbreviates the sequence R127 shows, and is valid only where every label of it is enabled in turn: BOOT where
the block is in `P_RESET`, idle and the rate supported, CONFIG everywhere, ENV_RXS with space for the bytes, SERVE_LINK with the
link alone ready, SERVE_CORE with the core alone ready. -/
def Obligations.PseudoLabelsAreTakenInTurn : Prop :=
  (∀ bs, (PseudoLabel.envRxs bs).expand = bs.map .envRx) ∧
  (∀ v f, (PseudoLabel.config v f).expand = [.cfgBitrate v, .cfgFlowctl f]) ∧
  (∀ v f, (PseudoLabel.boot v f).expand = [.cfgBitrate v, .cfgFlowctl f, .start]) ∧
  (∀ r, (PseudoLabel.serveLink r).expand = [.waitWake 1, .dispatchLink, .linkRead r]) ∧
  (∀ len, (PseudoLabel.serveCore len).expand = [.waitWake 2, .dispatchCore, .coreRead len]) ∧
  (∀ (q : PseudoLabel) (s t : State), takePseudo q s = some t ↔ TakenInTurn q.expand s t) ∧
  (∀ (v : Word32) (f : Bool) (s : State), ∃ t, takePseudo (.config v f) s = some t) ∧
  (∀ (v : Word32) (f : Bool) (s : State), s.run = .idle →
    ((∃ t, takePseudo (.boot v f) s = some t) ↔ s.pc = .reset ∧ 1 ≤ v.toNat ∧ v.toNat ∈ Config.params.rates)) ∧
  (∀ (bs : List Byte) (s : State), s.rxFifo.length + bs.length ≤ Config.params.rxFifoDepth →
    ∃ t, takePseudo (.envRxs bs) s = some t ∧ t.rxFifo = s.rxFifo ++ bs) ∧
  (∀ (r : Nat) (s : State),
    (∃ t, takePseudo (.serveLink r) s = some t) ↔
      s.pc = .wait ∧ s.coreIn = [] ∧ 1 ≤ r ∧ r ≤ min s.rxFifo.length (Config.params.cap - s.head)) ∧
  (∀ (len : Nat) (s : State),
    (∃ t, takePseudo (.serveCore len) s = some t) ↔
      s.pc = .wait ∧ s.rxFifo = [] ∧ s.linkHup = false ∧
        ∃ m rest, s.coreIn = m :: rest ∧ m ≠ [] ∧ len = min m.length Config.params.txMax)
end

