-- ==== Sys2Proof/Laws/Config.lean ====
section
/-! SUPPORT. The constraints of 00_scope.md R10 hold of the machine's parameters whatever the opaque constants are, and of
the test codec. -/

namespace Sys2Proof

theorem Config.params_valid : Config.params.Valid where
  header_pos := by simp [Config.params]
  lenBits_pos := by simp [Config.params]
  plen_lt w := Nat.mod_lt _ (by simp)
  cap_ge := by simp [Config.params]
  rates_pos r hr := by
    simp only [Config.params, List.mem_cons, List.mem_filter] at hr
    rcases hr with rfl | ⟨-, h⟩
    · decide
    · simpa using h
  rates_115200 := by simp [Config.params]
  txMax_pos := by simp [Config.params]
  rxFifoDepth_pos := by simp [Config.params]
  coreOutDepth_pos := by simp [Config.params]

/-- 115200 is a supported rate (R10), whatever else `RATE_SET` holds. -/
theorem Machine.rateSupported_115200 : Machine.rateSupported Config.params 115200 = true := by
  simp [Machine.rateSupported, Config.params]

/-- 0 is none (10_state.md R46). -/
theorem Machine.rateSupported_zero (p : Params) : Machine.rateSupported p 0 = false := by
  simp [Machine.rateSupported]

end Sys2Proof
end

