-- ==== Sys2Proof/Laws/Decode.lean ====
section
/-! SUPPORT. The parts of a label word: what the encoder puts there and what the decoder reads (30_encoding.md R119 to R124). -/

namespace Sys2Proof

theorem Opcode.ofCode?_code (op : Opcode) : Opcode.ofCode? op.code = some op := by
  cases op <;> decide

theorem Opcode.code_of_ofCode? {c : Byte} {op : Opcode} (h : Opcode.ofCode? c = some op) : op.code = c := by
  have := List.find?_some h
  simpa using this

theorem Opcode.mem_all (op : Opcode) : op ∈ Opcode.all := by
  cases op <;> decide

/-- The operations have distinct codes (R121). -/
theorem Opcode.code_inj {a b : Opcode} (h : a.code = b.code) : a = b := by
  have := Opcode.ofCode?_code a
  rw [h, Opcode.ofCode?_code] at this
  exact (Option.some.inj this).symm

/-- A code is reserved when no operation has it (R124). -/
theorem Opcode.ofCode?_eq_none {c : Byte} : Opcode.ofCode? c = none ↔ ∀ op : Opcode, op.code ≠ c := by
  constructor
  · rintro h op rfl
    rw [Opcode.ofCode?_code] at h
    simp at h
  · intro h
    cases hc : Opcode.ofCode? c with
    | none => rfl
    | some op => exact absurd (Opcode.code_of_ofCode? hc) (h op)

theorem opcOf_append (c : Byte) (x : BitVec 24) : opcOf (c ++ x) = c := by
  unfold opcOf
  apply BitVec.eq_of_getLsbD_eq
  intro i hi
  simp only [BitVec.getLsbD_extractLsb', BitVec.getLsbD_append, hi, decide_true, Bool.true_and]
  rw [if_neg (by omega)]
  congr 1
  omega

theorem argOf_append (c : Byte) (x : BitVec 24) : argOf (c ++ x) = x := by
  unfold argOf
  apply BitVec.eq_of_getLsbD_eq
  intro i hi
  simp only [BitVec.getLsbD_extractLsb', BitVec.getLsbD_append, hi, decide_true, Bool.true_and]
  rw [if_pos (by omega), Nat.zero_add]

/-- A word is its `OPC` and its `ARG` (R119). -/
theorem word_eq (w : Word32) : w = opcOf w ++ argOf w := by
  apply BitVec.eq_of_getLsbD_eq
  intro i hi
  rw [BitVec.getLsbD_append]
  unfold opcOf argOf
  split
  · next h => simp [h]
  · next h =>
    simp only [BitVec.getLsbD_extractLsb']
    have h8 : i - 24 < 8 := by omega
    simp only [h8, decide_true, Bool.true_and]
    congr 1
    omega

/-- The `OPC` of an encoded label (R121). -/
theorem opcOf_encodeWord (i : Instr) : opcOf (encodeWord i) = i.opcode.code := opcOf_append _ _

/-- The `ARG` of an encoded label (R120). -/
theorem argOf_encodeWord (i : Instr) : argOf (encodeWord i) = sat24 i.fullArg := argOf_append _ _

/-- Below `0xFFFFFF` the word fixes the argument (R120). -/
theorem sat24_toNat {a : Nat} (h : a < 2 ^ 24) : (sat24 a).toNat = a := by
  unfold sat24
  rw [if_pos h, BitVec.toNat_ofNat, Nat.mod_eq_of_lt h]

theorem sat24_ne_max {a : Nat} (h : a < 0xFFFFFF) : sat24 a ≠ 0xFFFFFF := by
  intro hc
  have h1 := sat24_toNat (a := a) (by omega)
  rw [hc] at h1
  have : (0xFFFFFF : BitVec 24).toNat = 16777215 := rfl
  omega

theorem bareArg_sat24 {op : Opcode} {a n : Nat} (h : a < 0xFFFFFF) : bareArg op (sat24 a) n = a := by
  unfold bareArg
  rw [if_neg (sat24_ne_max h), sat24_toNat (by omega)]

end Sys2Proof
end

