-- ==== Sys2Proof/Laws/Memory.lean ====
section
/-! SUPPORT. The laws of the byte stores: read after write, the canonical form kept by every operation, and what appending
and compacting do, cell by cell (40_ingress.md R141, R143; 10_state.md R33). -/

namespace Sys2Proof.Machine

/-! ### One cell -/

@[simp] theorem memRead_nil (a : Nat) : memRead [] a = none := rfl

theorem memRead_memWrite_same (m : Memory) (a : Nat) (b : Byte) : memRead (memWrite m a b) a = some b := by
  induction m with
  | nil => simp [memWrite, memRead]
  | cons c m ih =>
    obtain ⟨k, v⟩ := c
    simp only [memWrite]
    split
    · simp [memRead]
    · split
      · simp [memRead]
      · rename_i h1 h2
        simp [memRead, ih, Ne.symm h2]

theorem memRead_memWrite_ne (m : Memory) {a c : Nat} (b : Byte) (h : c ≠ a) :
    memRead (memWrite m a b) c = memRead m c := by
  induction m with
  | nil => simp [memWrite, memRead, h.symm]
  | cons x m ih =>
    obtain ⟨k, v⟩ := x
    simp only [memWrite]
    split
    · simp [memRead, h.symm]
    · split
      · rename_i h2
        subst h2
        simp [memRead, h.symm]
      · simp [memRead, ih]

theorem memRead_memWrite (m : Memory) (a c : Nat) (b : Byte) :
    memRead (memWrite m a b) c = if c = a then some b else memRead m c := by
  split
  · next h => subst h; exact memRead_memWrite_same m c b
  · next h => exact memRead_memWrite_ne m b h

theorem memRead_memForget (m : Memory) (k a : Nat) :
    memRead (memForget m k) a = if a < k then memRead m a else none := by
  induction m with
  | nil => simp [memForget, memRead]
  | cons x m ih =>
    obtain ⟨j, v⟩ := x
    simp only [memForget] at ih ⊢
    by_cases hj : j < k
    · rw [List.filter_cons_of_pos (by simpa using hj)]
      simp only [memRead, ih]
      split
      · next h => subst h; simp [hj]
      · rfl
    · rw [List.filter_cons_of_neg (by simpa using hj), ih]
      simp only [memRead]
      split
      · next h =>
        have : j ≠ a := by omega
        simp [this]
      · rfl

/-! ### The canonical form -/

theorem memWrite_lower (m : Memory) (a n : Nat) (b : Byte) (hn : n < a) (h : ∀ c ∈ m, n < c.1) :
    ∀ c ∈ memWrite m a b, n < c.1 := by
  induction m with
  | nil => simpa [memWrite] using hn
  | cons x m ih =>
    obtain ⟨k, v⟩ := x
    simp only [memWrite]
    have hm : ∀ c ∈ m, n < c.1 := fun c hc => h c (by simp [hc])
    have hk : n < k := h (k, v) (by simp)
    split
    · intro c hc
      rcases List.mem_cons.1 hc with rfl | hc
      · exact hn
      · exact h c hc
    · split
      · intro c hc
        rcases List.mem_cons.1 hc with rfl | hc
        · exact hn
        · exact hm c hc
      · intro c hc
        rcases List.mem_cons.1 hc with rfl | hc
        · exact hk
        · exact ih hm c hc

theorem memWrite_wf (m : Memory) (a : Nat) (b : Byte) (h : Memory.wf m) : Memory.wf (memWrite m a b) := by
  induction m with
  | nil => simp [memWrite, Memory.wf]
  | cons x m ih =>
    obtain ⟨k, v⟩ := x
    simp only [Memory.wf, List.pairwise_cons] at h
    simp only [memWrite]
    split
    · next hak =>
      simp only [Memory.wf, List.pairwise_cons]
      refine ⟨?_, h.1, h.2⟩
      intro c hc
      rcases List.mem_cons.1 hc with rfl | hc
      · exact hak
      · exact Nat.lt_trans hak (h.1 c hc)
    · split
      · next hak =>
        subst hak
        simp only [Memory.wf, List.pairwise_cons]
        exact ⟨h.1, h.2⟩
      · simp only [Memory.wf, List.pairwise_cons]
        exact ⟨memWrite_lower m a k b (by omega) h.1, ih h.2⟩

theorem memForget_wf (m : Memory) (k : Nat) (h : Memory.wf m) : Memory.wf (memForget m k) :=
  List.Pairwise.filter _ h

theorem memWriteBytes_wf (m : Memory) (a : Nat) (bs : List Byte) (h : Memory.wf m) :
    Memory.wf (memWriteBytes m a bs) := by
  induction bs generalizing m a with
  | nil => exact h
  | cons b bs ih => exact ih _ _ (memWrite_wf m a b h)

/-- In a canonical memory a cell below the first listed one holds no value. -/
theorem memRead_of_lower (m : Memory) (a : Nat) (h : ∀ c ∈ m, a < c.1) : memRead m a = none := by
  induction m with
  | nil => rfl
  | cons x m ih =>
    obtain ⟨k, v⟩ := x
    have hk : a < k := h (k, v) (by simp)
    have : k ≠ a := by omega
    simp [memRead, this, ih fun c hc => h c (by simp [hc])]

/-- Canonical memories that read alike are equal. -/
theorem memory_ext {m m' : Memory} (h : Memory.wf m) (h' : Memory.wf m') (hr : ∀ a, memRead m a = memRead m' a) :
    m = m' := by
  induction m generalizing m' with
  | nil =>
    cases m' with
    | nil => rfl
    | cons x m' =>
      have := hr x.1
      simp [memRead] at this
  | cons x m ih =>
    cases m' with
    | nil =>
      have := hr x.1
      simp [memRead] at this
    | cons y m' =>
      obtain ⟨k, v⟩ := x
      obtain ⟨k', v'⟩ := y
      simp only [Memory.wf, List.pairwise_cons] at h h'
      have hkk : k = k' := by
        by_contra hne
        rcases Nat.lt_or_gt_of_ne hne with hlt | hlt
        · have := hr k
          simp only [memRead, Ne.symm hne, if_false, if_true] at this
          rw [memRead_of_lower m' k fun c hc => Nat.lt_trans hlt (h'.1 c hc)] at this
          simp at this
        · have := hr k'
          simp only [memRead, hne, if_false, if_true] at this
          rw [memRead_of_lower m k' fun c hc => Nat.lt_trans hlt (h.1 c hc)] at this
          simp at this
      subst hkk
      have hv : v = v' := by
        have := hr k
        simpa [memRead] using this
      subst hv
      congr 1
      refine ih h.2 h'.2 fun a => ?_
      by_cases hka : k = a
      · subst hka
        rw [memRead_of_lower m k h.1, memRead_of_lower m' k h'.1]
      · have := hr a
        simpa [memRead, hka] using this

/-! ### Ranges of cells -/

theorem memRead_memWriteBytes (m : Memory) (a c : Nat) (bs : List Byte) :
    memRead (memWriteBytes m a bs) c =
      if a ≤ c ∧ c < a + bs.length then bs[c - a]? else memRead m c := by
  induction bs generalizing m a with
  | nil =>
    rw [if_neg (by simp)]
    rfl
  | cons b bs ih =>
    simp only [memWriteBytes, ih, memRead_memWrite, List.length_cons]
    by_cases h1 : a + 1 ≤ c ∧ c < a + 1 + bs.length
    · have h2 : a ≤ c ∧ c < a + (bs.length + 1) := by omega
      have h3 : c - a = (c - (a + 1)) + 1 := by omega
      simp [h1, h2, h3]
    · by_cases h4 : c = a
      · subst h4
        simp
      · have h2 : ¬ (a ≤ c ∧ c < a + (bs.length + 1)) := by omega
        rw [if_neg h1, if_neg h4, if_neg h2]

theorem memReadBytes_succ (m : Memory) (a n : Nat) :
    memReadBytes m a (n + 1) =
      (memRead m a).bind fun b => (memReadBytes m (a + 1) n).map (b :: ·) := by
  simp only [memReadBytes]
  cases memRead m a <;> cases memReadBytes m (a + 1) n <;> rfl

theorem memReadBytes_eq_some {m : Memory} {a n : Nat} {bs : List Byte} :
    memReadBytes m a n = some bs ↔ bs.length = n ∧ ∀ j, j < n → memRead m (a + j) = bs[j]? := by
  induction n generalizing a bs with
  | zero =>
    simp only [memReadBytes, Option.some.injEq]
    constructor
    · rintro rfl
      simp
    · rintro ⟨h, -⟩
      exact (List.length_eq_zero_iff.1 h).symm
  | succ n ih =>
    rw [memReadBytes_succ]
    constructor
    · intro h
      obtain ⟨b, hb, h⟩ := Option.bind_eq_some_iff.1 h
      obtain ⟨bs', hbs, rfl⟩ := Option.map_eq_some_iff.1 h
      obtain ⟨hl, hr⟩ := ih.1 hbs
      refine ⟨by simp [hl], fun j hj => ?_⟩
      cases j with
      | zero => simpa using hb
      | succ j =>
        have := hr j (by omega)
        rw [show a + (j + 1) = a + 1 + j by omega, this]
        simp
    · rintro ⟨hl, hr⟩
      cases bs with
      | nil => simp at hl
      | cons b bs =>
        have hb : memRead m a = some b := by simpa using hr 0 (by omega)
        have hbs : memReadBytes m (a + 1) n = some bs := by
          refine ih.2 ⟨by simpa using hl, fun j hj => ?_⟩
          have := hr (j + 1) (by omega)
          rw [show a + 1 + j = a + (j + 1) by omega, this]
          simp
        simp [hb, hbs]

theorem memReadBytes_length {m : Memory} {a n : Nat} {bs : List Byte} (h : memReadBytes m a n = some bs) :
    bs.length = n := (memReadBytes_eq_some.1 h).1

/-- A range of cells that hold values can be read. -/
theorem memReadBytes_isSome {m : Memory} {a n : Nat} (h : ∀ j, j < n → (memRead m (a + j)).isSome = true) :
    ∃ bs, memReadBytes m a n = some bs := by
  induction n generalizing a with
  | zero => exact ⟨[], rfl⟩
  | succ n ih =>
    obtain ⟨b, hb⟩ := Option.isSome_iff_exists.1 (h 0 (by omega))
    obtain ⟨bs, hbs⟩ := ih (a := a + 1) fun j hj => by
      have := h (j + 1) (by omega)
      rwa [show a + (j + 1) = a + 1 + j by omega] at this
    refine ⟨b :: bs, ?_⟩
    rw [memReadBytes_succ]
    simp only [Nat.add_zero] at hb
    simp [hb, hbs]

/-- Two memories that agree on a range give the same bytes of it. -/
theorem memReadBytes_congr {m m' : Memory} {a a' n : Nat} (h : ∀ j, j < n → memRead m (a + j) = memRead m' (a' + j)) :
    memReadBytes m a n = memReadBytes m' a' n := by
  induction n generalizing a a' with
  | zero => rfl
  | succ n ih =>
    have h0 : memRead m a = memRead m' a' := by simpa using h 0 (by omega)
    have := ih (a := a + 1) (a' := a' + 1) fun j hj => by
      have := h (j + 1) (by omega)
      rwa [show a + (j + 1) = a + 1 + j by omega, show a' + (j + 1) = a' + 1 + j by omega] at this
    rw [memReadBytes_succ, memReadBytes_succ, h0, this]

/-- A sub-range of a range read. -/
theorem memReadBytes_sub {m : Memory} {a n : Nat} {bs : List Byte} (h : memReadBytes m a n = some bs) (i k : Nat)
    (hk : i + k ≤ n) : memReadBytes m (a + i) k = some ((bs.drop i).take k) := by
  obtain ⟨hl, hr⟩ := memReadBytes_eq_some.1 h
  refine memReadBytes_eq_some.2 ⟨by simp [hl]; omega, fun j hj => ?_⟩
  rw [Nat.add_assoc, hr (i + j) (by omega), List.getElem?_take_of_lt hj, List.getElem?_drop]

/-! ### Filled buffers -/

theorem filled_nil : Filled [] 0 := ⟨by simp [Memory.wf], by simp⟩

/-- Every range below the fill mark can be read (10_state.md R33). -/
theorem Filled.readBytes {m : Memory} {n : Nat} (h : Filled m n) {a k : Nat} (hk : a + k ≤ n) :
    ∃ bs, memReadBytes m a k = some bs ∧ bs.length = k := by
  obtain ⟨bs, hbs⟩ := memReadBytes_isSome (m := m) (a := a) (n := k) fun j hj => (h.2 _).2 (by omega)
  exact ⟨bs, hbs, memReadBytes_length hbs⟩

theorem Filled.read_none {m : Memory} {n a : Nat} (h : Filled m n) (ha : n ≤ a) : memRead m a = none := by
  have := (h.2 a).not.2 (by omega)
  simpa using this

/-- Appending at the fill mark (40_ingress.md R141). -/
theorem Filled.append {m : Memory} {n : Nat} (h : Filled m n) (bs : List Byte) :
    Filled (memWriteBytes m n bs) (n + bs.length) := by
  refine ⟨memWriteBytes_wf m n bs h.1, fun a => ?_⟩
  rw [memRead_memWriteBytes]
  split
  · next hab =>
    have : a - n < bs.length := by omega
    simp [this, hab.2]
  · next hab =>
    rw [h.2 a]
    omega

/-- Writing from offset 0 and forgetting the rest (40_ingress.md R143, 10_state.md R38). -/
theorem filled_overwrite {m : Memory} (h : Memory.wf m) (bs : List Byte) :
    Filled (memForget (memWriteBytes m 0 bs) bs.length) bs.length ∧
      ∀ a, memRead (memForget (memWriteBytes m 0 bs) bs.length) a = bs[a]? := by
  have hr : ∀ a, memRead (memForget (memWriteBytes m 0 bs) bs.length) a = bs[a]? := by
    intro a
    rw [memRead_memForget, memRead_memWriteBytes]
    by_cases ha : a < bs.length
    · simp [ha]
    · simp [ha]
  refine ⟨⟨memForget_wf _ _ (memWriteBytes_wf _ _ _ h), fun a => ?_⟩, hr⟩
  rw [hr]
  simp

/-- Two filled buffers with the same bytes are the same buffer. -/
theorem Filled.ext {m m' : Memory} {n : Nat} (h : Filled m n) (h' : Filled m' n)
    (hb : memReadBytes m 0 n = memReadBytes m' 0 n) : m = m' := by
  refine memory_ext h.1 h'.1 fun a => ?_
  by_cases ha : a < n
  · obtain ⟨bs, hbs, -⟩ := h.readBytes (a := 0) (k := n) (by omega)
    have h1 := (memReadBytes_eq_some.1 hbs).2 a ha
    have h2 := (memReadBytes_eq_some.1 (hb ▸ hbs)).2 a ha
    simp only [Nat.zero_add] at h1 h2
    rw [h1, h2]
  · rw [h.read_none (by omega), h'.read_none (by omega)]

end Sys2Proof.Machine
end

