-- ==== Sys2Proof/Laws/State.lean ====
section
/-! SUPPORT. One lemma per field per update of the state: later proofs cite these and unfold no record update. -/

namespace Sys2Proof.Machine

/-! ### `emit` -/

@[simp] theorem emit_buf (i : Instr) (c : List Byte) (s : State) : (emit i c s).buf = s.buf := rfl
@[simp] theorem emit_head (i : Instr) (c : List Byte) (s : State) : (emit i c s).head = s.head := rfl
@[simp] theorem emit_sync (i : Instr) (c : List Byte) (s : State) : (emit i c s).sync = s.sync := rfl
@[simp] theorem emit_egMsg (i : Instr) (c : List Byte) (s : State) : (emit i c s).egMsg = s.egMsg := rfl
@[simp] theorem emit_egLen (i : Instr) (c : List Byte) (s : State) : (emit i c s).egLen = s.egLen := rfl
@[simp] theorem emit_egDeadline (i : Instr) (c : List Byte) (s : State) : (emit i c s).egDeadline = s.egDeadline := rfl
@[simp] theorem emit_egSleepUs (i : Instr) (c : List Byte) (s : State) : (emit i c s).egSleepUs = s.egSleepUs := rfl
@[simp] theorem emit_pc (i : Instr) (c : List Byte) (s : State) : (emit i c s).pc = s.pc := rfl
@[simp] theorem emit_pending (i : Instr) (c : List Byte) (s : State) : (emit i c s).pending = s.pending := rfl
@[simp] theorem emit_run (i : Instr) (c : List Byte) (s : State) : (emit i c s).run = s.run := rfl
@[simp] theorem emit_cause (i : Instr) (c : List Byte) (s : State) : (emit i c s).cause = s.cause := rfl
@[simp] theorem emit_bitrate (i : Instr) (c : List Byte) (s : State) : (emit i c s).bitrate = s.bitrate := rfl
@[simp] theorem emit_hwfc (i : Instr) (c : List Byte) (s : State) : (emit i c s).hwfc = s.hwfc := rfl
@[simp] theorem emit_rxFifo (i : Instr) (c : List Byte) (s : State) : (emit i c s).rxFifo = s.rxFifo := rfl
@[simp] theorem emit_linkHup (i : Instr) (c : List Byte) (s : State) : (emit i c s).linkHup = s.linkHup := rfl
@[simp] theorem emit_txQueue (i : Instr) (c : List Byte) (s : State) : (emit i c s).txQueue = s.txQueue := rfl
@[simp] theorem emit_wire (i : Instr) (c : List Byte) (s : State) : (emit i c s).wire = s.wire := rfl
@[simp] theorem emit_coreIn (i : Instr) (c : List Byte) (s : State) : (emit i c s).coreIn = s.coreIn := rfl
@[simp] theorem emit_coreOut (i : Instr) (c : List Byte) (s : State) : (emit i c s).coreOut = s.coreOut := rfl
@[simp] theorem emit_nowUs (i : Instr) (c : List Byte) (s : State) : (emit i c s).nowUs = s.nowUs := rfl
@[simp] theorem emit_history (i : Instr) (c : List Byte) (s : State) : (emit i c s).history = s.history ++ [⟨i, c⟩] := rfl
@[simp] theorem emit_moves (i : Instr) (c : List Byte) (s : State) : (emit i c s).moves = s.moves := rfl
@[simp] theorem emit_freeCount (i : Instr) (c : List Byte) (s : State) : (emit i c s).freeCount = s.freeCount := rfl

/-! ### `raiseFatal` (60_exceptions.md R250) -/

@[simp] theorem raiseFatal_buf (c : Cause) (s : State) : (raiseFatal c s).buf = s.buf := rfl
@[simp] theorem raiseFatal_head (c : Cause) (s : State) : (raiseFatal c s).head = s.head := rfl
@[simp] theorem raiseFatal_sync (c : Cause) (s : State) : (raiseFatal c s).sync = s.sync := rfl
@[simp] theorem raiseFatal_egMsg (c : Cause) (s : State) : (raiseFatal c s).egMsg = s.egMsg := rfl
@[simp] theorem raiseFatal_egLen (c : Cause) (s : State) : (raiseFatal c s).egLen = s.egLen := rfl
@[simp] theorem raiseFatal_egDeadline (c : Cause) (s : State) : (raiseFatal c s).egDeadline = s.egDeadline := rfl
@[simp] theorem raiseFatal_egSleepUs (c : Cause) (s : State) : (raiseFatal c s).egSleepUs = s.egSleepUs := rfl
@[simp] theorem raiseFatal_pc (c : Cause) (s : State) : (raiseFatal c s).pc = .fatal := rfl
@[simp] theorem raiseFatal_pending (c : Cause) (s : State) : (raiseFatal c s).pending = ⟨false, false⟩ := rfl
@[simp] theorem raiseFatal_run (c : Cause) (s : State) : (raiseFatal c s).run = .fatal := rfl
@[simp] theorem raiseFatal_cause (c : Cause) (s : State) : (raiseFatal c s).cause = c := rfl
@[simp] theorem raiseFatal_bitrate (c : Cause) (s : State) : (raiseFatal c s).bitrate = s.bitrate := rfl
@[simp] theorem raiseFatal_hwfc (c : Cause) (s : State) : (raiseFatal c s).hwfc = s.hwfc := rfl
@[simp] theorem raiseFatal_rxFifo (c : Cause) (s : State) : (raiseFatal c s).rxFifo = s.rxFifo := rfl
@[simp] theorem raiseFatal_linkHup (c : Cause) (s : State) : (raiseFatal c s).linkHup = s.linkHup := rfl
@[simp] theorem raiseFatal_txQueue (c : Cause) (s : State) : (raiseFatal c s).txQueue = s.txQueue := rfl
@[simp] theorem raiseFatal_wire (c : Cause) (s : State) : (raiseFatal c s).wire = s.wire := rfl
@[simp] theorem raiseFatal_coreIn (c : Cause) (s : State) : (raiseFatal c s).coreIn = s.coreIn := rfl
@[simp] theorem raiseFatal_coreOut (c : Cause) (s : State) : (raiseFatal c s).coreOut = s.coreOut := rfl
@[simp] theorem raiseFatal_nowUs (c : Cause) (s : State) : (raiseFatal c s).nowUs = s.nowUs := rfl
@[simp] theorem raiseFatal_history (c : Cause) (s : State) : (raiseFatal c s).history = s.history ++ [⟨.fatal c.code, []⟩] := rfl
@[simp] theorem raiseFatal_moves (c : Cause) (s : State) : (raiseFatal c s).moves = s.moves := rfl
@[simp] theorem raiseFatal_freeCount (c : Cause) (s : State) : (raiseFatal c s).freeCount = s.freeCount := rfl

/-! ### `resetBlock` (42_dispatch_control.md R226) -/

@[simp] theorem resetBlock_buf (s : State) : (resetBlock s).buf = State.reset.buf := rfl
@[simp] theorem resetBlock_head (s : State) : (resetBlock s).head = State.reset.head := rfl
@[simp] theorem resetBlock_sync (s : State) : (resetBlock s).sync = State.reset.sync := rfl
@[simp] theorem resetBlock_egMsg (s : State) : (resetBlock s).egMsg = State.reset.egMsg := rfl
@[simp] theorem resetBlock_egLen (s : State) : (resetBlock s).egLen = State.reset.egLen := rfl
@[simp] theorem resetBlock_egDeadline (s : State) : (resetBlock s).egDeadline = State.reset.egDeadline := rfl
@[simp] theorem resetBlock_egSleepUs (s : State) : (resetBlock s).egSleepUs = State.reset.egSleepUs := rfl
@[simp] theorem resetBlock_pc (s : State) : (resetBlock s).pc = State.reset.pc := rfl
@[simp] theorem resetBlock_pending (s : State) : (resetBlock s).pending = State.reset.pending := rfl
@[simp] theorem resetBlock_run (s : State) : (resetBlock s).run = State.reset.run := rfl
@[simp] theorem resetBlock_cause (s : State) : (resetBlock s).cause = State.reset.cause := rfl
@[simp] theorem resetBlock_bitrate (s : State) : (resetBlock s).bitrate = State.reset.bitrate := rfl
@[simp] theorem resetBlock_hwfc (s : State) : (resetBlock s).hwfc = State.reset.hwfc := rfl
@[simp] theorem resetBlock_rxFifo (s : State) : (resetBlock s).rxFifo = State.reset.rxFifo := rfl
@[simp] theorem resetBlock_linkHup (s : State) : (resetBlock s).linkHup = State.reset.linkHup := rfl
@[simp] theorem resetBlock_txQueue (s : State) : (resetBlock s).txQueue = State.reset.txQueue := rfl
@[simp] theorem resetBlock_wire (s : State) : (resetBlock s).wire = s.wire := rfl
@[simp] theorem resetBlock_coreIn (s : State) : (resetBlock s).coreIn = State.reset.coreIn := rfl
@[simp] theorem resetBlock_coreOut (s : State) : (resetBlock s).coreOut = State.reset.coreOut := rfl
@[simp] theorem resetBlock_nowUs (s : State) : (resetBlock s).nowUs = s.nowUs := rfl
@[simp] theorem resetBlock_history (s : State) : (resetBlock s).history = s.history ++ [⟨.reset, []⟩] := rfl
@[simp] theorem resetBlock_moves (s : State) : (resetBlock s).moves = s.moves := rfl
@[simp] theorem resetBlock_freeCount (s : State) : (resetBlock s).freeCount = s.freeCount := rfl

/-! ### `completeHandler` (42_dispatch_control.md R217) -/

@[simp] theorem completeHandler_buf (s : State) : (completeHandler s).buf = s.buf := rfl
@[simp] theorem completeHandler_head (s : State) : (completeHandler s).head = s.head := rfl
@[simp] theorem completeHandler_sync (s : State) : (completeHandler s).sync = s.sync := rfl
@[simp] theorem completeHandler_egMsg (s : State) : (completeHandler s).egMsg = s.egMsg := rfl
@[simp] theorem completeHandler_egLen (s : State) : (completeHandler s).egLen = s.egLen := rfl
@[simp] theorem completeHandler_egDeadline (s : State) : (completeHandler s).egDeadline = s.egDeadline := rfl
@[simp] theorem completeHandler_egSleepUs (s : State) : (completeHandler s).egSleepUs = s.egSleepUs := rfl
@[simp] theorem completeHandler_pc (s : State) : (completeHandler s).pc = if s.pending.isEmpty then .wait else .dispatch := rfl
@[simp] theorem completeHandler_pending (s : State) : (completeHandler s).pending = s.pending := rfl
@[simp] theorem completeHandler_run (s : State) : (completeHandler s).run = s.run := rfl
@[simp] theorem completeHandler_cause (s : State) : (completeHandler s).cause = s.cause := rfl
@[simp] theorem completeHandler_bitrate (s : State) : (completeHandler s).bitrate = s.bitrate := rfl
@[simp] theorem completeHandler_hwfc (s : State) : (completeHandler s).hwfc = s.hwfc := rfl
@[simp] theorem completeHandler_rxFifo (s : State) : (completeHandler s).rxFifo = s.rxFifo := rfl
@[simp] theorem completeHandler_linkHup (s : State) : (completeHandler s).linkHup = s.linkHup := rfl
@[simp] theorem completeHandler_txQueue (s : State) : (completeHandler s).txQueue = s.txQueue := rfl
@[simp] theorem completeHandler_wire (s : State) : (completeHandler s).wire = s.wire := rfl
@[simp] theorem completeHandler_coreIn (s : State) : (completeHandler s).coreIn = s.coreIn := rfl
@[simp] theorem completeHandler_coreOut (s : State) : (completeHandler s).coreOut = s.coreOut := rfl
@[simp] theorem completeHandler_nowUs (s : State) : (completeHandler s).nowUs = s.nowUs := rfl
@[simp] theorem completeHandler_history (s : State) : (completeHandler s).history = s.history := rfl
@[simp] theorem completeHandler_moves (s : State) : (completeHandler s).moves = s.moves := rfl
@[simp] theorem completeHandler_freeCount (s : State) : (completeHandler s).freeCount = s.freeCount := rfl

/-! ### `loadMessage` (41_egress.md R180) -/

@[simp] theorem loadMessage_buf (p : Params) (m : List Byte) (s : State) : (loadMessage p m s).buf = s.buf := rfl
@[simp] theorem loadMessage_head (p : Params) (m : List Byte) (s : State) : (loadMessage p m s).head = s.head := rfl
@[simp] theorem loadMessage_sync (p : Params) (m : List Byte) (s : State) : (loadMessage p m s).sync = s.sync := rfl
@[simp] theorem loadMessage_egMsg (p : Params) (m : List Byte) (s : State) : (loadMessage p m s).egMsg = memForget (memWriteBytes s.egMsg 0 (m.take p.txMax)) (min m.length p.txMax) := rfl
@[simp] theorem loadMessage_egLen (p : Params) (m : List Byte) (s : State) : (loadMessage p m s).egLen = min m.length p.txMax := rfl
@[simp] theorem loadMessage_egDeadline (p : Params) (m : List Byte) (s : State) : (loadMessage p m s).egDeadline = s.egDeadline := rfl
@[simp] theorem loadMessage_egSleepUs (p : Params) (m : List Byte) (s : State) : (loadMessage p m s).egSleepUs = s.egSleepUs := rfl
@[simp] theorem loadMessage_pc (p : Params) (m : List Byte) (s : State) : (loadMessage p m s).pc = s.pc := rfl
@[simp] theorem loadMessage_pending (p : Params) (m : List Byte) (s : State) : (loadMessage p m s).pending = s.pending := rfl
@[simp] theorem loadMessage_run (p : Params) (m : List Byte) (s : State) : (loadMessage p m s).run = s.run := rfl
@[simp] theorem loadMessage_cause (p : Params) (m : List Byte) (s : State) : (loadMessage p m s).cause = s.cause := rfl
@[simp] theorem loadMessage_bitrate (p : Params) (m : List Byte) (s : State) : (loadMessage p m s).bitrate = s.bitrate := rfl
@[simp] theorem loadMessage_hwfc (p : Params) (m : List Byte) (s : State) : (loadMessage p m s).hwfc = s.hwfc := rfl
@[simp] theorem loadMessage_rxFifo (p : Params) (m : List Byte) (s : State) : (loadMessage p m s).rxFifo = s.rxFifo := rfl
@[simp] theorem loadMessage_linkHup (p : Params) (m : List Byte) (s : State) : (loadMessage p m s).linkHup = s.linkHup := rfl
@[simp] theorem loadMessage_txQueue (p : Params) (m : List Byte) (s : State) : (loadMessage p m s).txQueue = s.txQueue := rfl
@[simp] theorem loadMessage_wire (p : Params) (m : List Byte) (s : State) : (loadMessage p m s).wire = s.wire := rfl
@[simp] theorem loadMessage_coreIn (p : Params) (m : List Byte) (s : State) : (loadMessage p m s).coreIn = s.coreIn := rfl
@[simp] theorem loadMessage_coreOut (p : Params) (m : List Byte) (s : State) : (loadMessage p m s).coreOut = s.coreOut := rfl
@[simp] theorem loadMessage_nowUs (p : Params) (m : List Byte) (s : State) : (loadMessage p m s).nowUs = s.nowUs := rfl
@[simp] theorem loadMessage_history (p : Params) (m : List Byte) (s : State) : (loadMessage p m s).history = s.history := rfl
@[simp] theorem loadMessage_moves (p : Params) (m : List Byte) (s : State) : (loadMessage p m s).moves = s.moves := rfl
@[simp] theorem loadMessage_freeCount (p : Params) (m : List Byte) (s : State) : (loadMessage p m s).freeCount = s.freeCount := rfl

/-! ### `started` (42_dispatch_control.md R221) -/

@[simp] theorem started_buf (s : State) : (started s).buf = [] := rfl
@[simp] theorem started_head (s : State) : (started s).head = 0 := rfl
@[simp] theorem started_sync (s : State) : (started s).sync = .seekingHeader := rfl
@[simp] theorem started_egMsg (s : State) : (started s).egMsg = [] := rfl
@[simp] theorem started_egLen (s : State) : (started s).egLen = 0 := rfl
@[simp] theorem started_egDeadline (s : State) : (started s).egDeadline = s.egDeadline := rfl
@[simp] theorem started_egSleepUs (s : State) : (started s).egSleepUs = s.egSleepUs := rfl
@[simp] theorem started_pc (s : State) : (started s).pc = .wait := rfl
@[simp] theorem started_pending (s : State) : (started s).pending = ⟨false, false⟩ := rfl
@[simp] theorem started_run (s : State) : (started s).run = .running := rfl
@[simp] theorem started_cause (s : State) : (started s).cause = s.cause := rfl
@[simp] theorem started_bitrate (s : State) : (started s).bitrate = s.bitrate := rfl
@[simp] theorem started_hwfc (s : State) : (started s).hwfc = s.hwfc := rfl
@[simp] theorem started_rxFifo (s : State) : (started s).rxFifo = [] := rfl
@[simp] theorem started_linkHup (s : State) : (started s).linkHup = false := rfl
@[simp] theorem started_txQueue (s : State) : (started s).txQueue = [] := rfl
@[simp] theorem started_wire (s : State) : (started s).wire = s.wire := rfl
@[simp] theorem started_coreIn (s : State) : (started s).coreIn = [] := rfl
@[simp] theorem started_coreOut (s : State) : (started s).coreOut = [] := rfl
@[simp] theorem started_nowUs (s : State) : (started s).nowUs = s.nowUs := rfl
@[simp] theorem started_history (s : State) : (started s).history = s.history ++ [⟨.start, []⟩] := rfl
@[simp] theorem started_moves (s : State) : (started s).moves = s.moves := rfl
@[simp] theorem started_freeCount (s : State) : (started s).freeCount = s.freeCount := rfl

/-! ### `afterOffer` -/

@[simp] theorem afterOffer_buf (rest : List Move) (s : State) : (afterOffer rest s).buf = s.buf := rfl
@[simp] theorem afterOffer_head (rest : List Move) (s : State) : (afterOffer rest s).head = s.head := rfl
@[simp] theorem afterOffer_sync (rest : List Move) (s : State) : (afterOffer rest s).sync = s.sync := rfl
@[simp] theorem afterOffer_egMsg (rest : List Move) (s : State) : (afterOffer rest s).egMsg = s.egMsg := rfl
@[simp] theorem afterOffer_egLen (rest : List Move) (s : State) : (afterOffer rest s).egLen = s.egLen := rfl
@[simp] theorem afterOffer_egDeadline (rest : List Move) (s : State) : (afterOffer rest s).egDeadline = s.egDeadline := rfl
@[simp] theorem afterOffer_egSleepUs (rest : List Move) (s : State) : (afterOffer rest s).egSleepUs = s.egSleepUs := rfl
@[simp] theorem afterOffer_pc (rest : List Move) (s : State) : (afterOffer rest s).pc = s.pc := rfl
@[simp] theorem afterOffer_pending (rest : List Move) (s : State) : (afterOffer rest s).pending = s.pending := rfl
@[simp] theorem afterOffer_run (rest : List Move) (s : State) : (afterOffer rest s).run = s.run := rfl
@[simp] theorem afterOffer_cause (rest : List Move) (s : State) : (afterOffer rest s).cause = s.cause := rfl
@[simp] theorem afterOffer_bitrate (rest : List Move) (s : State) : (afterOffer rest s).bitrate = s.bitrate := rfl
@[simp] theorem afterOffer_hwfc (rest : List Move) (s : State) : (afterOffer rest s).hwfc = s.hwfc := rfl
@[simp] theorem afterOffer_rxFifo (rest : List Move) (s : State) : (afterOffer rest s).rxFifo = s.rxFifo := rfl
@[simp] theorem afterOffer_linkHup (rest : List Move) (s : State) : (afterOffer rest s).linkHup = s.linkHup := rfl
@[simp] theorem afterOffer_txQueue (rest : List Move) (s : State) : (afterOffer rest s).txQueue = s.txQueue := rfl
@[simp] theorem afterOffer_wire (rest : List Move) (s : State) : (afterOffer rest s).wire = s.wire := rfl
@[simp] theorem afterOffer_coreIn (rest : List Move) (s : State) : (afterOffer rest s).coreIn = s.coreIn := rfl
@[simp] theorem afterOffer_coreOut (rest : List Move) (s : State) : (afterOffer rest s).coreOut = s.coreOut := rfl
@[simp] theorem afterOffer_nowUs (rest : List Move) (s : State) : (afterOffer rest s).nowUs = s.nowUs := rfl
@[simp] theorem afterOffer_history (rest : List Move) (s : State) : (afterOffer rest s).history = s.history := rfl
@[simp] theorem afterOffer_moves (rest : List Move) (s : State) : (afterOffer rest s).moves = rest := rfl
@[simp] theorem afterOffer_freeCount (rest : List Move) (s : State) : (afterOffer rest s).freeCount = s.freeCount + 1 := rfl

/-! ### `offerWord` -/

@[simp] theorem offerWord_buf (w : Word32) (s : State) : (offerWord s w).buf = s.buf := rfl
@[simp] theorem offerWord_head (w : Word32) (s : State) : (offerWord s w).head = s.head := rfl
@[simp] theorem offerWord_sync (w : Word32) (s : State) : (offerWord s w).sync = s.sync := rfl
@[simp] theorem offerWord_egMsg (w : Word32) (s : State) : (offerWord s w).egMsg = s.egMsg := rfl
@[simp] theorem offerWord_egLen (w : Word32) (s : State) : (offerWord s w).egLen = s.egLen := rfl
@[simp] theorem offerWord_egDeadline (w : Word32) (s : State) : (offerWord s w).egDeadline = s.egDeadline := rfl
@[simp] theorem offerWord_egSleepUs (w : Word32) (s : State) : (offerWord s w).egSleepUs = s.egSleepUs := rfl
@[simp] theorem offerWord_pc (w : Word32) (s : State) : (offerWord s w).pc = s.pc := rfl
@[simp] theorem offerWord_pending (w : Word32) (s : State) : (offerWord s w).pending = s.pending := rfl
@[simp] theorem offerWord_run (w : Word32) (s : State) : (offerWord s w).run = s.run := rfl
@[simp] theorem offerWord_cause (w : Word32) (s : State) : (offerWord s w).cause = s.cause := rfl
@[simp] theorem offerWord_bitrate (w : Word32) (s : State) : (offerWord s w).bitrate = s.bitrate := rfl
@[simp] theorem offerWord_hwfc (w : Word32) (s : State) : (offerWord s w).hwfc = s.hwfc := rfl
@[simp] theorem offerWord_rxFifo (w : Word32) (s : State) : (offerWord s w).rxFifo = s.rxFifo := rfl
@[simp] theorem offerWord_linkHup (w : Word32) (s : State) : (offerWord s w).linkHup = s.linkHup := rfl
@[simp] theorem offerWord_txQueue (w : Word32) (s : State) : (offerWord s w).txQueue = s.txQueue := rfl
@[simp] theorem offerWord_wire (w : Word32) (s : State) : (offerWord s w).wire = s.wire := rfl
@[simp] theorem offerWord_coreIn (w : Word32) (s : State) : (offerWord s w).coreIn = s.coreIn := rfl
@[simp] theorem offerWord_coreOut (w : Word32) (s : State) : (offerWord s w).coreOut = s.coreOut := rfl
@[simp] theorem offerWord_nowUs (w : Word32) (s : State) : (offerWord s w).nowUs = s.nowUs := rfl
@[simp] theorem offerWord_history (w : Word32) (s : State) : (offerWord s w).history = s.history := rfl
@[simp] theorem offerWord_moves (w : Word32) (s : State) : (offerWord s w).moves = .label (bareRecord w) :: s.moves := rfl
@[simp] theorem offerWord_freeCount (w : Word32) (s : State) : (offerWord s w).freeCount = s.freeCount := rfl

end Sys2Proof.Machine
end

