-- ==== Sys2Proof/Laws/Operations.lean ====
section
/-! SUPPORT. What each shared operation can do, said once: append and compaction, the header scan, the synchronizer's choice,
the I/O call of a phase, the fatal conditions, and the shapes of a label's outcome. -/

namespace Sys2Proof.Machine

/-! ### Shapes of an outcome -/

theorem stepIf_cases {b : Bool} {taken s t : State} (h : stepIf b taken s = .next t) :
    (b = true ∧ t = taken) ∨ (b = false ∧ t = s) := by
  simp only [stepIf, Host.Outcome.next.injEq] at h
  cases b
  · exact .inr ⟨rfl, by simpa using h.symm⟩
  · exact .inl ⟨rfl, by simpa using h.symm⟩

theorem stepIf_true (taken s : State) : stepIf true taken s = .next taken := rfl

theorem stepIf_false (taken s : State) : stepIf false taken s = .next s := rfl

theorem stepIf_of {b : Bool} {taken s : State} (h : b = true) : stepIf b taken s = .next taken := by rw [h]; rfl

theorem stepIf_of_not {b : Bool} {taken s : State} (h : b = false) : stepIf b taken s = .next s := by rw [h]; rfl

theorem inSync_cases {p : Params} {s t : State} {k : SyncChoice → Host.Outcome State Fault Refusal}
    (h : inSync p s k = .next t) :
    (s.pc ≠ .sync ∧ t = s) ∨ (s.pc = .sync ∧ ∃ c, syncChoice p s = .ok c ∧ k c = .next t) := by
  unfold inSync at h
  split at h
  · next hpc =>
    refine .inr ⟨hpc, ?_⟩
    split at h
    · simp at h
    · next c hc => exact ⟨c, hc, h⟩
  · next hpc => exact .inl ⟨hpc, by simpa using h.symm⟩

theorem inSync_of {p : Params} {s : State} {k : SyncChoice → Host.Outcome State Fault Refusal} {c : SyncChoice}
    (hpc : s.pc = .sync) (hc : syncChoice p s = .ok c) : inSync p s k = k c := by
  simp [inSync, hpc, hc]

theorem inSync_elsewhere {p : Params} {s : State} {k : SyncChoice → Host.Outcome State Fault Refusal}
    (hpc : s.pc ≠ .sync) : inSync p s k = .next s := by
  simp [inSync, hpc]

theorem afterCompact_cases {k : Nat} {s t : State} {f : State → State} (h : afterCompact k s f = .next t) :
    ∃ s', compact k s = .ok s' ∧ t = f s' := by
  unfold afterCompact at h
  split at h
  · simp at h
  · next s' hs => exact ⟨s', hs, by simpa using h.symm⟩

/-! ### Append and compaction -/

theorem append_of_fits {p : Params} {chunk : List Byte} {s : State} (h : chunk.length ≤ p.cap - s.head) :
    append p chunk s =
      .ok { s with buf := memWriteBytes s.buf s.head chunk, head := s.head + chunk.length } := by
  unfold append
  rw [if_neg (by omega)]

theorem append_overflow {p : Params} {chunk : List Byte} {s : State} (h : p.cap - s.head < chunk.length) :
    append p chunk s = .error .feedOverflow := by
  unfold append
  rw [if_pos h]

/-- Compaction (40_ingress.md R143): it changes `buf` and `head` only, and cell `a` holds what cell `a + k` held. -/
theorem compact_spec {k : Nat} {s : State} (hf : Filled s.buf s.head) (hk : k ≤ s.head) :
    ∃ m, compact k s = .ok { s with buf := m, head := s.head - k } ∧ Filled m (s.head - k) ∧
      ∀ a, a < s.head - k → memRead m a = memRead s.buf (a + k) := by
  obtain ⟨old, hold, hlen⟩ := hf.readBytes (a := k) (k := s.head - k) (by omega)
  obtain ⟨hfill, hread⟩ := filled_overwrite hf.1 old
  rw [hlen] at hfill hread
  refine ⟨memForget (memWriteBytes s.buf 0 old) (s.head - k), by simp [compact, hold], hfill, fun a ha => ?_⟩
  rw [hread, ← (memReadBytes_eq_some.1 hold).2 a ha, Nat.add_comm]

/-- Compaction of nothing changes nothing (R143). -/
theorem compact_zero {s : State} (hf : Filled s.buf s.head) : compact 0 s = .ok s := by
  obtain ⟨m, hc, hm, hr⟩ := compact_spec hf (Nat.zero_le _)
  have : m = s.buf := by
    refine memory_ext hm.1 hf.1 fun a => ?_
    by_cases ha : a < s.head
    · exact hr a (by omega)
    · rw [hm.read_none (by omega), hf.read_none (by omega)]
  rw [hc, this]
  rfl

/-- The bytes kept by a compaction. -/
theorem compact_bytes {k n : Nat} {s : State} {m : Memory} (hr : ∀ a, a < s.head - k → memRead m a = memRead s.buf (a + k))
    (i : Nat) (hi : i + n ≤ s.head - k) :
    memReadBytes m i n = memReadBytes s.buf (i + k) n :=
  memReadBytes_congr fun j hj => by rw [hr (i + j) (by omega)]; congr 1; omega

theorem compact_ok_frame {k : Nat} {s t : State} (h : compact k s = .ok t) :
    t = { s with buf := t.buf, head := s.head - k } := by
  unfold compact at h
  split at h
  · simp at h
  · simp only [Except.ok.injEq] at h
    rw [← h]

/-! ### The header scan -/

theorem findHeader_some {p : Params} {m : Memory} {i n j : Nat} :
    findHeader p m i n = .ok (some j) ↔
      i ≤ j ∧ j < i + n ∧ (∃ w, window p m j = some w ∧ headerValid p w = true) ∧
        ∀ l, i ≤ l → l < j → ∃ w, window p m l = some w ∧ headerValid p w = false := by
  induction n generalizing i with
  | zero =>
    simp only [findHeader]
    constructor
    · intro h; simp at h
    · rintro ⟨h1, h2, -⟩; omega
  | succ n ih =>
    simp only [findHeader]
    cases hw : window p m i with
    | none =>
      simp only [reduceCtorEq, false_iff]
      rintro ⟨h1, h2, ⟨w, hjw, hv⟩, h4⟩
      by_cases hij : i = j
      · subst hij; simp [hw] at hjw
      · obtain ⟨w', hw', -⟩ := h4 i (Nat.le_refl _) (by omega)
        simp [hw] at hw'
    | some w =>
      by_cases hv : headerValid p w = true
      · simp only [hv, if_true, Except.ok.injEq, Option.some.injEq]
        constructor
        · rintro rfl
          exact ⟨Nat.le_refl _, by omega, ⟨w, hw, hv⟩, fun l h1 h2 => by omega⟩
        · rintro ⟨h1, h2, -, h4⟩
          by_contra hij
          obtain ⟨w', hw', hv'⟩ := h4 i (Nat.le_refl _) (by omega)
          rw [hw] at hw'
          obtain rfl := Option.some.inj hw'
          simp [hv] at hv'
      · have hvf : headerValid p w = false := by simpa using hv
        simp only [hvf, if_false, Bool.false_eq_true, ih]
        constructor
        · rintro ⟨h1, h2, h3, h4⟩
          refine ⟨by omega, by omega, h3, fun l hl hlj => ?_⟩
          by_cases hli : l = i
          · subst hli; exact ⟨w, hw, hvf⟩
          · exact h4 l (by omega) hlj
        · rintro ⟨h1, h2, h3, h4⟩
          have hij : i ≠ j := by
            rintro rfl
            obtain ⟨w', hw', hv'⟩ := h3
            rw [hw] at hw'
            obtain rfl := Option.some.inj hw'
            exact hv hv'
          exact ⟨by omega, by omega, h3, fun l hl hlj => h4 l (by omega) hlj⟩

theorem findHeader_none {p : Params} {m : Memory} {i n : Nat} :
    findHeader p m i n = .ok none ↔
      ∀ l, i ≤ l → l < i + n → ∃ w, window p m l = some w ∧ headerValid p w = false := by
  induction n generalizing i with
  | zero =>
    simp only [findHeader, true_iff]
    intro l h1 h2
    omega
  | succ n ih =>
    simp only [findHeader]
    cases hw : window p m i with
    | none =>
      simp only [reduceCtorEq, false_iff]
      intro h
      obtain ⟨w, hw', -⟩ := h i (Nat.le_refl _) (by omega)
      simp [hw] at hw'
    | some w =>
      by_cases hv : headerValid p w = true
      · simp only [hv, if_true, Except.ok.injEq, reduceCtorEq, false_iff]
        intro h
        obtain ⟨w', hw', hv'⟩ := h i (Nat.le_refl _) (by omega)
        rw [hw] at hw'
        obtain rfl := Option.some.inj hw'
        simp [hv] at hv'
      · have hvf : headerValid p w = false := by simpa using hv
        simp only [hvf, if_false, Bool.false_eq_true, ih]
        constructor
        · intro h l hl hln
          by_cases hli : l = i
          · subst hli; exact ⟨w, hw, hvf⟩
          · exact h l (by omega) (by omega)
        · intro h l hl hln
          exact h l (by omega) (by omega)

/-- With every window readable the scan answers. -/
theorem findHeader_ok {p : Params} {m : Memory} {i n : Nat} (h : ∀ l, i ≤ l → l < i + n → ∃ w, window p m l = some w) :
    ∃ r, findHeader p m i n = .ok r := by
  induction n generalizing i with
  | zero => exact ⟨none, rfl⟩
  | succ n ih =>
    obtain ⟨w, hw⟩ := h i (Nat.le_refl _) (by omega)
    simp only [findHeader, hw]
    split
    · exact ⟨_, rfl⟩
    · exact ih fun l h1 h2 => h l (by omega) (by omega)

/-! ### The synchronizer's choice (40_ingress.md R150) -/

section choice
variable {p : Params} {s : State}

theorem syncChoice_hdrWait : syncChoice p s = .ok .hdrWait ↔ s.sync = .seekingHeader ∧ s.head < p.H := by
  unfold syncChoice
  cases hs : s.sync <;> simp only [true_and, reduceCtorEq, false_and, iff_false]
  · split
    · next h => simp [h]
    · next h =>
      simp only [h, iff_false]
      split <;> simp
  · split
    · simp
    · split
      · simp
      · split
        · simp
        · split <;> simp

theorem syncChoice_hdrFound {i : Nat} :
    syncChoice p s = .ok (.hdrFound i) ↔ s.sync = .seekingHeader ∧ p.H ≤ s.head ∧ FirstHeaderAt p s i := by
  unfold syncChoice
  cases hs : s.sync <;> simp only [true_and, reduceCtorEq, false_and, iff_false]
  · split
    · next h =>
      simp only [Except.ok.injEq, reduceCtorEq, false_iff]
      rintro ⟨h1, -⟩
      omega
    · next h =>
      have key : findHeader p s.buf 0 (s.head - p.H + 1) = .ok (some i) ↔ FirstHeaderAt p s i := by
        rw [findHeader_some]
        constructor
        · rintro ⟨-, h2, h3, h4⟩
          exact ⟨by omega, h3, fun j hj => h4 j (Nat.zero_le _) hj⟩
        · rintro ⟨h2, h3, h4⟩
          exact ⟨Nat.zero_le _, by omega, h3, fun j _ hj => h4 j hj⟩
      rw [← key]
      split
      · next f hf => simp [hf]
      · next j hj => simp [hj]; omega
      · next hj => simp [hj]
  · split
    · simp
    · split
      · simp
      · split
        · simp
        · split <;> simp

theorem syncChoice_hdrFail :
    syncChoice p s = .ok .hdrFail ↔
      s.sync = .seekingHeader ∧ p.H ≤ s.head ∧ ∀ i, i + p.H ≤ s.head → InvalidAt p s i := by
  unfold syncChoice
  cases hs : s.sync <;> simp only [true_and, reduceCtorEq, false_and, iff_false]
  · split
    · next h =>
      simp only [Except.ok.injEq, reduceCtorEq, false_iff]
      rintro ⟨h1, -⟩
      omega
    · next h =>
      have key : findHeader p s.buf 0 (s.head - p.H + 1) = .ok none ↔ ∀ i, i + p.H ≤ s.head → InvalidAt p s i := by
        rw [findHeader_none]
        constructor
        · intro h1 i hi
          exact h1 i (Nat.zero_le _) (by omega)
        · intro h1 i _ hi
          exact h1 i (by omega)
      rw [← key]
      split
      · next f hf => simp [hf]
      · next j hj => simp [hj]
      · next hj => simp [hj]; omega
  · split
    · simp
    · split
      · simp
      · split
        · simp
        · split <;> simp

theorem syncChoice_payWait :
    syncChoice p s = .ok .payWait ↔
      s.sync = .seekingPayload ∧
        (s.head < p.H ∨ ∃ fs, Announces p s fs ∧ p.H ≤ s.head ∧ fs ≤ p.cap ∧ s.head < fs) := by
  unfold syncChoice
  cases hs : s.sync <;> simp only [true_and, reduceCtorEq, false_and, iff_false]
  · split
    · simp
    · split <;> simp
  · split
    · next h => simp [h]
    · next h =>
      simp only [h, false_or]
      cases hw : window p s.buf 0 with
      | none => simp [Announces, hw]
      | some w =>
        simp only [Announces, hw, Option.some.injEq, exists_eq_left']
        split
        · next h1 => simp; intros; omega
        · next h1 =>
          split
          · next h2 => simp; omega
          · next h2 => simp; intros; omega

theorem syncChoice_oversize :
    syncChoice p s = .ok .oversize ↔
      s.sync = .seekingPayload ∧ p.H ≤ s.head ∧ ∃ fs, Announces p s fs ∧ p.cap < fs := by
  unfold syncChoice
  cases hs : s.sync <;> simp only [true_and, reduceCtorEq, false_and, iff_false]
  · split
    · simp
    · split <;> simp
  · split
    · next h => simp; intros; omega
    · next h =>
      cases hw : window p s.buf 0 with
      | none => simp [Announces, hw]
      | some w =>
        simp only [Announces, hw, Option.some.injEq, exists_eq_left']
        split
        · next h1 => simp [h1]; omega
        · next h1 => split <;> simp <;> intros <;> omega

theorem syncChoice_frameEmit {fs : Nat} :
    syncChoice p s = .ok (.frameEmit fs) ↔
      s.sync = .seekingPayload ∧ p.H ≤ s.head ∧ Announces p s fs ∧ fs ≤ p.cap ∧ fs ≤ s.head := by
  unfold syncChoice
  cases hs : s.sync <;> simp only [true_and, reduceCtorEq, false_and, iff_false]
  · split
    · simp
    · split <;> simp
  · split
    · next h => simp; intros; omega
    · next h =>
      cases hw : window p s.buf 0 with
      | none => simp [Announces, hw]
      | some w =>
        simp only [Announces, hw, Option.some.injEq, exists_eq_left']
        split
        · next h1 => simp; intros; omega
        · next h1 =>
          split
          · next h2 => simp; intros; omega
          · next h2 =>
            simp only [Except.ok.injEq, SyncChoice.frameEmit.injEq]
            constructor
            · rintro rfl; exact ⟨by omega, rfl, by omega, by omega⟩
            · rintro ⟨-, rfl, -, -⟩; rfl

/-- With the buffer filled the choice is never a fault (10_state.md R33: "No rule of this spec reads beyond `head`"). -/
theorem syncChoice_ok (hf : Filled s.buf s.head) : ∃ c, syncChoice p s = .ok c := by
  unfold syncChoice
  cases hs : s.sync <;> simp only
  · split
    · exact ⟨_, rfl⟩
    · next h =>
      obtain ⟨r, hr⟩ := findHeader_ok (p := p) (m := s.buf) (i := 0) (n := s.head - p.H + 1) fun l _ hl => by
        obtain ⟨w, hw, -⟩ := hf.readBytes (a := l) (k := p.H) (by omega)
        exact ⟨w, hw⟩
      rw [hr]
      cases r <;> exact ⟨_, rfl⟩
  · split
    · exact ⟨_, rfl⟩
    · next h =>
      obtain ⟨w, hw, -⟩ := hf.readBytes (a := 0) (k := p.H) (by omega)
      simp only [window, hw]
      split
      · exact ⟨_, rfl⟩
      · split <;> exact ⟨_, rfl⟩

end choice

/-! ### I/O calls -/

/-- The call a state makes, by phase (00_scope.md R18, 42_dispatch_control.md R216). -/
theorem ioCall_some {p : Params} {s : State} {c : IoCall} :
    ioCall p s = .ok (some c) ↔
      (s.pc = .linkRead ∧ s.rxFifo ≠ [] ∧ s.head < p.cap ∧ c = .linkRead) ∨
      (s.pc = .sync ∧ ∃ fs, syncChoice p s = .ok (.frameEmit fs) ∧ coreSpace p s = true ∧ c = .frameEmit fs) ∨
      (s.pc = .coreRead ∧ c = .coreRead) ∨ (s.pc = .poll ∧ c = .depthPoll) ∨ (s.pc = .write ∧ c = .linkWrite) := by
  unfold ioCall
  cases hpc : s.pc <;> simp only [reduceCtorEq, false_and, false_or, or_false, true_and, Except.ok.injEq,
    Option.some.injEq, eq_comm (b := c)]
  · split <;> simp_all
    exact eq_comm
  · cases hc : syncChoice p s with
    | error f => simp
    | ok ch =>
      cases ch <;> simp only [Except.ok.injEq, reduceCtorEq, false_and, exists_false, SyncChoice.frameEmit.injEq]
      · next fs =>
        split
        · next h => simpa [h] using eq_comm
        · next h => simp [h]

theorem makesCall_true {p : Params} {s : State} {accept : IoCall → Bool} :
    makesCall p s accept = .ok true ↔ ∃ c, ioCall p s = .ok (some c) ∧ accept c = true := by
  unfold makesCall
  split
  · next f hf => simp [hf]
  · next hf => simp [hf]
  · next c hc => simp [hc]

/-- With the buffer filled no call's condition is a fault. -/
theorem makesCall_ok {p : Params} {s : State} (accept : IoCall → Bool) (hf : Filled s.buf s.head) :
    ∃ b, makesCall p s accept = .ok b := by
  have : ∃ r, ioCall p s = .ok r := by
    unfold ioCall
    obtain ⟨c, hc⟩ := syncChoice_ok (p := p) hf
    cases hpc : s.pc <;> simp only [hc] <;> try exact ⟨_, rfl⟩
    cases c <;> exact ⟨_, rfl⟩
  obtain ⟨r, hr⟩ := this
  unfold makesCall
  rw [hr]
  cases r <;> exact ⟨_, rfl⟩

theorem oversizeHeader_true {p : Params} {s : State} :
    oversizeHeader p s = .ok true ↔ s.pc = .sync ∧ syncChoice p s = .ok .oversize := by
  unfold oversizeHeader
  split
  · next h =>
    cases hc : syncChoice p s with
    | error f => simp
    | ok c => simp [h]
  · next h => simp [h]

/-- With the buffer filled no fatal condition is a fault. -/
theorem fatalCondition_ok {p : Params} {s : State} (c : Cause) (hf : Filled s.buf s.head) :
    ∃ b, fatalCondition p c s = .ok b := by
  cases c <;> simp only [fatalCondition] <;>
    first
    | exact makesCall_ok _ hf
    | exact ⟨_, rfl⟩
    | (unfold oversizeHeader
       obtain ⟨c, hc⟩ := syncChoice_ok (p := p) hf
       rw [hc]
       split <;> exact ⟨_, rfl⟩)

/-! ### Cause codes -/

theorem ofCode?_code (c : Cause) : Cause.ofCode? c.code = some c := by
  cases c <;> decide

theorem code_of_ofCode? {code : Byte} {c : Cause} (h : Cause.ofCode? code = some c) : code = c.code := by
  have := List.find?_some h
  simpa using (beq_iff_eq.1 this).symm

end Sys2Proof.Machine
end

