-- ==== Sys2Proof/Laws/Meanings.lean ====
section
/-! SUPPORT. What every label does, said once: `Effect` lists, label by label, the condition under which it is enabled and the
state its step gives; `exec_cases` says that a next state is an effect or the label held, `exec_of_effect` that an effect is
the answer. Invariants are proved from these two and unfold no meaning. -/

namespace Sys2Proof.Machine

/-- The step of a label from `s` to `t`, as its rule gives it. -/
def Effect (p : Params) (s t : State) : Instr → Prop
  | .linkRead r =>
    s.pc = .linkRead ∧ 1 ≤ r ∧ r ≤ readRequest p s ∧
      t = emit (.linkRead r) []
        { s with
          buf := memWriteBytes s.buf s.head (s.rxFifo.take r), head := s.head + r
          rxFifo := s.rxFifo.drop r, pc := .sync }
  | .hdrFound i =>
    s.pc = .sync ∧ syncChoice p s = .ok (.hdrFound i) ∧
      ∃ s', compact i s = .ok s' ∧ t = emit (.hdrFound i) [] { s' with sync := .seekingPayload }
  | .hdrFail n =>
    s.pc = .sync ∧ syncChoice p s = .ok .hdrFail ∧ n = s.head - (p.H - 1) ∧
      ∃ s', compact n s = .ok s' ∧ t = completeHandler (emit (.hdrFail n) [] s')
  | .hdrWait h =>
    s.pc = .sync ∧ syncChoice p s = .ok .hdrWait ∧ h = s.head ∧ t = completeHandler (emit (.hdrWait h) [] s)
  | .payWait h =>
    s.pc = .sync ∧ syncChoice p s = .ok .payWait ∧ h = s.head ∧ t = completeHandler (emit (.payWait h) [] s)
  | .frameEmit fs =>
    s.pc = .sync ∧ syncChoice p s = .ok (.frameEmit fs) ∧ coreSpace p s = true ∧
      ∃ frame s', memReadBytes s.buf 0 fs = some frame ∧ compact fs s = .ok s' ∧
        t = emit (.frameEmit fs) frame { s' with coreOut := s.coreOut ++ [frame], sync := .seekingHeader }
  | .coreRead len =>
    ∃ m rest, s.coreIn = m :: rest ∧ s.pc = .coreRead ∧ m ≠ [] ∧ len = min m.length p.txMax ∧
      t = emit (.coreRead len) (m.take p.txMax) { loadMessage p m s with coreIn := rest, pc := .poll }
  | .depthPoll d =>
    s.pc = .poll ∧ d = s.txQueue.length ∧
      t = emit (.depthPoll d) []
        { s with
          egSleepUs := pollSleepUs p d s.bitrate, egDeadline := s.nowUs + pollSleepUs p d s.bitrate
          pc := if 0 < d then .sleepDrain else .gap }
  | .drainSleep us =>
    s.pc = .sleepDrain ∧ s.egDeadline ≤ s.nowUs ∧ us = s.egSleepUs ∧ t = emit (.drainSleep us) [] { s with pc := .poll }
  | .idleGap us =>
    s.pc = .gap ∧ s.egDeadline ≤ s.nowUs ∧ us = s.egSleepUs ∧ t = emit (.idleGap us) [] { s with pc := .write }
  | .linkWrite len =>
    s.pc = .write ∧ len = s.egLen ∧ ∃ bytes, memReadBytes s.egMsg 0 s.egLen = some bytes ∧
      t = completeHandler (emit (.linkWrite len) bytes { s with txQueue := s.txQueue ++ bytes })
  | .waitWake mask =>
    s.pc = .wait ∧ mask ≠ 0 ∧ mask = readyMask s ∧
      t = emit (.waitWake mask) [] { s with pending := Pending.ofMask mask, pc := .dispatch }
  | .waitEintr => s.pc = .wait ∧ t = emit .waitEintr [] s
  | .dispatchLink =>
    s.pc = .dispatch ∧ s.pending.link = true ∧ ¬ (p.dispatchOrder = .coreFirst ∧ s.pending.core = true) ∧
      t = emit .dispatchLink [] { s with pending := { s.pending with link := false }, pc := .linkRead }
  | .dispatchCore =>
    s.pc = .dispatch ∧ s.pending.core = true ∧ ¬ (p.dispatchOrder = .linkFirst ∧ s.pending.link = true) ∧
      t = emit .dispatchCore [] { s with pending := { s.pending with core := false }, pc := .coreRead }
  | .ioRetry op => (∃ c, ioCall p s = .ok (some c) ∧ c.opcode.code = op) ∧ t = emit (.ioRetry op) [] s
  | .cfgBitrate rate => t = emit (.cfgBitrate rate) [] (if s.run = .idle then { s with bitrate := rate } else s)
  | .cfgFlowctl f => t = emit (.cfgFlowctl f) [] (if s.run = .idle then { s with hwfc := f } else s)
  | .start => s.pc = .reset ∧ rateSupported p s.bitrate = true ∧ t = started s
  | .fatal code => ∃ c, code = c.code ∧ fatalCondition p c s = .ok true ∧ t = raiseFatal c s
  | .reset => t = resetBlock s
  | .envRx b =>
    ¬ (s.hwfc = true ∧ s.rxFifo.length = p.rxFifoDepth) ∧
      t = emit (.envRx b) []
        { s with rxFifo := if s.rxFifo.length < p.rxFifoDepth then s.rxFifo ++ [b] else s.rxFifo }
  | .envTxDrain k =>
    1 ≤ k ∧ k ≤ s.txQueue.length ∧
      t = emit (.envTxDrain k) []
        { s with
          wire := s.wire ++ (s.txQueue.take k).map (fun b => (s.nowUs, b)), txQueue := s.txQueue.drop k }
  | .envCoreSend m => t = emit (.envCoreSend m) m { s with coreIn := s.coreIn ++ [m] }
  | .envCoreRecv n =>
    ∃ frame rest, s.coreOut = frame :: rest ∧ n = frame.length ∧
      t = emit (.envCoreRecv n) frame { s with coreOut := rest }
  | .envTick u => 1 ≤ u ∧ t = emit (.envTick u) [] { s with nowUs := s.nowUs + u }
  | .envLinkHup => s.linkHup = false ∧ t = emit .envLinkHup [] { s with linkHup := true }

section ops
variable {p : Params} {s t : State}

/-- A link read never appends more than the remaining space, so `Append` raises nothing (40_ingress.md R169). -/
theorem append_of_readRequest {r : Nat} (hr : r ≤ readRequest p s) :
    append p (s.rxFifo.take r) s =
      .ok { s with buf := memWriteBytes s.buf s.head (s.rxFifo.take r), head := s.head + r } := by
  have h1 : r ≤ s.rxFifo.length ∧ r ≤ p.cap - s.head := by simpa [readRequest] using hr
  have h2 : (s.rxFifo.take r).length = r := by simp [h1.1]
  rw [append_of_fits (by omega), h2]

theorem linkReadOp_cases {r : Nat} (h : linkReadOp p r s = .next t) : t = s ∨ Effect p s t (.linkRead r) := by
  rcases stepIf_cases h with ⟨hb, rfl⟩ | ⟨-, rfl⟩
  · simp only [Bool.and_eq_true, decide_eq_true_eq] at hb
    refine .inr ⟨hb.1.1, hb.1.2, hb.2, ?_⟩
    rw [append_of_readRequest hb.2]
  · exact .inl rfl

theorem linkReadOp_of {r : Nat} (h : Effect p s t (.linkRead r)) : linkReadOp p r s = .next t := by
  obtain ⟨h1, h2, h3, rfl⟩ := h
  unfold linkReadOp
  rw [stepIf_of (by simp [h1, h2, h3]), append_of_readRequest h3]

theorem hdrFoundOp_cases {i : Nat} (h : hdrFoundOp p i s = .next t) : t = s ∨ Effect p s t (.hdrFound i) := by
  rcases inSync_cases h with ⟨-, rfl⟩ | ⟨hpc, c, hc, hk⟩
  · exact .inl rfl
  · split at hk
    · next hci =>
      obtain ⟨s', hs', rfl⟩ := afterCompact_cases hk
      exact .inr ⟨hpc, hci ▸ hc, s', hs', rfl⟩
    · exact .inl (by simpa using hk.symm)

theorem hdrFoundOp_of {i : Nat} (h : Effect p s t (.hdrFound i)) : hdrFoundOp p i s = .next t := by
  obtain ⟨h1, h2, s', h3, rfl⟩ := h
  rw [hdrFoundOp, inSync_of h1 h2]
  simp [afterCompact, h3]

theorem hdrFailOp_cases {n : Nat} (h : hdrFailOp p n s = .next t) : t = s ∨ Effect p s t (.hdrFail n) := by
  rcases inSync_cases h with ⟨-, rfl⟩ | ⟨hpc, c, hc, hk⟩
  · exact .inl rfl
  · split at hk
    · next hci =>
      obtain ⟨s', hs', rfl⟩ := afterCompact_cases hk
      exact .inr ⟨hpc, hci.1 ▸ hc, hci.2, s', hs', rfl⟩
    · exact .inl (by simpa using hk.symm)

theorem hdrFailOp_of {n : Nat} (h : Effect p s t (.hdrFail n)) : hdrFailOp p n s = .next t := by
  obtain ⟨h1, h2, rfl, s', h3, rfl⟩ := h
  rw [hdrFailOp, inSync_of h1 h2]
  simp [afterCompact, h3]

theorem hdrWaitOp_cases {n : Nat} (h : hdrWaitOp p n s = .next t) : t = s ∨ Effect p s t (.hdrWait n) := by
  rcases inSync_cases h with ⟨-, rfl⟩ | ⟨hpc, c, hc, hk⟩
  · exact .inl rfl
  · rcases stepIf_cases hk with ⟨hb, rfl⟩ | ⟨-, rfl⟩
    · simp only [Bool.and_eq_true, decide_eq_true_eq] at hb
      exact .inr ⟨hpc, hb.1 ▸ hc, hb.2, rfl⟩
    · exact .inl rfl

theorem hdrWaitOp_of {n : Nat} (h : Effect p s t (.hdrWait n)) : hdrWaitOp p n s = .next t := by
  obtain ⟨h1, h2, h3, rfl⟩ := h
  rw [hdrWaitOp, inSync_of h1 h2, stepIf_of (by simp [h3])]

theorem payWaitOp_cases {n : Nat} (h : payWaitOp p n s = .next t) : t = s ∨ Effect p s t (.payWait n) := by
  rcases inSync_cases h with ⟨-, rfl⟩ | ⟨hpc, c, hc, hk⟩
  · exact .inl rfl
  · rcases stepIf_cases hk with ⟨hb, rfl⟩ | ⟨-, rfl⟩
    · simp only [Bool.and_eq_true, decide_eq_true_eq] at hb
      exact .inr ⟨hpc, hb.1 ▸ hc, hb.2, rfl⟩
    · exact .inl rfl

theorem payWaitOp_of {n : Nat} (h : Effect p s t (.payWait n)) : payWaitOp p n s = .next t := by
  obtain ⟨h1, h2, h3, rfl⟩ := h
  rw [payWaitOp, inSync_of h1 h2, stepIf_of (by simp [h3])]

theorem frameEmitOp_cases {fs : Nat} (h : frameEmitOp p fs s = .next t) : t = s ∨ Effect p s t (.frameEmit fs) := by
  rcases inSync_cases h with ⟨-, rfl⟩ | ⟨hpc, c, hc, hk⟩
  · exact .inl rfl
  · split at hk
    · next hci =>
      split at hk
      · simp at hk
      · next frame hframe =>
        obtain ⟨s', hs', rfl⟩ := afterCompact_cases hk
        exact .inr ⟨hpc, hci.1 ▸ hc, hci.2, frame, s', hframe, hs', rfl⟩
    · exact .inl (by simpa using hk.symm)

theorem frameEmitOp_of {fs : Nat} (h : Effect p s t (.frameEmit fs)) : frameEmitOp p fs s = .next t := by
  obtain ⟨h1, h2, h3, frame, s', h4, h5, rfl⟩ := h
  rw [frameEmitOp, inSync_of h1 h2]
  simp [afterCompact, h3, h4, h5]

theorem coreReadOp_cases {len : Nat} (h : coreReadOp p len s = .next t) : t = s ∨ Effect p s t (.coreRead len) := by
  unfold coreReadOp at h
  split at h
  · exact .inl (by simpa using h.symm)
  · next m rest hm =>
    rcases stepIf_cases h with ⟨hb, rfl⟩ | ⟨-, rfl⟩
    · simp only [Bool.and_eq_true, decide_eq_true_eq] at hb
      exact .inr ⟨m, rest, hm, hb.1.1, hb.1.2, hb.2, rfl⟩
    · exact .inl rfl

theorem coreReadOp_of {len : Nat} (h : Effect p s t (.coreRead len)) : coreReadOp p len s = .next t := by
  obtain ⟨m, rest, hm, h1, h2, h3, rfl⟩ := h
  unfold coreReadOp
  rw [hm]
  exact stepIf_of (by simp [h1, h2, h3])

theorem depthPollOp_cases {d : Nat} (h : depthPollOp p d s = .next t) : t = s ∨ Effect p s t (.depthPoll d) := by
  rcases stepIf_cases h with ⟨hb, rfl⟩ | ⟨-, rfl⟩
  · simp only [Bool.and_eq_true, decide_eq_true_eq] at hb
    exact .inr ⟨hb.1, hb.2, rfl⟩
  · exact .inl rfl

theorem depthPollOp_of {d : Nat} (h : Effect p s t (.depthPoll d)) : depthPollOp p d s = .next t := by
  obtain ⟨h1, h2, rfl⟩ := h
  exact stepIf_of (by simp [h1, h2])

theorem drainSleepOp_cases {us : Nat} (h : drainSleepOp us s = .next t) : t = s ∨ Effect p s t (.drainSleep us) := by
  rcases stepIf_cases h with ⟨hb, rfl⟩ | ⟨-, rfl⟩
  · simp only [Bool.and_eq_true, decide_eq_true_eq] at hb
    exact .inr ⟨hb.1.1, hb.1.2, hb.2, rfl⟩
  · exact .inl rfl

theorem drainSleepOp_of {us : Nat} (h : Effect p s t (.drainSleep us)) : drainSleepOp us s = .next t := by
  obtain ⟨h1, h2, h3, rfl⟩ := h
  exact stepIf_of (by simp [h1, h2, h3])

theorem idleGapOp_cases {us : Nat} (h : idleGapOp us s = .next t) : t = s ∨ Effect p s t (.idleGap us) := by
  rcases stepIf_cases h with ⟨hb, rfl⟩ | ⟨-, rfl⟩
  · simp only [Bool.and_eq_true, decide_eq_true_eq] at hb
    exact .inr ⟨hb.1.1, hb.1.2, hb.2, rfl⟩
  · exact .inl rfl

theorem idleGapOp_of {us : Nat} (h : Effect p s t (.idleGap us)) : idleGapOp us s = .next t := by
  obtain ⟨h1, h2, h3, rfl⟩ := h
  exact stepIf_of (by simp [h1, h2, h3])

theorem linkWriteOp_cases {len : Nat} (h : linkWriteOp len s = .next t) : t = s ∨ Effect p s t (.linkWrite len) := by
  unfold linkWriteOp at h
  split at h
  · next hc =>
    split at h
    · simp at h
    · next bytes hb => exact .inr ⟨hc.1, hc.2, bytes, hb, by simpa using h.symm⟩
  · exact .inl (by simpa using h.symm)

theorem linkWriteOp_of {len : Nat} (h : Effect p s t (.linkWrite len)) : linkWriteOp len s = .next t := by
  obtain ⟨h1, h2, bytes, h3, rfl⟩ := h
  simp [linkWriteOp, h1, h2, h3]

theorem waitWakeOp_cases {mask : BitVec 2} (h : waitWakeOp mask s = .next t) : t = s ∨ Effect p s t (.waitWake mask) := by
  rcases stepIf_cases h with ⟨hb, rfl⟩ | ⟨-, rfl⟩
  · simp only [Bool.and_eq_true, decide_eq_true_eq] at hb
    exact .inr ⟨hb.1.1, hb.1.2, hb.2, rfl⟩
  · exact .inl rfl

theorem waitWakeOp_of {mask : BitVec 2} (h : Effect p s t (.waitWake mask)) : waitWakeOp mask s = .next t := by
  obtain ⟨h1, h2, h3, rfl⟩ := h
  exact stepIf_of (by simp only [h1, h2, ← h3, decide_true, Bool.and_self, ne_eq, not_false_eq_true])

theorem waitEintrOp_cases (h : waitEintrOp s = .next t) : t = s ∨ Effect p s t .waitEintr := by
  rcases stepIf_cases h with ⟨hb, rfl⟩ | ⟨-, rfl⟩
  · exact .inr ⟨by simpa using hb, rfl⟩
  · exact .inl rfl

theorem waitEintrOp_of (h : Effect p s t .waitEintr) : waitEintrOp s = .next t := by
  obtain ⟨h1, rfl⟩ := h
  exact stepIf_of (by simp [h1])

theorem dispatchLinkOp_cases (h : dispatchLinkOp p s = .next t) : t = s ∨ Effect p s t .dispatchLink := by
  rcases stepIf_cases h with ⟨hb, rfl⟩ | ⟨-, rfl⟩
  · simp only [Bool.and_eq_true, decide_eq_true_eq, Bool.not_eq_true', Bool.and_eq_false_iff, decide_eq_false_iff_not] at hb
    refine .inr ⟨hb.1.1, hb.1.2, ?_, rfl⟩
    rintro ⟨h1, h2⟩
    rcases hb.2 with h | h
    · simp [h2] at h
    · exact h h1
  · exact .inl rfl

theorem dispatchLinkOp_of (h : Effect p s t .dispatchLink) : dispatchLinkOp p s = .next t := by
  obtain ⟨h1, h2, h3, rfl⟩ := h
  exact stepIf_of (by cases hc : s.pending.core <;> simp_all)

theorem dispatchCoreOp_cases (h : dispatchCoreOp p s = .next t) : t = s ∨ Effect p s t .dispatchCore := by
  rcases stepIf_cases h with ⟨hb, rfl⟩ | ⟨-, rfl⟩
  · simp only [Bool.and_eq_true, decide_eq_true_eq, Bool.not_eq_true', Bool.and_eq_false_iff, decide_eq_false_iff_not] at hb
    refine .inr ⟨hb.1.1, hb.1.2, ?_, rfl⟩
    rintro ⟨h1, h2⟩
    rcases hb.2 with h | h
    · simp [h2] at h
    · exact h h1
  · exact .inl rfl

theorem dispatchCoreOp_of (h : Effect p s t .dispatchCore) : dispatchCoreOp p s = .next t := by
  obtain ⟨h1, h2, h3, rfl⟩ := h
  exact stepIf_of (by cases hl : s.pending.link <;> simp_all)

theorem ioRetryOp_cases {op : Byte} (h : ioRetryOp p op s = .next t) : t = s ∨ Effect p s t (.ioRetry op) := by
  unfold ioRetryOp at h
  split at h
  · simp at h
  · next made hm =>
    rcases stepIf_cases h with ⟨rfl, rfl⟩ | ⟨-, rfl⟩
    · obtain ⟨c, hc, ha⟩ := makesCall_true.1 hm
      exact .inr ⟨⟨c, hc, by simpa using ha⟩, rfl⟩
    · exact .inl rfl

theorem ioRetryOp_of {op : Byte} (h : Effect p s t (.ioRetry op)) : ioRetryOp p op s = .next t := by
  obtain ⟨⟨c, hc, ha⟩, rfl⟩ := h
  have : makesCall p s (fun call => call.opcode.code = op) = .ok true := makesCall_true.2 ⟨c, hc, by simpa using ha⟩
  simp only [ioRetryOp, this]
  rfl

theorem startOp_cases (h : startOp p s = .next t) : t = s ∨ Effect p s t .start := by
  rcases stepIf_cases h with ⟨hb, rfl⟩ | ⟨-, rfl⟩
  · simp only [Bool.and_eq_true, decide_eq_true_eq] at hb
    exact .inr ⟨hb.1, hb.2, rfl⟩
  · exact .inl rfl

theorem startOp_of (h : Effect p s t .start) : startOp p s = .next t := by
  obtain ⟨h1, h2, rfl⟩ := h
  exact stepIf_of (by simp [h1, h2])

theorem fatalOp_cases {code : Byte} (h : fatalOp p code s = .next t) : t = s ∨ Effect p s t (.fatal code) := by
  unfold fatalOp at h
  split at h
  · exact .inl (by simpa using h.symm)
  · next c hc =>
    split at h
    · simp at h
    · next b hb =>
      rcases stepIf_cases h with ⟨rfl, rfl⟩ | ⟨-, rfl⟩
      · exact .inr ⟨c, code_of_ofCode? hc, hb, rfl⟩
      · exact .inl rfl

theorem fatalOp_of {code : Byte} (h : Effect p s t (.fatal code)) : fatalOp p code s = .next t := by
  obtain ⟨c, rfl, hc, rfl⟩ := h
  simp only [fatalOp, ofCode?_code, hc]
  rfl

theorem envRxOp_cases {b : Byte} (h : envRxOp p b s = .next t) : t = s ∨ Effect p s t (.envRx b) := by
  rcases stepIf_cases h with ⟨hb, rfl⟩ | ⟨-, rfl⟩
  · refine .inr ⟨?_, rfl⟩
    rintro ⟨h1, h2⟩
    simp [h1, h2] at hb
  · exact .inl rfl

theorem envRxOp_of {b : Byte} (h : Effect p s t (.envRx b)) : envRxOp p b s = .next t := by
  obtain ⟨h1, rfl⟩ := h
  exact stepIf_of (by cases hw : s.hwfc <;> simp_all)

theorem envTxDrainOp_cases {k : Nat} (h : envTxDrainOp k s = .next t) : t = s ∨ Effect p s t (.envTxDrain k) := by
  rcases stepIf_cases h with ⟨hb, rfl⟩ | ⟨-, rfl⟩
  · simp only [Bool.and_eq_true, decide_eq_true_eq] at hb
    exact .inr ⟨hb.1, hb.2, rfl⟩
  · exact .inl rfl

theorem envTxDrainOp_of {k : Nat} (h : Effect p s t (.envTxDrain k)) : envTxDrainOp k s = .next t := by
  obtain ⟨h1, h2, rfl⟩ := h
  exact stepIf_of (by simp [h1, h2])

theorem envCoreRecvOp_cases {n : Nat} (h : envCoreRecvOp n s = .next t) : t = s ∨ Effect p s t (.envCoreRecv n) := by
  unfold envCoreRecvOp at h
  split at h
  · exact .inl (by simpa using h.symm)
  · next frame rest hf =>
    rcases stepIf_cases h with ⟨hb, rfl⟩ | ⟨-, rfl⟩
    · exact .inr ⟨frame, rest, hf, by simpa using hb, rfl⟩
    · exact .inl rfl

theorem envCoreRecvOp_of {n : Nat} (h : Effect p s t (.envCoreRecv n)) : envCoreRecvOp n s = .next t := by
  obtain ⟨frame, rest, hf, hn, rfl⟩ := h
  unfold envCoreRecvOp
  rw [hf]
  exact stepIf_of (by simp [hn])

theorem envTickOp_cases {u : Nat} (h : envTickOp u s = .next t) : t = s ∨ Effect p s t (.envTick u) := by
  rcases stepIf_cases h with ⟨hb, rfl⟩ | ⟨-, rfl⟩
  · exact .inr ⟨by simpa using hb, rfl⟩
  · exact .inl rfl

theorem envTickOp_of {u : Nat} (h : Effect p s t (.envTick u)) : envTickOp u s = .next t := by
  obtain ⟨h1, rfl⟩ := h
  exact stepIf_of (by simp [h1])

theorem envLinkHupOp_cases (h : envLinkHupOp s = .next t) : t = s ∨ Effect p s t .envLinkHup := by
  rcases stepIf_cases h with ⟨hb, rfl⟩ | ⟨-, rfl⟩
  · exact .inr ⟨by simpa using hb, rfl⟩
  · exact .inl rfl

theorem envLinkHupOp_of (h : Effect p s t .envLinkHup) : envLinkHupOp s = .next t := by
  obtain ⟨h1, rfl⟩ := h
  exact stepIf_of (by simp [h1])

end ops

/-- A next state is the label's effect, or the label held. -/
theorem execAt_cases {p : Params} {i : Instr} {s t : State} (h : execAt p i s = .next t) : t = s ∨ Effect p s t i := by
  cases i with
  | linkRead r => exact linkReadOp_cases h
  | hdrFound k => exact hdrFoundOp_cases h
  | hdrFail n => exact hdrFailOp_cases h
  | hdrWait n => exact hdrWaitOp_cases h
  | payWait n => exact payWaitOp_cases h
  | frameEmit fs => exact frameEmitOp_cases h
  | coreRead len => exact coreReadOp_cases h
  | depthPoll d => exact depthPollOp_cases h
  | drainSleep us => exact drainSleepOp_cases h
  | idleGap us => exact idleGapOp_cases h
  | linkWrite len => exact linkWriteOp_cases h
  | waitWake mask => exact waitWakeOp_cases h
  | waitEintr => exact waitEintrOp_cases h
  | dispatchLink => exact dispatchLinkOp_cases h
  | dispatchCore => exact dispatchCoreOp_cases h
  | ioRetry op => exact ioRetryOp_cases h
  | cfgBitrate rate => exact .inr (Host.Outcome.next.inj h).symm
  | cfgFlowctl f => exact .inr (Host.Outcome.next.inj h).symm
  | start => exact startOp_cases h
  | fatal code => exact fatalOp_cases h
  | reset => exact .inr (Host.Outcome.next.inj h).symm
  | envRx b => exact envRxOp_cases h
  | envTxDrain k => exact envTxDrainOp_cases h
  | envCoreSend m => exact .inr (Host.Outcome.next.inj h).symm
  | envCoreRecv n => exact envCoreRecvOp_cases h
  | envTick u => exact envTickOp_cases h
  | envLinkHup => exact envLinkHupOp_cases h

/-- A label's effect is its answer. -/
theorem execAt_of_effect {p : Params} {i : Instr} {s t : State} (h : Effect p s t i) : execAt p i s = .next t := by
  cases i with
  | linkRead r => exact linkReadOp_of h
  | hdrFound k => exact hdrFoundOp_of h
  | hdrFail n => exact hdrFailOp_of h
  | hdrWait n => exact hdrWaitOp_of h
  | payWait n => exact payWaitOp_of h
  | frameEmit fs => exact frameEmitOp_of h
  | coreRead len => exact coreReadOp_of h
  | depthPoll d => exact depthPollOp_of h
  | drainSleep us => exact drainSleepOp_of h
  | idleGap us => exact idleGapOp_of h
  | linkWrite len => exact linkWriteOp_of h
  | waitWake mask => exact waitWakeOp_of h
  | waitEintr => exact waitEintrOp_of h
  | dispatchLink => exact dispatchLinkOp_of h
  | dispatchCore => exact dispatchCoreOp_of h
  | ioRetry op => exact ioRetryOp_of h
  | cfgBitrate rate => exact congrArg _ h.symm
  | cfgFlowctl f => exact congrArg _ h.symm
  | start => exact startOp_of h
  | fatal code => exact fatalOp_of h
  | reset => exact congrArg _ h.symm
  | envRx b => exact envRxOp_of h
  | envTxDrain k => exact envTxDrainOp_of h
  | envCoreSend m => exact congrArg _ h.symm
  | envCoreRecv n => exact envCoreRecvOp_of h
  | envTick u => exact envTickOp_of h
  | envLinkHup => exact envLinkHupOp_of h

/-- `exec` is the labels' meanings at the machine's parameters. -/
theorem exec_eq_execAt (i : Instr) (s : State) : exec i s = execAt Config.params i s := by
  cases i <;> rfl

/-- A next state of the machine is the label's effect, or the label held. -/
theorem exec_cases {i : Instr} {s t : State} (h : exec i s = .next t) : t = s ∨ Effect Config.params s t i :=
  execAt_cases (exec_eq_execAt i s ▸ h)

/-- A label's effect is the machine's answer. -/
theorem exec_of_effect {i : Instr} {s t : State} (h : Effect Config.params s t i) : exec i s = .next t :=
  (exec_eq_execAt i s).trans (execAt_of_effect h)

/-! ### When a label answers, and when it holds -/

section answers
variable {p : Params} {s : State}

theorem inSync_answers {k : SyncChoice → Host.Outcome State Fault Refusal} (hf : Filled s.buf s.head)
    (hk : ∀ c, syncChoice p s = .ok c → ∃ t, k c = .next t) : ∃ t, inSync p s k = .next t := by
  unfold inSync
  split
  · obtain ⟨c, hc⟩ := syncChoice_ok (p := p) hf
    rw [hc]
    exact hk c hc
  · exact ⟨_, rfl⟩

theorem afterCompact_answers {k : Nat} {f : State → State} (hf : Filled s.buf s.head) (hk : k ≤ s.head) :
    ∃ t, afterCompact k s f = .next t := by
  obtain ⟨m, hm, -⟩ := compact_spec hf hk
  exact ⟨_, by unfold afterCompact; rw [hm]⟩

/-- With the buffers filled every label answers a next state. -/
theorem execAt_answers (i : Instr) (hf : Filled s.buf s.head) (hm : (∃ len, i = .linkWrite len) → Filled s.egMsg s.egLen) :
    ∃ t, execAt p i s = .next t := by
  cases i with
  | hdrFound i =>
    refine inSync_answers hf fun c hc => ?_
    split
    · next h =>
      subst h
      obtain ⟨h1, h2, h3, -⟩ := syncChoice_hdrFound.1 hc
      exact afterCompact_answers hf (by omega)
    · exact ⟨_, rfl⟩
  | hdrFail i =>
    refine inSync_answers hf fun c hc => ?_
    split
    · exact afterCompact_answers hf (by omega)
    · exact ⟨_, rfl⟩
  | hdrWait i => exact inSync_answers hf fun c hc => ⟨_, rfl⟩
  | payWait i => exact inSync_answers hf fun c hc => ⟨_, rfl⟩
  | frameEmit fs =>
    refine inSync_answers hf fun c hc => ?_
    split
    · next h =>
      obtain ⟨rfl, -⟩ := h
      obtain ⟨h1, h2, h3, h4, h5⟩ := syncChoice_frameEmit.1 hc
      obtain ⟨fr, hfr, -⟩ := hf.readBytes (a := 0) (k := fs) (by omega)
      rw [hfr]
      exact afterCompact_answers hf h5
    · exact ⟨_, rfl⟩
  | coreRead len =>
    simp only [execAt, coreReadOp]
    split <;> exact ⟨_, rfl⟩
  | linkWrite len =>
    simp only [execAt, linkWriteOp]
    split
    · obtain ⟨fr, hfr, -⟩ := (hm ⟨_, rfl⟩).readBytes (a := 0) (k := s.egLen) (by omega)
      rw [hfr]
      exact ⟨_, rfl⟩
    · exact ⟨_, rfl⟩
  | ioRetry op =>
    simp only [execAt, ioRetryOp]
    obtain ⟨b, hb⟩ := makesCall_ok (p := p) (fun call => call.opcode.code = op) hf
    rw [hb]
    exact ⟨_, rfl⟩
  | fatal code =>
    simp only [execAt, fatalOp]
    split
    · exact ⟨_, rfl⟩
    · next c hc =>
      obtain ⟨b, hb⟩ := fatalCondition_ok (p := p) c hf
      rw [hb]
      exact ⟨_, rfl⟩
  | envCoreRecv n =>
    simp only [execAt, envCoreRecvOp]
    split <;> exact ⟨_, rfl⟩
  | linkRead | depthPoll | drainSleep | idleGap | waitWake | waitEintr | dispatchLink | dispatchCore => exact ⟨_, rfl⟩
  | cfgBitrate | cfgFlowctl | start | reset => exact ⟨_, rfl⟩
  | envRx | envTxDrain | envCoreSend | envTick | envLinkHup => exact ⟨_, rfl⟩

/-- A label that answers and has no effect holds. -/
theorem execAt_holds {i : Instr} (h1 : ∃ t, execAt p i s = .next t) (h2 : ∀ t, ¬ Effect p s t i) :
    execAt p i s = .next s := by
  obtain ⟨t, ht⟩ := h1
  rcases execAt_cases ht with rfl | h
  · exact ht
  · exact absurd h (h2 t)

/-- The step of FATAL where its cause's condition holds. -/
theorem fatal_taken {c : Cause} (h : fatalCondition p c s = .ok true) :
    execAt p (.fatal c.code) s = .next (raiseFatal c s) :=
  execAt_of_effect ⟨c, rfl, h, rfl⟩

theorem fatal_holds {c : Cause} (h : fatalCondition p c s = .ok false) : execAt p (.fatal c.code) s = .next s := by
  simp only [execAt, fatalOp, ofCode?_code, h]
  rfl

theorem retry_holds {op : Byte} (h : makesCall p s (fun call => call.opcode.code = op) = .ok false) :
    execAt p (.ioRetry op) s = .next s := by
  simp only [execAt, ioRetryOp, h]
  rfl

end answers

/-- The causes have distinct codes (60_exceptions.md R241). -/
theorem Cause.code_inj {c d : Cause} (h : c.code = d.code) : c = d := by
  have := ofCode?_code c
  rw [h, ofCode?_code] at this
  exact (Option.some.inj this).symm

/-- Handler completion changes the phase only (42_dispatch_control.md R217). -/
theorem completeHandler_eq (s : State) :
    completeHandler s = { s with pc := if s.pending = ⟨false, false⟩ then .wait else .dispatch } := by
  unfold completeHandler
  rcases h : s.pending with ⟨a, b⟩
  cases a <;> cases b <;> simp [Pending.isEmpty]

/-- A host write answers no change, or the effect of the label it stands for (10_state.md R48, R49, 42_dispatch_control.md
R219 to R221). -/
theorem hostWriteOp_cases {p : Params} {width offset : Nat} {value : Word32} {setup : SetupDraw} {s t : State}
    (h : hostWriteOp p width offset value setup s = .next t) :
    t = s ∨ Effect p s t (.cfgBitrate value) ∨ Effect p s t (.cfgFlowctl (value.getLsbD 0)) ∨ Effect p s t .start ∨
      Effect p s t (.fatal Cause.setupFail.code) ∨ Effect p s t (.fatal Cause.unsupportedBitrate.code) := by
  unfold hostWriteOp at h
  split at h
  · split at h
    · simp only [Host.Outcome.next.injEq] at h
      subst h
      split
      · unfold startRequest
        split
        · next hpc =>
          split
          · next hr =>
            cases setup with
            | ok => exact .inr (.inr (.inr (.inl ⟨hpc, hr, rfl⟩)))
            | fail =>
              exact .inr (.inr (.inr (.inr (.inl ⟨_, rfl, by simp [fatalCondition, hpc, hr], rfl⟩))))
          · next hr =>
            exact .inr (.inr (.inr (.inr (.inr ⟨_, rfl, by simp [fatalCondition, hpc, hr], rfl⟩))))
        · exact .inl rfl
      · exact .inl rfl
    · exact .inr (.inl (Host.Outcome.next.inj h).symm)
    · exact .inr (.inr (.inl (Host.Outcome.next.inj h).symm))
    · exact .inl (Host.Outcome.next.inj h).symm
  · simp at h

/-- What a step can do: no move offered and nothing changed; or the first move is taken off, and the state after is that
or the effect of one label (60_exceptions.md R258). -/
theorem step_cases {s t : State} (h : step s = .next t) :
    (s.moves = [] ∧ t = s) ∨
      ∃ m rest, s.moves = m :: rest ∧
        (t = afterOffer rest s ∨ ∃ i, Effect Config.params (afterOffer rest s) t i) := by
  unfold step takeMove at h
  split at h
  · next hm => exact .inl ⟨hm, (Host.Outcome.next.inj h).symm⟩
  · next m rest hm =>
    refine .inr ⟨m, rest, hm, ?_⟩
    cases m with
    | label r =>
      simp only [runMove, runRecord] at h
      split at h
      · simp at h
      · next i hi =>
        rcases exec_cases h with rfl | he
        · exact .inl rfl
        · exact .inr ⟨i, he⟩
    | hostWrite width offset value setup =>
      rcases hostWriteOp_cases h with rfl | he | he | he | he | he
      · exact .inl rfl
      all_goals exact .inr ⟨_, he⟩
    | hostRead width offset =>
      simp only [runMove, hostReadOp] at h
      split at h
      · exact .inl (Host.Outcome.next.inj h).symm
      · simp at h

/-! ### Steps in the history -/

/-- The step of a label adds one event to the history (30_encoding.md R120). -/
theorem effect_history_length {p : Params} {s t : State} {i : Instr} (h : Effect p s t i) :
    t.history.length = s.history.length + 1 := by
  cases i <;> simp only [Effect] at h
  case linkRead => obtain ⟨-, -, -, rfl⟩ := h; simp
  case hdrFound => obtain ⟨-, -, s', hs, rfl⟩ := h; rw [compact_ok_frame hs]; simp
  case hdrFail => obtain ⟨-, -, -, s', hs, rfl⟩ := h; rw [compact_ok_frame hs]; simp
  case hdrWait => obtain ⟨-, -, -, rfl⟩ := h; simp
  case payWait => obtain ⟨-, -, -, rfl⟩ := h; simp
  case frameEmit => obtain ⟨-, -, -, frame, s', -, hs, rfl⟩ := h; rw [compact_ok_frame hs]; simp
  case coreRead => obtain ⟨-, -, -, -, -, -, rfl⟩ := h; simp [loadMessage]
  case depthPoll => obtain ⟨-, -, rfl⟩ := h; simp
  case drainSleep => obtain ⟨-, -, -, rfl⟩ := h; simp
  case idleGap => obtain ⟨-, -, -, rfl⟩ := h; simp
  case linkWrite => obtain ⟨-, -, bytes, -, rfl⟩ := h; simp
  case waitWake => obtain ⟨-, -, -, rfl⟩ := h; simp
  case waitEintr => obtain ⟨-, rfl⟩ := h; simp
  case dispatchLink => obtain ⟨-, -, -, rfl⟩ := h; simp
  case dispatchCore => obtain ⟨-, -, -, rfl⟩ := h; simp
  case ioRetry => obtain ⟨-, rfl⟩ := h; simp
  case cfgBitrate => obtain rfl := h; split <;> simp
  case cfgFlowctl => obtain rfl := h; split <;> simp
  case start => obtain ⟨-, -, rfl⟩ := h; simp [started]
  case fatal => obtain ⟨c, -, -, rfl⟩ := h; simp [raiseFatal]
  case reset => obtain rfl := h; simp [resetBlock]
  case envRx => obtain ⟨-, rfl⟩ := h; simp
  case envTxDrain => obtain ⟨-, -, rfl⟩ := h; simp
  case envCoreSend => obtain rfl := h; simp
  case envCoreRecv => obtain ⟨-, -, -, -, rfl⟩ := h; simp
  case envTick => obtain ⟨-, rfl⟩ := h; simp
  case envLinkHup => obtain ⟨-, rfl⟩ := h; simp

/-- A label is taken exactly where its rule gives it a step. -/
theorem taken_iff {i : Instr} {s t : State} : Taken i s t ↔ Effect Config.params s t i := by
  refine ⟨fun h => ?_, fun h => ⟨exec_of_effect h, effect_history_length h⟩⟩
  rcases exec_cases h.1 with rfl | he
  · have := h.2
    omega
  · exact he

/-- What a history with one event more says. -/
theorem traceOf_append_singleton (p : Params) (h : List Event) (e : Event) :
    traceOf p (h ++ [e]) = (traceOf p h).add p e := by
  simp [traceOf]

end Sys2Proof.Machine
end

