-- ==== Sys2Proof/Laws/PerInstr.lean ====
section
/-! SUPPORT. The family `EncodedWord`: the word of every label has the operation code of its table row and a 0 in each bit its
row fixes to 0 (30_encoding.md R121, R122). -/

namespace Sys2Proof.Laws.EncodedWord

/-- The word of `i` lies in the table row of its operation. -/
def Statement (i : Instr) : Prop :=
  encodeWord i &&& i.opcode.rowMask = i.opcode.rowMatch

theorem row_of_zero {op : Opcode} {x : BitVec 24} (h : x &&& op.zeroBits = 0) :
    (op.code ++ x) &&& op.rowMask = op.rowMatch := by
  unfold Opcode.rowMask Opcode.rowMatch
  rw [BitVec.and_append, h]
  congr 1
  apply BitVec.eq_of_getLsbD_eq
  intro j hj
  have : (0xFF : Byte) = BitVec.allOnes 8 := rfl
  rw [this, BitVec.getLsbD_and, BitVec.getLsbD_allOnes]
  simp [hj]

theorem byte_zero (b : Byte) : sat24 b.toNat &&& 0xFFFF00 = 0 := by
  have h := b.isLt
  have e : sat24 b.toNat = (0 : BitVec 16) ++ b := by
    unfold sat24
    rw [if_pos (by omega)]
    apply BitVec.eq_of_toNat_eq
    rw [BitVec.toNat_append, BitVec.toNat_ofNat, Nat.mod_eq_of_lt (by omega)]
    simp
  rw [e]
  have : (0xFFFF00 : BitVec 24) = BitVec.allOnes 16 ++ (0 : BitVec 8) := rfl
  rw [this, BitVec.and_append]
  simp

theorem linkRead (r : Nat) : Statement (.linkRead r) := row_of_zero (BitVec.and_zero)
theorem hdrFound (i : Nat) : Statement (.hdrFound i) := row_of_zero (BitVec.and_zero)
theorem hdrFail (n : Nat) : Statement (.hdrFail n) := row_of_zero (BitVec.and_zero)
theorem hdrWait (h : Nat) : Statement (.hdrWait h) := row_of_zero (BitVec.and_zero)
theorem payWait (h : Nat) : Statement (.payWait h) := row_of_zero (BitVec.and_zero)
theorem frameEmit (fs : Nat) : Statement (.frameEmit fs) := row_of_zero (BitVec.and_zero)
theorem coreRead (len : Nat) : Statement (.coreRead len) := row_of_zero (BitVec.and_zero)
theorem depthPoll (d : Nat) : Statement (.depthPoll d) := row_of_zero (BitVec.and_zero)
theorem drainSleep (us : Nat) : Statement (.drainSleep us) := row_of_zero (BitVec.and_zero)
theorem idleGap (us : Nat) : Statement (.idleGap us) := row_of_zero (BitVec.and_zero)
theorem linkWrite (len : Nat) : Statement (.linkWrite len) := row_of_zero (BitVec.and_zero)
theorem waitWake (mask : BitVec 2) : Statement (.waitWake mask) := by revert mask; unfold Statement; decide
theorem waitEintr : Statement .waitEintr := by unfold Statement; decide
theorem dispatchLink : Statement .dispatchLink := by unfold Statement; decide
theorem dispatchCore : Statement .dispatchCore := by unfold Statement; decide
theorem ioRetry (op : Byte) : Statement (.ioRetry op) := row_of_zero (byte_zero op)
theorem cfgBitrate (rate : Word32) : Statement (.cfgBitrate rate) := row_of_zero (BitVec.and_zero)
theorem cfgFlowctl (hwfc : Bool) : Statement (.cfgFlowctl hwfc) := by cases hwfc <;> unfold Statement <;> decide
theorem start : Statement .start := by unfold Statement; decide
theorem fatal (code : Byte) : Statement (.fatal code) := row_of_zero (byte_zero code)
theorem reset : Statement .reset := by unfold Statement; decide
theorem envRx (b : Byte) : Statement (.envRx b) := row_of_zero (byte_zero b)
theorem envTxDrain (k : Nat) : Statement (.envTxDrain k) := row_of_zero (BitVec.and_zero)
theorem envCoreSend (m : List Byte) : Statement (.envCoreSend m) := row_of_zero (BitVec.and_zero)
theorem envCoreRecv (n : Nat) : Statement (.envCoreRecv n) := row_of_zero (BitVec.and_zero)
theorem envTick (u : Nat) : Statement (.envTick u) := row_of_zero (BitVec.and_zero)
theorem envLinkHup : Statement .envLinkHup := by unfold Statement; decide

end Sys2Proof.Laws.EncodedWord
end

