-- ==== Sys2Proof/Tests/Slice0.lean ====
section
/-! SUPPORT. The model's own tests: well-formedness, decoding of words written out from 30_encoding.md, single steps of the
vectors of 95_test_vectors.md at the test codec TC4, and for every statement with premises a state that meets them. -/

namespace Sys2Proof.Tests

open Sys2Proof Sys2Proof.Machine

/-! ### Well-formedness: one ill-formed term for each check -/

theorem test_wf_linkRead : (Instr.linkRead 0).wellFormed = false := by decide
theorem test_wf_hdrFail : (Instr.hdrFail 0).wellFormed = false := by decide
theorem test_wf_coreRead : (Instr.coreRead 0).wellFormed = false := by decide
theorem test_wf_waitWake : (Instr.waitWake 0).wellFormed = false := by decide
theorem test_wf_ioRetry : (Instr.ioRetry 0x11).wellFormed = false := by decide
theorem test_wf_fatal_none : (Instr.fatal 0x00).wellFormed = false := by decide
theorem test_wf_fatal_reserved : (Instr.fatal 0x10).wellFormed = false := by decide
theorem test_wf_envTxDrain : (Instr.envTxDrain 0).wellFormed = false := by decide
theorem test_wf_envTick : (Instr.envTick 0).wellFormed = false := by decide
theorem test_wf_accepts : (Instr.ioRetry 0x24).wellFormed = true ∧ (Instr.fatal 0x0F).wellFormed = true := by decide

/-! ### Decoding: words written out from R119, R121 and R122, OPC in bits 31:24 and ARG in bits 23:0 -/

theorem test_decode_ingress :
    decodeTableWord 32 0b00010000_000000000000000000001001 = some (.linkRead 9) ∧
    decodeTableWord 32 0b00010001_000000000000000000000011 = some (.hdrFound 3) ∧
    decodeTableWord 32 0b00010010_000000000000000000010001 = some (.hdrFail 17) ∧
    decodeTableWord 32 0b00010011_000000000000000000000010 = some (.hdrWait 2) ∧
    decodeTableWord 32 0b00010100_000000000000000000000101 = some (.payWait 5) ∧
    decodeTableWord 32 0b00010101_100000000000000000000110 = some (.frameEmit 0x800006) := by decide

theorem test_decode_egress :
    decodeTableWord 32 0b00100000_000000000000000000000011 = some (.coreRead 3) ∧
    decodeTableWord 32 0b00100001_000000000000000000000010 = some (.depthPoll 2) ∧
    decodeTableWord 32 0b00100010_000000000000000010001010 = some (.drainSleep 138) ∧
    decodeTableWord 32 0b00100011_000000000000010101101100 = some (.idleGap 1388) ∧
    decodeTableWord 32 0b00100100_000000000000000000000100 = some (.linkWrite 4) := by decide

theorem test_decode_dispatcher :
    decodeTableWord 32 0b00110000_000000000000000000000011 = some (.waitWake 3) ∧
    decodeTableWord 32 0b00110001_000000000000000000000000 = some .waitEintr ∧
    decodeTableWord 32 0b00110010_000000000000000000000000 = some .dispatchLink ∧
    decodeTableWord 32 0b00110011_000000000000000000000000 = some .dispatchCore ∧
    decodeTableWord 32 0b00110100_000000000000000000010000 = some (.ioRetry 0x10) := by decide

theorem test_decode_control :
    decodeTableWord 32 0b01000000_000000011100001000000000 = some (.cfgBitrate 115200) ∧
    decodeTableWord 32 0b01000001_000000000000000000000001 = some (.cfgFlowctl true) ∧
    decodeTableWord 32 0b01000010_000000000000000000000000 = some .start ∧
    decodeTableWord 32 0b01000011_000000000000000000001010 = some (.fatal 0x0A) ∧
    decodeTableWord 32 0b01000100_000000000000000000000000 = some .reset := by decide

theorem test_decode_environment :
    decodeTableWord 32 0b01010000_000000000000000010100101 = some (.envRx 0xA5) ∧
    decodeTableWord 32 0b01010001_000000000000000000000010 = some (.envTxDrain 2) ∧
    decodeTableWord 32 0b01010010_000000000000000000000000 = some (.envCoreSend []) ∧
    decodeTableWord 32 0b01010011_000000000000000000000110 = some (.envCoreRecv 6) ∧
    decodeTableWord 32 0b01010100_000000000000010101101100 = some (.envTick 1388) ∧
    decodeTableWord 32 0b01010101_000000000000000000000000 = some .envLinkHup := by decide

/-- 95_test_vectors.md section 5, the invalid rows. -/
theorem test_decode_invalid :
    decode (bareRecord 0x30000004) 0 = .error .reservedArgBits ∧
    decode (bareRecord 0x32000001) 0 = .error .reservedArgBits ∧
    decode (bareRecord 0x41000002) 0 = .error .reservedArgBits ∧
    decode (bareRecord 0x43000100) 0 = .error .reservedArgBits ∧
    decode (bareRecord 0x50000100) 0 = .error .reservedArgBits ∧
    decode (bareRecord 0x16000000) 0 = .error .reservedOpcode ∧
    decode (bareRecord 0x00000000) 0 = .error .reservedOpcode ∧
    decode (bareRecord 0xFF000000) 0 = .error .reservedOpcode := ⟨rfl, rfl, rfl, rfl, rfl, rfl, rfl, rfl⟩

/-- R120: an argument of `2^24` or more is held as `0xFFFFFF`, and the record's full argument is read back. -/
theorem test_decode_saturated :
    encodeWord (.linkRead 0x1000000) = 0x10FFFFFF ∧
    decode ⟨0x10FFFFFF, some 0x1000000, none⟩ 0 = .ok (.linkRead 0x1000000) ∧
    decode ⟨0x10000009, some 8, none⟩ 0 = .error .argMismatch := ⟨by decide, rfl, rfl⟩

/-! ### Single steps, at the test codec TC4 (95_test_vectors.md) -/

/-- A running block in phase `q`, nothing queued. -/
def running (q : Phase) : State := { State.reset with run := .running, pc := q, bitrate := 115200 }

/-- The same with bytes in the accumulation buffer. -/
def holding (q : Phase) (y : SyncState) (bs : List Byte) : State :=
  { running q with buf := memWriteBytes [] 0 bs, head := bs.length, sync := y }

/-- The same with a message in the egress buffer. -/
def sending (q : Phase) (m : List Byte) : State :=
  { running q with egMsg := memWriteBytes [] 0 m, egLen := m.length }

/-- The state after a label at TC4, none where it answers no next state. -/
def after (i : Instr) (s : State) : Option State :=
  match execAt Params.tc4 i s with
  | .next t => some t
  | .fault _ => none
  | .refused _ => none

/-- A part of the state after a label at TC4. -/
def see {α : Type} (i : Instr) (s : State) (f : State → α) : Option α := (after i s).map f

/-- The bytes of `buf[0:head)`. -/
def held (s : State) : Option (List Byte) := memReadBytes s.buf 0 s.head

/-- V-ING-1: three bytes of noise, then F2. -/
def noiseF2 : List Byte := [0x00, 0x00, 0x00, 0xA5, 0x02, 0x00, 0xA7, 0x11, 0x22]
/-- F2. -/
def f2 : List Byte := [0xA5, 0x02, 0x00, 0xA7, 0x11, 0x22]
/-- X17, an oversize header. -/
def x17 : List Byte := [0xA5, 0x11, 0x00, 0xB4]

/-- V-ING-1. -/
theorem test_linkRead :
    see (.linkRead 9) { running .linkRead with rxFifo := noiseF2 } (fun t => (held t, t.rxFifo, t.pc, t.head)) =
      some (some noiseF2, [], .sync, 9) := by decide

/-- V-ING-16: the request is clamped to 14 bytes. -/
theorem test_linkRead_clamp :
    see (.linkRead 15)
      { holding .linkRead .seekingPayload [0xA5, 0x10, 0x00, 0xB5, 0x00, 0x01] with rxFifo := List.replicate 20 0x60 }
      (fun t => (t.pc, t.head, t.history)) = some (.linkRead, 6, []) := by decide

/-- V-ING-1. -/
theorem test_hdrFound :
    see (.hdrFound 3) (holding .sync .seekingHeader noiseF2) (fun t => (held t, t.head, t.sync, t.pc)) =
      some (some f2, 6, .seekingPayload, .sync) := by decide

/-- V-ING-10: a window with the marker and a bad checksum is not a header; offset 4 is. -/
theorem test_hdrFound_checksum :
    see (.hdrFound 4) (holding .sync .seekingHeader ([0xA5, 0x02, 0x00, 0x00] ++ f2)) held = some (some f2) := by decide

/-- V-ING-3. -/
theorem test_hdrFail :
    see (.hdrFail 3) (holding .sync .seekingHeader [1, 2, 3, 4, 5, 6]) (fun t => (held t, t.head, t.sync, t.pc)) =
      some (some [4, 5, 6], 3, .seekingHeader, .wait) := by decide

/-- V-ING-23: under the DISCARD policy an oversize header is not valid. -/
theorem test_hdrFail_discard :
    (match execAt { Params.tc4 with oversize := .discard } (.hdrFail 1) (holding .sync .seekingHeader x17) with
      | .next t => held t
      | .fault _ => none
      | .refused _ => none) = some [0x11, 0x00, 0xB4] := by decide

/-- P2 step 12, with a core source pending as in R217. -/
theorem test_hdrWait :
    see (.hdrWait 2) { holding .sync .seekingHeader [0xA5, 0x01] with pending := ⟨false, true⟩ }
      (fun t => (t.pc, t.head, t.pending)) = some (.dispatch, 2, ⟨false, true⟩) := by decide

/-- V-ING-25. -/
theorem test_payWait :
    see (.payWait 5) (holding .sync .seekingPayload [0xA5, 0x02, 0x00, 0xA7, 0x11]) (fun t => (t.pc, t.head)) =
      some (.wait, 5) := by decide

/-- P2 step 11: F0 and the start of F1. -/
theorem test_frameEmit :
    see (.frameEmit 4) (holding .sync .seekingPayload [0xA5, 0x00, 0x00, 0xA5, 0xA5, 0x01])
      (fun t => (t.coreOut, held t, t.sync, t.pc)) =
      some ([[0xA5, 0x00, 0x00, 0xA5]], some [0xA5, 0x01], .seekingHeader, .sync) := by decide

/-- V-ING-22: with the core channel full the block holds in `P_SYNC`. -/
theorem test_frameEmit_full :
    see (.frameEmit 6) { holding .sync .seekingPayload f2 with coreOut := List.replicate 4 [] }
      (fun t => (t.coreOut.length, t.head, t.history)) = some (4, 6, []) := by decide

/-- P3 step 4. -/
theorem test_coreRead :
    see (.coreRead 3) { running .coreRead with coreIn := [[1, 2, 3]] }
      (fun t => (memReadBytes t.egMsg 0 3, t.egLen, t.coreIn, t.pc)) = some (some [1, 2, 3], 3, [], .poll) := by decide

/-- V-EG-6: a message longer than `TX_MAX` is cut. -/
theorem test_coreRead_cut :
    (match execAt { Params.tc4 with txMax := 4 } (.coreRead 4) { running .coreRead with coreIn := [[1, 2, 3, 4, 5, 6]] } with
      | .next t => some t.egMsg
      | .fault _ => none
      | .refused _ => none) = some [(0, 1), (1, 2), (2, 3), (3, 4)] := by decide

/-- V-EG-3. -/
theorem test_depthPoll :
    see (.depthPoll 3) { running .poll with txQueue := [1, 2, 3], nowUs := 1000 }
      (fun t => (t.egSleepUs, t.egDeadline, t.pc)) = some (208, 1208, .sleepDrain) := by decide

/-- P3 step 5. -/
theorem test_depthPoll_empty :
    see (.depthPoll 0) (running .poll) (fun t => (t.egSleepUs, t.egDeadline, t.pc)) = some (1388, 1388, .gap) := by decide

/-- V-EG-4: at 1208 the sleep ends, at 1207 it does not. -/
theorem test_drainSleep :
    see (.drainSleep 208) { running .sleepDrain with egSleepUs := 208, egDeadline := 1208, nowUs := 1208 } State.pc = some .poll ∧
    see (.drainSleep 208) { running .sleepDrain with egSleepUs := 208, egDeadline := 1208, nowUs := 1207 } State.pc =
      some .sleepDrain := by decide

/-- P3 step 7. -/
theorem test_idleGap :
    see (.idleGap 1388) { running .gap with egSleepUs := 1388, egDeadline := 1388, nowUs := 1388 } State.pc = some .write := by
  decide

/-- P5: after the write the pending link source is served. -/
theorem test_linkWrite :
    see (.linkWrite 2) { sending .write [0xA5, 0x00] with txQueue := [0x7E], pending := ⟨true, false⟩ }
      (fun t => (t.txQueue, t.pc)) = some ([0x7E, 0xA5, 0x00], .dispatch) := by decide

/-- V-DSP-1: the wake is link only. -/
theorem test_waitWake :
    see (.waitWake 1) { running .wait with rxFifo := [0xA5] } (fun t => (t.pending, t.pc)) =
      some (⟨true, false⟩, .dispatch) ∧
    see (.waitWake 3) { running .wait with rxFifo := [0xA5] } State.pc = some .wait := by decide

/-- V-DSP-3. -/
theorem test_waitEintr : see .waitEintr (running .wait) (fun t => (t.pc, t.history.length)) = some (.wait, 1) := by decide

/-- V-DSP-2: with both pending either is enabled. -/
theorem test_dispatchLink :
    see .dispatchLink { running .dispatch with pending := ⟨true, true⟩ } (fun t => (t.pending, t.pc)) =
      some (⟨false, true⟩, .linkRead) := by decide

theorem test_dispatchCore :
    see .dispatchCore { running .dispatch with pending := ⟨true, true⟩ } (fun t => (t.pending, t.pc)) =
      some (⟨true, false⟩, .coreRead) := by decide

/-- V-ING-18, and the same label in another phase. -/
theorem test_ioRetry :
    see (.ioRetry 0x10) { running .linkRead with rxFifo := noiseF2 } (fun t => (t.pc, t.rxFifo.length, t.history.length)) =
      some (.linkRead, 9, 1) ∧
    see (.ioRetry 0x10) (running .poll) (fun t => t.history.length) = some 0 := by decide

/-- V-CTL-1. -/
theorem test_cfgBitrate :
    see (.cfgBitrate 115200) State.reset State.bitrate = some 115200 ∧
    see (.cfgBitrate 9600) (running .wait) State.bitrate = some 115200 := by decide

/-- V-CTL-2. -/
theorem test_cfgFlowctl : see (.cfgFlowctl true) State.reset State.hwfc = some true := by decide

/-- V-CTL-5: what waited before START is flushed. -/
theorem test_start :
    see .start { State.reset with bitrate := 115200, rxFifo := [0x33], coreIn := [[0x44]] }
      (fun t => (t.run, t.pc, t.rxFifo, t.coreIn)) = some (.running, .wait, [], []) := by decide

/-- V-ING-9: the buffer and `sync` are kept. -/
theorem test_fatal :
    see (.fatal 0x0A) { holding .sync .seekingPayload x17 with pending := ⟨false, true⟩ }
      (fun t => (statusWord t, t.pending, held t)) = some (0x000F0A05, ⟨false, false⟩, some x17) := by decide

/-- V-CTL-3. -/
theorem test_fatal_bitrate : see (.fatal 0x02) State.reset statusWord = some 0x000F0204 := by decide

/-- V-CTL-7. -/
theorem test_reset :
    see .reset { running .fatal with run := .fatal, cause := .coreClosed, nowUs := 7, wire := [(3, 1)] }
      (fun t => (statusWord t, t.bitrate, t.nowUs, t.wire)) = some (0, 0, 7, [(3, 1)]) := by decide

/-- V-ENV-1 at depth 2. -/
theorem test_envRx :
    (match execAt { Params.tc4 with rxFifoDepth := 2 } (.envRx 3) { running .wait with rxFifo := [1, 2] } with
      | .next t => some (t.rxFifo, t.history.length)
      | .fault _ => none
      | .refused _ => none) = some ([1, 2], 1) ∧
    (match execAt { Params.tc4 with rxFifoDepth := 2 } (.envRx 3) { running .wait with rxFifo := [1, 2], hwfc := true } with
      | .next t => some (t.rxFifo, t.history.length)
      | .fault _ => none
      | .refused _ => none) = some ([1, 2], 0) := by decide

/-- V-ENV-2. -/
theorem test_envTxDrain :
    see (.envTxDrain 1) { running .wait with txQueue := [0xA5, 0x00], nowUs := 50 } (fun t => (t.wire, t.txQueue)) =
      some ([(50, 0xA5)], [0x00]) := by decide

/-- P3 step 1. -/
theorem test_envCoreSend : see (.envCoreSend [1, 2, 3]) (running .wait) State.coreIn = some [[1, 2, 3]] := by decide

/-- P2 step 22. -/
theorem test_envCoreRecv :
    see (.envCoreRecv 4) { running .wait with coreOut := [[0xA5, 0, 0, 0xA5], [1]] } State.coreOut = some [[1]] := by decide

/-- P3 step 17. -/
theorem test_envTick : see (.envTick 38) { running .wait with nowUs := 1488 } State.nowUs = some 1526 := by decide

/-- V-ING-20: a hang-up makes the link readable. -/
theorem test_envLinkHup : see .envLinkHup (running .wait) (fun t => (t.linkHup, linkReady t)) = some (true, true) := by decide

/-! ### Pacing, registers and the text form -/

/-- V-EG-1, V-EG-2 and V-EG-12. -/
theorem test_pacing :
    [1, 2, 3, 5, 10, 17, 20, 100].map (fun d => drainUs Params.tc4 d 115200) = [69, 138, 208, 347, 694, 1180, 1388, 6944] ∧
    drainUs Params.tc4 1 9600 = 833 ∧ drainUs Params.tc4 1 8000001 = 0 ∧
    [9600, 115200, 921600, 8000001].map (gapUs Params.tc4) = [16666, 1388, 173, 19] := by decide

/-- 95_test_vectors.md section 6. -/
theorem test_status :
    statusWord { running .dispatch with pending := ⟨true, true⟩ } = 0x00320002 ∧
    statusWord (holding .sync .seekingPayload f2) = 0x00040003 ∧
    [0x10, 0x14, 0x18, 0x1C, 0x20, 0x24].map (fun o => registerValue Params.tc4 o (holding .sync .seekingPayload f2)) =
      [6, 4, 20, 0xA5, 64, 0] := by decide

set_option maxRecDepth 4000 in
/-- The examples of R126 and R127; bytes in decimal or `0x` (R126; log entry 27); an operand that its label cannot hold makes a line no pseudo-label. -/
theorem test_text :
    readLine "ENV_CORE_SEND 3 [01 02 03]".toList = some [⟨0x52000003, some 3, some [1, 2, 3]⟩] ∧
    readLine "ENV_RX 0xA5".toList = some [⟨0x500000A5, some 0xA5, none⟩] ∧ readLine "ENV_RX A5".toList = none ∧
    readLine "ENV_RX 11".toList = some [⟨0x5000000B, some 11, none⟩] ∧
    readLine "BOOT 115200, 0".toList = some ([.cfgBitrate 115200, .cfgFlowctl false, .start].map encode) ∧
    labelText (.fatal 0x0A) = "FATAL OVERSIZE_FRAME".toList ∧
    ["ENV_RXS 300", "CONFIG 4294967296, 0", "BOOT 115200, 2"].map (fun l => readLine l.toList) = [none, none, none] := by decide

/-! ### Witnesses: for every statement with premises, states and operands that meet them, one at least for each clause.

`running`, `holding` and `sending` are states the machine's own parameters apply to; where a premise is about header bytes
the witness is at TC4, and a second one says that any header the machine's codec validates meets the premises too. -/

theorem filled_bytes (bs : List Byte) : Filled (memWriteBytes [] 0 bs) bs.length := by
  simpa using Machine.filled_nil.append bs

theorem filled_holding (q : Phase) (y : SyncState) (bs : List Byte) :
    Filled (holding q y bs).buf (holding q y bs).head := filled_bytes bs

theorem filled_sending (q : Phase) (m : List Byte) : Filled (sending q m).egMsg (sending q m).egLen := filled_bytes m

theorem filled_running (q : Phase) : Filled (running q).buf (running q).head := filled_bytes []

theorem cap_pos : 1 ≤ Config.params.cap := by
  have := Config.params_valid.header_pos
  have := Config.params_valid.cap_ge
  omega

theorem tc4_valid : Params.tc4.Valid where
  header_pos := by decide
  lenBits_pos := by decide
  plen_lt w := by
    have h1 := (w.getD 1 0).isLt
    have h2 := (w.getD 2 0).isLt
    show (w.getD 1 0).toNat + 256 * (w.getD 2 0).toNat < 2 ^ 16
    omega
  cap_ge := by decide
  rates_pos := by decide
  rates_115200 := by decide
  txMax_pos := by decide
  rxFifoDepth_pos := by decide
  coreOutDepth_pos := by decide

/-- The first witness for a header found at offset `i`: the windows up to it, at TC4. -/
theorem witness_first_header : FirstHeaderAt Params.tc4 (holding .sync .seekingHeader noiseF2) 3 := by
  refine ⟨by decide, ⟨_, rfl, by decide⟩, fun j hj => ?_⟩
  match j, hj with
  | 0, _ => exact ⟨_, rfl, by decide⟩
  | 1, _ => exact ⟨_, rfl, by decide⟩
  | 2, _ => exact ⟨_, rfl, by decide⟩

theorem witness_BareWordRoundTrip :
    (Instr.linkRead 0xFFFFFE).fullArg < 0xFFFFFF ∧ (Instr.linkRead 0xFFFFFE).operandContent = none := by decide

theorem witness_DecodeVerdicts :
    (∀ op : Opcode, op.code ≠ opcOf 0x16000000) ∧
    (Opcode.waitWake.code = opcOf 0x30000004 ∧ argOf 0x30000004 &&& Opcode.waitWake.zeroBits ≠ 0) ∧
    (Opcode.waitWake.code = opcOf 0x30000003 ∧ argOf 0x30000003 &&& Opcode.waitWake.zeroBits = 0 ∧
      argOf 0x30000003 ≠ 0xFFFFFF) ∧
    (Opcode.linkRead.code = opcOf 0x10FFFFFF ∧ argOf 0x10FFFFFF &&& Opcode.linkRead.zeroBits = 0 ∧
      argOf 0x10FFFFFF = 0xFFFFFF) ∧
    (State.reset.withFetchWord 32 0x16000000).moves = .label (bareRecord 0x16000000) :: [] ∧
    (State.reset.withFetchWord 32 0x30000004).moves = .label (bareRecord 0x30000004) :: [] := by
  refine ⟨fun op => ?_, by decide, by decide, by decide, by decide, by decide⟩
  cases op <;> decide

theorem witness_StepRunsTheDecodedLabel :
    ({ running .wait with moves := [.label (bareRecord 0x31000000)] } : State).moves = .label (bareRecord 0x31000000) :: [] ∧
    decode (bareRecord 0x31000000) (running .wait).freeCount = .ok .waitEintr ∧
    decode (bareRecord 0x16000000) (running .wait).freeCount = .error .reservedOpcode ∧ (running .wait).moves = [] :=
  ⟨rfl, rfl, rfl, rfl⟩

theorem witness_IllFormedLabelsAreNeverTaken : (Instr.envTick 0).wellFormed = false := by decide

theorem witness_HistoryRecordsTheLabelTaken : exec .reset State.reset = .next (resetBlock State.reset) := rfl

theorem witness_LinkReadOutcomes :
    (running .wait).pc ≠ .linkRead ∧
    ((running .linkRead).pc = .linkRead ∧ (running .linkRead).rxFifo = []) ∧
    (let s := { running .linkRead with rxFifo := [7], head := Config.params.cap };
      s.pc = .linkRead ∧ s.rxFifo ≠ [] ∧ Config.params.cap ≤ s.head) ∧
    (let s := { running .linkRead with rxFifo := [7] };
      s.pc = .linkRead ∧ s.rxFifo ≠ [] ∧ s.head < Config.params.cap ∧ 1 ≤ 1 ∧
        1 ≤ min s.rxFifo.length (Config.params.cap - s.head) ∧
        ¬ (1 ≤ 2 ∧ 2 ≤ min s.rxFifo.length (Config.params.cap - s.head))) := by
  have := cap_pos
  refine ⟨by decide, ⟨rfl, rfl⟩, ⟨rfl, by simp, Nat.le_refl _⟩, rfl, by simp, this, Nat.le_refl _, ?_, ?_⟩
  · simp [running, State.reset]
    omega
  · simp [running, State.reset]

theorem witness_HdrFoundCompactsToTheFirstHeader :
    let s := holding .sync .seekingHeader noiseF2
    let s0 := holding .sync .seekingHeader f2
    (Filled s.buf s.head ∧ s.pc = .sync ∧ s.sync = .seekingHeader ∧ Params.tc4.H ≤ s.head ∧ FirstHeaderAt Params.tc4 s 3) ∧
    (Filled s0.buf s0.head ∧ s0.pc = .sync ∧ s0.sync = .seekingHeader ∧ Params.tc4.H ≤ s0.head ∧
      FirstHeaderAt Params.tc4 s0 0) ∧
    (running .wait).pc ≠ .sync :=
  ⟨⟨filled_holding _ _ _, rfl, rfl, by decide, witness_first_header⟩,
    ⟨filled_holding _ _ _, rfl, rfl, by decide, by decide, ⟨_, rfl, by decide⟩, fun j hj => absurd hj (Nat.not_lt_zero j)⟩,
    by decide⟩

/-- With the machine's own codec: any header it validates. -/
theorem witness_HdrFound_machine (w : List Byte) (hl : w.length = Config.params.H) (hv : headerValid Config.params w = true) :
    let s := holding .sync .seekingHeader w
    Filled s.buf s.head ∧ s.pc = .sync ∧ s.sync = .seekingHeader ∧ Config.params.H ≤ s.head ∧
      FirstHeaderAt Config.params s 0 := by
  refine ⟨filled_holding _ _ _, rfl, rfl, Nat.le_of_eq hl.symm, by simp [holding, hl], ⟨w, ?_, hv⟩, fun j hj => by omega⟩
  rw [window, ← hl, memReadBytes_eq_some]
  refine ⟨rfl, fun j hj => ?_⟩
  rw [holding, memRead_memWriteBytes, if_pos (by omega)]
  simp

theorem witness_HdrFailKeepsTheLastBytes :
    let s := holding .sync .seekingHeader [1, 2, 3, 4, 5, 6]
    1 ≤ Params.tc4.H ∧ Filled s.buf s.head ∧ s.pc = .sync ∧ s.sync = .seekingHeader ∧ Params.tc4.H ≤ s.head ∧
      (∀ i, i + Params.tc4.H ≤ s.head → InvalidAt Params.tc4 s i) ∧ 3 = s.head - (Params.tc4.H - 1) := by
  refine ⟨by decide, filled_holding _ _ _, rfl, rfl, by decide, fun i hi => ?_, by decide⟩
  have hi : i ≤ 2 := by simp [Params.tc4, holding] at hi; omega
  match i, hi with
  | 0, _ => exact ⟨_, rfl, by decide⟩
  | 1, _ => exact ⟨_, rfl, by decide⟩
  | 2, _ => exact ⟨_, rfl, by decide⟩

/-- With the machine's own codec: `H` bytes of which the first is not the marker. -/
theorem witness_HdrFail_machine :
    let s := holding .sync .seekingHeader (List.replicate Config.params.H (Config.params.marker + 1))
    Filled s.buf s.head ∧ s.pc = .sync ∧ s.sync = .seekingHeader ∧ Config.params.H ≤ s.head ∧
      (∀ i, i + Config.params.H ≤ s.head → InvalidAt Config.params s i) ∧ 1 = s.head - (Config.params.H - 1) := by
  have hH := Config.params_valid.header_pos
  refine ⟨filled_holding _ _ _, rfl, rfl, by simp [holding], fun i hi => ?_, by simp [holding]; omega⟩
  have hi : i = 0 := by simp [holding] at hi; omega
  subst hi
  refine ⟨List.replicate Config.params.H (Config.params.marker + 1), ?_, ?_⟩
  · rw [window, memReadBytes_eq_some]
    refine ⟨by simp, fun j hj => ?_⟩
    rw [holding, memRead_memWriteBytes, if_pos (by simp; omega)]
    simp
  · obtain ⟨n, hn⟩ : ∃ n, Config.params.H = n + 1 := ⟨Config.params.H - 1, by omega⟩
    rw [hn, List.replicate_succ]
    simp [headerValid]

theorem witness_HdrWaitCompletesTheHandler :
    let s := holding .sync .seekingHeader (List.replicate (Config.params.H - 1) 0)
    Filled s.buf s.head ∧ s.pc = .sync ∧ s.sync = .seekingHeader ∧ s.head < Config.params.H ∧ Config.params.H - 1 = s.head := by
  have hH := Config.params_valid.header_pos
  exact ⟨filled_holding _ _ _, rfl, rfl, by simp [holding]; omega, by simp [holding]⟩

theorem witness_PayWaitCompletesTheHandler :
    (let s := holding .sync .seekingPayload [0xA5, 0x02, 0x00, 0xA7, 0x11];
      Filled s.buf s.head ∧ s.pc = .sync ∧ s.sync = .seekingPayload ∧ 5 = s.head ∧
        ∃ fs, Announces Params.tc4 s fs ∧ Params.tc4.H ≤ s.head ∧ fs ≤ Params.tc4.cap ∧ s.head < fs) ∧
    (let s := holding .sync .seekingPayload [];
      Filled s.buf s.head ∧ s.pc = .sync ∧ s.sync = .seekingPayload ∧ 0 = s.head ∧ s.head < Config.params.H) :=
  ⟨⟨filled_holding _ _ _, rfl, rfl, by decide, 6, ⟨_, rfl, by decide⟩, by decide, by decide, by decide⟩,
    filled_holding _ _ _, rfl, rfl, rfl, Config.params_valid.header_pos⟩

theorem witness_OversizeHeaderHalts :
    let s := holding .sync .seekingPayload x17
    Filled s.buf s.head ∧ s.pc = .sync ∧ s.sync = .seekingPayload ∧ Params.tc4.H ≤ s.head ∧
      ∃ fs, Announces Params.tc4 s fs ∧ Params.tc4.cap < fs :=
  ⟨filled_holding _ _ _, rfl, rfl, by decide, 21, ⟨_, rfl, by decide⟩, by decide⟩

/-- F16, the largest frame TC4 takes: `fs = CAP`. -/
def f16 : List Byte := [0xA5, 0x10, 0x00, 0xB5] ++ List.replicate 16 0x41

theorem witness_FrameEmitOutcomes :
    FrameReady Params.tc4 (holding .sync .seekingPayload f2) 6 ∧ FrameReady Params.tc4 (holding .sync .seekingPayload f16) 20 ∧
    ∀ n, ¬ FrameReady Params.tc4 (running .wait) n :=
  ⟨⟨rfl, rfl, filled_holding _ _ _, by decide, ⟨_, rfl, by decide⟩, by decide, by decide, by decide⟩,
    ⟨rfl, rfl, filled_holding _ _ _, by decide, ⟨_, rfl, by decide⟩, by decide, by decide, by decide⟩,
    fun _ h => by simpa [running] using h.1⟩

/-- With the machine's own codec: any header it validates whose frame fits, and a payload of its length. -/
theorem witness_FrameEmit_machine (w pay : List Byte) (hl : w.length = Config.params.H) (hp : pay.length = Config.params.plen w)
    (hc : frameSize Config.params w ≤ Config.params.cap) :
    FrameReady Config.params (holding .sync .seekingPayload (w ++ pay)) (frameSize Config.params w) := by
  have hout := Config.params_valid.coreOutDepth_pos
  refine ⟨rfl, rfl, filled_holding _ _ _, by simp [holding, hl], ⟨w, ?_, rfl⟩, hc, by simp [holding, frameSize, hl, hp],
    by simp [holding, running, State.reset]; omega⟩
  rw [window, ← hl, memReadBytes_eq_some]
  refine ⟨rfl, fun j hj => ?_⟩
  rw [holding, memRead_memWriteBytes, if_pos (by simp; omega)]
  rw [Nat.zero_add, Nat.sub_zero, List.getElem?_append_left hj]

theorem witness_ExactlyOneSynchronizerStep :
    Filled (running .sync).buf (running .sync).head ∧ (running .sync).pc = .sync ∧
      ∃ t, Taken (.hdrWait 0) (running .sync) t := by
  exact ⟨filled_running _, rfl, completeHandler (emit (.hdrWait 0) [] (running .sync)),
    exec_of_effect ⟨rfl, syncChoice_hdrWait.2 ⟨rfl, Config.params_valid.header_pos⟩, rfl, rfl⟩, rfl⟩

/-- The invariant of a running block that seeks a header in an empty buffer. -/
theorem inv_running (p : Params) (q : Phase) (rx : List Byte) (hr : rateSupported p 115200 = true)
    (hrx : rx.length ≤ p.rxFifoDepth) (hq : q = .wait ∨ q = .sync ∨ q = .linkRead ∧ rx ≠ []) :
    Inv p { running q with rxFifo := rx } := by
  constructor <;> rcases hq with rfl | rfl | ⟨rfl, h⟩ <;>
    simp [running, State.reset, Machine.filled_nil, Pending.isEmpty, Phase.isEgress, AtRest, linkReady, *] <;> exact hr

theorem inv_sync_f2 : Inv Params.tc4 (holding .sync .seekingHeader f2) := by
  have hf := filled_bytes f2
  constructor <;> simp [holding, running, State.reset, Machine.filled_nil, Pending.isEmpty, Phase.isEgress, hf]
  · decide
  · decide

theorem witness_SynchronizerLoopTerminates :
    Params.tc4.Valid ∧ Inv Params.tc4 (holding .sync .seekingHeader f2) ∧ (holding .sync .seekingHeader f2).pc = .sync :=
  ⟨tc4_valid, inv_sync_f2, rfl⟩

theorem witness_SynchronizerRefinesGreedyReading :
    let s := holding .sync .seekingHeader f2
    let t := syncLoop Params.tc4 (loopBound Params.tc4 s.head) s
    Params.tc4.Valid ∧ Inv Params.tc4 s ∧ s.pc = .sync ∧ memReadBytes s.buf 0 s.head = some f2 ∧ ¬ Suspended Params.tc4 t ∧
      t.pc ≠ .fatal := by
  have hpc : (syncLoop Params.tc4 (loopBound Params.tc4 6) (holding .sync .seekingHeader f2)).pc = .wait := by decide
  refine ⟨tc4_valid, inv_sync_f2, rfl, by decide, fun h => ?_, fun h => ?_⟩
  · have := h.1
    rw [show (holding .sync .seekingHeader f2).head = 6 from rfl, hpc] at this
    simp at this
  · rw [show (holding .sync .seekingHeader f2).head = 6 from rfl, hpc] at h
    simp at h

/-- A chunk in one read or in two. -/
theorem witness_ChunkingIndependence :
    let s := { running .linkRead with rxFifo := [7] }
    let loop := syncLoop Params.tc4 (loopBound Params.tc4 Params.tc4.cap)
    let feed := fun (u : State) (chunk : List Byte) =>
      loop { u with buf := memWriteBytes u.buf u.head chunk, head := u.head + chunk.length, pc := .sync }
    let a : List Byte := [0xA5, 0x02]
    let b : List Byte := [0x00, 0xA7]
    Params.tc4.Valid ∧ Inv Params.tc4 s ∧ s.pc = .linkRead ∧ a ≠ [] ∧ b ≠ [] ∧
      s.head + a.length + b.length ≤ Params.tc4.cap ∧
      (feed s a).pc = .wait ∧ (feed (feed s a) b).pc = .wait ∧ (feed s (a ++ b)).pc = .wait ∧
      ∀ u : State, u.pc = .wait → ¬ Suspended Params.tc4 u ∧ u.pc ≠ .fatal := by
  refine ⟨tc4_valid, inv_running _ _ _ (by decide) (by decide) (.inr (.inr ⟨rfl, by simp⟩)), rfl, by decide, by decide,
    by decide, by decide, by decide, by decide, fun u hu => ⟨fun h => ?_, by simp [hu]⟩⟩
  have := h.1
  simp [hu] at this

theorem inv_linkRead : Inv Config.params { running .linkRead with rxFifo := [7] } :=
  inv_running _ _ _ Machine.rateSupported_115200 Config.params_valid.rxFifoDepth_pos (.inr (.inr ⟨rfl, by simp⟩))

theorem witness_LinkReadNeverOverflows :
    Inv Config.params { running .linkRead with rxFifo := [7] } ∧ ({ running .linkRead with rxFifo := [7] } : State).pc = .linkRead :=
  ⟨inv_linkRead, rfl⟩

theorem witness_CoreReadOutcomes :
    (let s := { running .coreRead with coreIn := [[7]] };
      s.pc = .coreRead ∧ s.coreIn = [7] :: [] ∧ [7] ≠ ([] : List Byte) ∧ Memory.wf s.egMsg ∧
        2 ≠ min [7].length Config.params.txMax) ∧
    (let s := { running .coreRead with coreIn := [List.replicate (Config.params.txMax + 1) 7] };
      s.pc = .coreRead ∧ List.replicate (Config.params.txMax + 1) 7 ≠ ([] : List Byte) ∧ Memory.wf s.egMsg ∧
        min (List.replicate (Config.params.txMax + 1) 7).length Config.params.txMax = Config.params.txMax) ∧
    (let s := { running .coreRead with coreIn := [[]] };
      s.pc = .coreRead ∧ s.coreIn = [] :: []) := by
  refine ⟨⟨rfl, rfl, by simp, by simp [running, State.reset, Memory.wf], ?_⟩,
    ⟨rfl, by simp [List.replicate_succ], by simp [running, State.reset, Memory.wf], ?_⟩, rfl, rfl⟩
  · simp
    omega
  · simp

theorem witness_PacingDurations :
    (1 ≤ (1 : Word32).toNat ∧ 1 ≤ (115200 : Word32).toNat) ∧
    ∃ t, Taken .start { State.reset with bitrate := 115200 } t := by
  refine ⟨by decide, started { State.reset with bitrate := 115200 }, ?_, by simp [started, emit, State.reset]⟩
  exact startOp_of ⟨rfl, by simp [rateSupported, Config.params_valid.rates_115200], rfl⟩

theorem witness_DepthPollOutcomes :
    (let s := { running .poll with txQueue := [7] }; s.pc = .poll ∧ s.txQueue ≠ [] ∧ ¬ (s.pc = .poll ∧ 0 = s.txQueue.length)) ∧
    ((running .poll).pc = .poll ∧ (running .poll).txQueue = []) := by decide

theorem witness_DrainSleepEndsAtTheDeadline :
    (let s := { running .sleepDrain with egSleepUs := 69, egDeadline := 69, nowUs := 69 };
      s.pc = .sleepDrain ∧ s.egDeadline ≤ s.nowUs ∧ 69 = s.egSleepUs) ∧
    (let s := { running .sleepDrain with egSleepUs := 69, egDeadline := 69, nowUs := 68 };
      ¬ (s.pc = .sleepDrain ∧ s.egDeadline ≤ s.nowUs ∧ 69 = s.egSleepUs)) := by decide

theorem witness_IdleGapEndsAtTheDeadline :
    (let s := { running .gap with egSleepUs := 1388, egDeadline := 1388, nowUs := 1388 };
      s.pc = .gap ∧ s.egDeadline ≤ s.nowUs ∧ 1388 = s.egSleepUs) ∧
    (let s := { running .gap with egSleepUs := 1388, egDeadline := 1388, nowUs := 1387 };
      ¬ (s.pc = .gap ∧ s.egDeadline ≤ s.nowUs ∧ 1388 = s.egSleepUs)) := by decide

theorem witness_LinkWriteOutcomes :
    let s := sending .write [7]
    Filled s.egMsg s.egLen ∧ s.pc = .write ∧ 1 ≤ s.egLen ∧ ¬ (s.pc = .write ∧ 2 = s.egLen) :=
  ⟨filled_sending _ _, by decide, by decide, by decide⟩

theorem witness_IngressStallsWhileThePacerWorks :
    let s := running .poll
    let t := emit (.ioRetry 0x21) [] s
    (s.pc = .coreRead ∨ s.pc.isEgress = true) ∧ isSequencer (.ioRetry 0x21) = true ∧ exec (.ioRetry 0x21) s = .next t :=
  ⟨by decide, rfl, rfl⟩

theorem witness_WaitWakeSamplesReadiness :
    (let s := { running .wait with rxFifo := [7] };
      s.pc = .wait ∧ (1 : BitVec 2) ≠ 0 ∧ ((1 : BitVec 2).getLsbD 0 = true ↔ (s.rxFifo ≠ [] ∨ s.linkHup = true)) ∧
        ((1 : BitVec 2).getLsbD 1 = true ↔ s.coreIn ≠ [])) ∧
    (let s := { running .wait with coreIn := [[7]] };
      s.pc = .wait ∧ (2 : BitVec 2) ≠ 0 ∧ ((2 : BitVec 2).getLsbD 0 = true ↔ (s.rxFifo ≠ [] ∨ s.linkHup = true)) ∧
        ((2 : BitVec 2).getLsbD 1 = true ↔ s.coreIn ≠ [])) ∧
    (let s := { running .wait with linkHup := true, coreIn := [[]] };
      s.pc = .wait ∧ (3 : BitVec 2) ≠ 0 ∧ ((3 : BitVec 2).getLsbD 0 = true ↔ (s.rxFifo ≠ [] ∨ s.linkHup = true)) ∧
        ((3 : BitVec 2).getLsbD 1 = true ↔ s.coreIn ≠ [])) ∧
    (let s := running .wait; ¬ ((0 : BitVec 2) ≠ 0) ∧ s.pc = .wait) := by decide

theorem witness_WaitOutcomes : (running .wait).pc = .wait ∧ State.reset.pc ≠ .wait := by decide

/-- With one source pending its handler is enabled whatever `DISPATCH_ORDER`; with both, one of the two at least. -/
theorem witness_DispatchRunsAPendingHandler :
    (let s := { running .dispatch with pending := ⟨true, false⟩ };
      s.pc = .dispatch ∧ s.pending.link = true ∧ ¬ (Config.params.dispatchOrder = .coreFirst ∧ s.pending.core = true)) ∧
    (let s := { running .dispatch with pending := ⟨false, true⟩ };
      s.pc = .dispatch ∧ s.pending.core = true ∧ ¬ (Config.params.dispatchOrder = .linkFirst ∧ s.pending.link = true)) ∧
    (let s := { running .dispatch with pending := ⟨true, true⟩ };
      ¬ (Config.params.dispatchOrder = .coreFirst ∧ s.pending.core = true) ∨
        ¬ (Config.params.dispatchOrder = .linkFirst ∧ s.pending.link = true)) := by
  refine ⟨⟨rfl, rfl, by simp⟩, ⟨rfl, rfl, by simp⟩, ?_⟩
  cases Config.params.dispatchOrder <;> simp

theorem witness_IoRetryChangesNothing :
    (let s := { running .linkRead with rxFifo := [7] };
      Filled s.buf s.head ∧ s.pc = .linkRead ∧ s.rxFifo ≠ [] ∧ s.head < Config.params.cap) ∧
    (Filled (running .coreRead).buf (running .coreRead).head ∧ (running .coreRead).pc = .coreRead) ∧
    (running .poll).pc = .poll ∧ (running .write).pc = .write ∧
    (Filled (running .wait).buf (running .wait).head ∧ (running .wait).pc = .wait) :=
  ⟨⟨filled_running .linkRead, rfl, by simp, cap_pos⟩, ⟨filled_running .coreRead, rfl⟩, rfl, rfl, filled_running .wait, rfl⟩

theorem witness_ConfigurationWrites : State.reset.run = .idle ∧ (running .wait).run ≠ .idle := by decide

theorem witness_StartOutcomes :
    (let s := { State.reset with bitrate := 115200 };
      s.pc = .reset ∧ 1 ≤ s.bitrate.toNat ∧ s.bitrate.toNat ∈ Config.params.rates) ∧
    (State.reset.pc = .reset ∧ ¬ (1 ≤ State.reset.bitrate.toNat ∧ State.reset.bitrate.toNat ∈ Config.params.rates)) ∧
    (running .wait).pc ≠ .reset :=
  ⟨⟨rfl, by decide, Config.params_valid.rates_115200⟩, ⟨rfl, fun h => absurd h.1 (by decide)⟩, by decide⟩

theorem witness_FatalEntryChangesOnlyTheStatus : fatalCondition Config.params .waitFailure (running .wait) = .ok true := rfl

theorem witness_UnraisedCodesAreNeverRecorded : (0x00 : Byte) = 0 ∧ 0x10 ≤ (0x10 : Byte).toNat ∧ 0x10 ≤ (0xFF : Byte).toNat := by
  decide

/-- A halted block. -/
def halted : State := { running .fatal with run := .fatal, cause := .waitFailure }

theorem witness_FatalIsSticky :
    halted.pc = .fatal ∧ halted.run = .fatal ∧ (Instr.envTick 1 ≠ .reset ∧ Instr.start ≠ .reset) ∧
      exec (.envTick 1) halted = .next (emit (.envTick 1) [] { halted with nowUs := 1 }) ∧ exec .start halted = .next halted :=
  ⟨rfl, rfl, by decide, rfl, rfl⟩

theorem witness_EnvRxDelivery :
    (State.reset.rxFifo.length < Config.params.rxFifoDepth) ∧
    (let s := { State.reset with rxFifo := List.replicate Config.params.rxFifoDepth 7 };
      Config.params.rxFifoDepth ≤ s.rxFifo.length ∧ s.hwfc = false) ∧
    (let s := { State.reset with rxFifo := List.replicate Config.params.rxFifoDepth 7, hwfc := true };
      s.rxFifo.length = Config.params.rxFifoDepth ∧ s.hwfc = true) :=
  ⟨Config.params_valid.rxFifoDepth_pos, ⟨by simp, rfl⟩, by simp, rfl⟩

theorem witness_EnvTxDrainOntoTheWire :
    let s := { State.reset with txQueue := [1, 2] }
    (1 ≤ 1 ∧ 1 ≤ s.txQueue.length) ∧ (1 ≤ 2 ∧ 2 ≤ s.txQueue.length) ∧ ¬ (1 ≤ 0 ∧ 0 ≤ s.txQueue.length) ∧
      ¬ (1 ≤ 3 ∧ 3 ≤ s.txQueue.length) := by decide

theorem witness_EnvCoreSendAndReceive :
    ({ State.reset with coreOut := [[7], []] } : State).coreOut = [7] :: [[]] ∧
    (∀ frame rest, State.reset.coreOut = frame :: rest → 0 ≠ frame.length) :=
  ⟨rfl, fun _ _ h => absurd h (by simp [State.reset])⟩

theorem witness_EnvTickAndHangUp :
    1 ≤ 1 ∧ State.reset.linkHup = false ∧ ({ State.reset with linkHup := true } : State).linkHup = true := by decide

theorem witness_EnvironmentLeavesTheBlockAlone :
    isEnvironment (.envTick 1) = true ∧
      exec (.envTick 1) State.reset = .next (emit (.envTick 1) [] { State.reset with nowUs := 1 }) := ⟨rfl, rfl⟩

/-- Each clause's change, seen at TC4. -/
theorem witness_BlockStateIsWrittenOnlyByItsOperations :
    see (.linkRead 1) { running .linkRead with rxFifo := [7] } State.head = some 1 ∧
    see (.hdrFail 3) (holding .sync .seekingHeader [1, 2, 3, 4, 5, 6]) State.head = some 3 ∧
    see (.hdrFound 0) (holding .sync .seekingHeader f2) State.sync = some .seekingPayload ∧
    see (.hdrFail 3) (holding .sync .seekingHeader [1, 2, 3, 4, 5, 6]) State.buf = some [(0, 4), (1, 5), (2, 6)] ∧
    see (.coreRead 1) { running .coreRead with coreIn := [[7]] } State.egLen = some 1 ∧
    see (.depthPoll 0) (running .poll) State.egDeadline = some 1388 ∧
    see (.waitWake 1) { running .wait with rxFifo := [7] } (fun t => (t.pc, t.pending)) = some (.dispatch, ⟨true, false⟩) ∧
    see (.fatal 0x03) (running .wait) (fun t => (t.run, t.cause)) = some (.fatal, .waitFailure) ∧
    see (.cfgBitrate 9600) State.reset State.bitrate = some 9600 ∧
    see (.cfgFlowctl true) State.reset State.hwfc = some true := by decide

theorem witness_ClockAndWireOnlyGrow : step State.reset = .next State.reset := rfl

theorem witness_HostAccessRules :
    let at0 := fun (m : Move) => ({ running .wait with moves := [m] } : State).moves = m :: []
    at0 (.hostRead 32 12) ∧ at0 (.hostRead 8 12) ∧ at0 (.hostWrite 32 2 1 .ok) ∧ at0 (.hostWrite 32 12 1 .ok) ∧
      at0 (.hostWrite 32 0x24 1 .ok) ∧ at0 (.hostWrite 32 0 0 .ok) ∧ at0 (.hostWrite 32 4 9600 .ok) ∧
      at0 (.hostWrite 32 8 1 .ok) ∧ (running .wait).run ≠ .idle ∧ (0 : Word32).getLsbD 0 = false ∧ 0x24 % 4 = 0 :=
  ⟨rfl, rfl, rfl, rfl, rfl, rfl, rfl, rfl, by decide, by decide, by decide⟩

theorem witness_HostWritesThatAct :
    let s := { State.reset with moves := [.hostWrite 32 0 1 .ok] }
    s.moves = .hostWrite 32 0 1 .ok :: [] ∧ s.run = .idle ∧ (1 : Word32).getLsbD 0 = true ∧ s.pc = .reset ∧
      rateSupported Config.params s.bitrate = false ∧
      rateSupported Config.params ({ s with bitrate := 115200 } : State).bitrate = true ∧ (running .wait).pc ≠ .reset :=
  ⟨rfl, rfl, by decide, rfl, Machine.rateSupported_zero _, Machine.rateSupported_115200, by decide⟩

/-! #### Invariants -/

/-- The run from power-on that boots the block and brings a received byte's handler to its read. -/
def boot : List Move :=
  [.label (bareRecord 0x4001C200), .label (bareRecord 0x42000000), .label (bareRecord 0x50000007),
    .label (bareRecord 0x30000001), .label (bareRecord 0x32000000)]

/-- The states of that run. -/
def booted : Nat → State
  | 0 => { State.reset with moves := boot }
  | n + 1 =>
    match step (booted n) with
    | .next t => t
    | .fault _ => booted n
    | .refused _ => booted n

theorem boot_steps (n : Nat) (hn : n < 5) : step (booted n) = .next (booted (n + 1)) := by
  match n, hn with
  | 0, _ => rfl
  | 1, _ => rfl
  | 2, _ => rfl
  | 3, _ => rfl
  | 4, _ => rfl

theorem reachable_booted (n : Nat) (hn : n ≤ 5) : Reachable (booted n) := by
  induction n with
  | zero => exact .powerOn boot
  | succ n ih => exact .step (ih (by omega)) (boot_steps n (by omega))

theorem booted_reads : (booted 5).pc = .linkRead ∧ (booted 5).rxFifo = [7] := ⟨rfl, rfl⟩

theorem witness_StepKeepsTheBlockInvariant :
    let s := { running .linkRead with rxFifo := [7], moves := [.label (bareRecord 0x54000001)] }
    Inv Config.params s ∧ s.moves ≠ [] ∧ ∃ t, step s = .next t := by
  have h := inv_linkRead
  exact ⟨⟨h.1, h.2, h.3, h.4, h.5, h.6, h.7, h.8, h.9, h.10, h.11, h.12, h.13, h.14, h.15, h.16, h.17, h.18, h.19, h.20, h.21⟩,
    by simp, _, rfl⟩

theorem witness_NoStepReadsAnUndefinedCell : Inv Config.params { running .linkRead with rxFifo := [7] } := inv_linkRead

theorem inv_reset : Inv Config.params { State.reset with moves := boot } := by
  constructor <;> simp [State.reset, Machine.filled_nil, Pending.isEmpty, Phase.isEgress]

theorem queues_reset : QueuesMatch Config.params { State.reset with moves := boot } := by
  constructor <;> simp [State.reset, traceOf, Trace.start, Phase.isEgress]

theorem paced_reset : PacedInv Config.params { State.reset with moves := boot } := by
  constructor <;> simp [State.reset, traceOf, Trace.start, WritesPaced]

theorem reads_reset : ReadsGreedily Config.params { State.reset with moves := boot } := ⟨[], rfl, rfl⟩

theorem witness_StepKeepsQueueOrder :
    Inv Config.params (booted 0) ∧ QueuesMatch Config.params (booted 0) ∧ step (booted 0) = .next (booted 1) :=
  ⟨inv_reset, queues_reset, boot_steps 0 (by decide)⟩

theorem witness_StepKeepsThePacing :
    Inv Config.params (booted 0) ∧ QueuesMatch Config.params (booted 0) ∧ PacedInv Config.params (booted 0) ∧
      step (booted 0) = .next (booted 1) :=
  ⟨inv_reset, queues_reset, paced_reset, boot_steps 0 (by decide)⟩

theorem witness_StepKeepsTheGreedyReading :
    Inv Config.params (booted 0) ∧ QueuesMatch Config.params (booted 0) ∧ ReadsGreedily Config.params (booted 0) ∧
      step (booted 0) = .next (booted 1) :=
  ⟨inv_reset, queues_reset, reads_reset, boot_steps 0 (by decide)⟩

theorem witness_ReachableStatesKeepTheGuarantees :
    Reachable (booted 5) ∧ (booted 5).run = .running ∧ (booted 5).pc ≠ .sync :=
  ⟨reachable_booted 5 (by decide), rfl, by rw [booted_reads.1]; decide⟩

theorem witness_PendingSourcesStayReady :
    Reachable (booted 5) ∧ (booted 5).pc = .linkRead ∧ Reachable (booted 4) ∧ (booted 4).pending.link = true :=
  ⟨reachable_booted 5 (by decide), rfl, reachable_booted 4 (by decide), rfl⟩

/-! #### A fair run -/

/-- The labels: the gap ends, the message is written and leaves, and the clock goes on for ever. -/
def fairLabel : Nat → Instr
  | 0 => .idleGap 1388
  | 1 => .linkWrite 1
  | 2 => .envTxDrain 1
  | _ + 3 => .envTick 1

/-- The states. -/
def fairState : Nat → State
  | 0 => { sending .gap [7] with egSleepUs := 1388 }
  | n + 1 =>
    match exec (fairLabel n) (fairState n) with
    | .next t => t
    | .fault _ => fairState n
    | .refused _ => fairState n

/-- The run. -/
def fairRun : LabelRun where
  state := fairState
  label := fairLabel
  next n := by
    match n with
    | 0 => rfl
    | 1 => rfl
    | 2 => rfl
    | n + 3 => rfl

theorem fairState_waits (n : Nat) :
    let s := fairState (n + 3)
    s.pc = .wait ∧ readyMask s = 0 ∧ s.txQueue = [] ∧ s.coreOut = [] ∧ s.nowUs = n := by
  induction n with
  | zero => exact ⟨rfl, rfl, rfl, rfl, rfl⟩
  | succ n ih =>
    obtain ⟨h1, h2, h3, h4, h5⟩ := ih
    have h : fairState (n + 1 + 3) = emit (.envTick 1) [] { fairState (n + 3) with nowUs := (fairState (n + 3)).nowUs + 1 } := rfl
    rw [h]
    exact ⟨h1, h2, h3, h4, by simp [h5]⟩

theorem fairLabel_benign (n : Nat) : isDraw (fairLabel n) = false ∧ fairLabel n ≠ .reset ∧ ∀ code, fairLabel n ≠ .fatal code := by
  match n with
  | 0 => exact ⟨rfl, by simp [fairLabel], by simp [fairLabel]⟩
  | 1 => exact ⟨rfl, by simp [fairLabel], by simp [fairLabel]⟩
  | 2 => exact ⟨rfl, by simp [fairLabel], by simp [fairLabel]⟩
  | n + 3 => exact ⟨rfl, by simp [fairLabel], by simp [fairLabel]⟩

/-- With no source ready the sequencer can only have its wait interrupted or fail. -/
theorem waiting_takes_none {s t : State} (hpc : s.pc = .wait) (hr : readyMask s = 0) {i : Instr} (hi : isSequencer i = true)
    (hd : isDraw i = false) : ¬ Taken i s t := by
  rw [taken_iff]
  intro he
  cases i <;> simp only [isSequencer, isDraw, reduceCtorEq] at hi hd <;>
    simp only [Effect, hpc, hr, reduceCtorEq, false_and, and_false, exists_false] at he
  case waitWake => exact he.2.1 he.2.2.1
  case fatal =>
    obtain ⟨c, rfl, h1, -⟩ := he
    cases c <;> simp [fatalCondition, hpc, oversizeHeader] at h1 <;> simp [Cause.code] at hd

theorem fairRun_fair : Fair fairRun where
  clock t := ⟨t + 3, Nat.le_of_eq (fairState_waits t).2.2.2.2.symm⟩
  drains n h := absurd (fairState_waits n).2.2.1 (h (n + 3) (by omega)).2
  receives n h := absurd (fairState_waits n).2.2.2.1 (h (n + 3) (by omega))
  retries n op _ h := absurd (show isDraw (fairLabel n) = true by rw [show fairLabel n = _ from h]; rfl)
    (by simp [(fairLabel_benign n).1])
  rewaits n _ h := absurd (show isDraw (fairLabel n) = true by rw [show fairLabel n = _ from h]; rfl)
    (by simp [(fairLabel_benign n).1])
  sequencer _ n h := by
    obtain ⟨i, t, -, hi, hd, ht⟩ := h (n + 3) (by omega)
    exact absurd ht (waiting_takes_none (fairState_waits n).1 (fairState_waits n).2.1 hi hd)

theorem inv_fair : Inv Config.params (fairState 0) := by
  have hf := filled_bytes [7]
  have hr : rateSupported Config.params 115200 = true := Machine.rateSupported_115200
  have hg : gapUs Config.params 115200 = 1388 := rfl
  have ht := Config.params_valid.txMax_pos
  constructor <;>
    simp [fairState, sending, running, State.reset, Machine.filled_nil, Pending.isEmpty, Phase.isEgress, AtRest]
  · exact hf
  · omega
  · exact hr
  · exact hg.symm

theorem witness_SleepsEndUnderFairness : Fair fairRun ∧ (fairRun.state 0).pc = .gap := ⟨fairRun_fair, rfl⟩

theorem witness_MessagesAreWrittenUnderFairness :
    Fair fairRun ∧ Inv Config.params (fairRun.state 0) ∧ (fairRun.state 0).pc.isEgress = true ∧
      (fairRun.state 0).hwfc = false ∧
      ∀ m, 0 ≤ m → fairRun.takes m → fairRun.label m ≠ .reset ∧ ∀ code, fairRun.label m ≠ .fatal code :=
  ⟨fairRun_fair, inv_fair, rfl, rfl, fun m _ _ => (fairLabel_benign m).2⟩

/-- An idle block, for `BOOT`; `ENV_RXS` up to the depth; one source ready, for `SERVE_LINK` and `SERVE_CORE`. -/
theorem witness_PseudoLabelsAreTakenInTurn :
    (State.reset.run = .idle ∧ State.reset.pc = .reset ∧ 1 ≤ (115200 : Word32).toNat ∧
      (115200 : Word32).toNat ∈ Config.params.rates) ∧
    State.reset.rxFifo.length + (List.replicate Config.params.rxFifoDepth (7 : Byte)).length ≤ Config.params.rxFifoDepth ∧
    (let s := { running .wait with rxFifo := [7] };
      s.pc = .wait ∧ s.coreIn = [] ∧ 1 ≤ 1 ∧ 1 ≤ min s.rxFifo.length (Config.params.cap - s.head)) ∧
    (let s := { running .wait with coreIn := [[7]] };
      s.pc = .wait ∧ s.rxFifo = [] ∧ s.linkHup = false ∧
        ∃ m rest, s.coreIn = m :: rest ∧ m ≠ [] ∧ 1 = min m.length Config.params.txMax) := by
  have := cap_pos
  have := Config.params_valid.txMax_pos
  refine ⟨⟨rfl, rfl, by decide, Config.params_valid.rates_115200⟩, by simp [State.reset], ⟨rfl, rfl, by decide, ?_⟩,
    rfl, rfl, rfl, [7], [], rfl, by simp, ?_⟩
  · simp [running, State.reset]
    omega
  · simp
    omega

end Sys2Proof.Tests
end

section
/-! The encoding family (30_encoding.md): the words decoding accepts, its verdicts, and the pseudo-labels taken in turn. -/

namespace Sys2Proof

/-! ### A word against a row of the opcode table -/

/-- A word lies in an operation's row when its `OPC` is the operation's code and its fixed-zero bits are 0 (R121, R122). -/
theorem mem_row_iff {w : Word32} {op : Opcode} :
    w &&& op.rowMask = op.rowMatch ↔ op.code = opcOf w ∧ argOf w &&& op.zeroBits = 0 := by
  constructor
  · intro h
    have parts : (opcOf w &&& 0xFF) ++ (argOf w &&& op.zeroBits) = op.code ++ (0 : BitVec 24) := by
      rw [← BitVec.and_append, ← word_eq]
      exact h
    have hopc := congrArg opcOf parts
    have harg := congrArg argOf parts
    rw [opcOf_append, opcOf_append] at hopc
    rw [argOf_append, argOf_append] at harg
    exact ⟨hopc.symm.trans BitVec.and_allOnes, harg⟩
  · rintro ⟨hc, hz⟩
    rw [word_eq w, ← hc]
    exact Laws.EncodedWord.row_of_zero hz

/-! ### The argument of a bare word -/

/-- A value whose bits from `k` on are all 0 is below `2 ^ k`. -/
theorem toNat_lt_of_high_bits_zero {v k : Nat} {x : BitVec v} (h : x &&& (BitVec.allOnes v <<< k) = 0) :
    x.toNat < 2 ^ k := by
  refine Nat.lt_pow_two_of_testBit _ fun j hj => ?_
  rw [BitVec.testBit_toNat]
  by_cases hv : j < v
  · have hbit := congrArg (·.getLsbD j) h
    simpa [hv, Nat.not_lt.2 hj, show j - k < v by omega] using hbit
  · exact BitVec.getLsbD_of_ge x j (Nat.not_lt.1 hv)

/-- A word that fixes all argument bits from `k` on to 0 has an argument of `k` bits (R122). -/
theorem bareArg_lt_of_zeroBits {op : Opcode} {x : BitVec 24} {k : Nat} (n : Nat) (hz : x &&& op.zeroBits = 0)
    (hop : op.zeroBits = BitVec.allOnes 24 <<< k) (hk : k < 24) : bareArg op x n < 2 ^ k := by
  have hx : x.toNat < 2 ^ k := toNat_lt_of_high_bits_zero (hop ▸ hz)
  have hne : x ≠ 0xFFFFFF := by
    rintro rfl
    have : 2 ^ k ≤ 2 ^ 23 := Nat.pow_le_pow_right (by decide) (by omega)
    have : (0xFFFFFF : BitVec 24).toNat = 16777215 := rfl
    omega
  rwa [bareArg, if_neg hne]

/-- The free argument of a bare CFG_BITRATE word is a 32-bit value (10_state.md R46). -/
theorem bareArg_cfgBitrate_lt (x : BitVec 24) (n : Nat) : bareArg .cfgBitrate x n < 2 ^ 32 := by
  have := x.isLt
  have := Nat.mod_lt (Config.freeExcess n) (show 2 ^ 32 - 0xFFFFFF > 0 by decide)
  simp only [bareArg, if_true]
  split <;> omega

theorem bareArg_of_ne_max {op : Opcode} {x : BitVec 24} {n : Nat} (h : x ≠ 0xFFFFFF) : bareArg op x n = x.toNat :=
  if_neg h

/-- `ARG = 0xFFFFFF` stands for every argument from `0xFFFFFF` on (R120). -/
theorem le_bareArg_max (op : Opcode) (n : Nat) : 0xFFFFFF ≤ bareArg op 0xFFFFFF n := by
  rw [bareArg, if_pos rfl]
  exact Nat.le_add_right _ _

theorem sat24_of_le {a : Nat} (h : 0xFFFFFF ≤ a) : sat24 a = 0xFFFFFF := by
  unfold sat24
  split
  · next hlt =>
    obtain rfl : a = 0xFFFFFF := by omega
    rfl
  · rfl

/-- The argument a bare word is given is one its `ARG` holds (R120). -/
theorem sat24_bareArg (op : Opcode) (x : BitVec 24) (n : Nat) : sat24 (bareArg op x n) = x := by
  by_cases hx : x = 0xFFFFFF
  · subst hx
    exact sat24_of_le (le_bareArg_max op n)
  · rw [bareArg_of_ne_max hx]
    apply BitVec.eq_of_toNat_eq
    exact sat24_toNat x.isLt

/-! ### The label of a bare word -/

/-- A word of an operation's row gives a label of the operation, whose full argument is the word's (R122, R123). -/
theorem labelOf_bareArg {op : Opcode} {x : BitVec 24} (n : Nat) (hz : x &&& op.zeroBits = 0) :
    ∃ i, labelOf op (bareArg op x n) none n = .ok i ∧ i.opcode = op ∧ i.fullArg = bareArg op x n := by
  cases op with
  | linkRead | hdrFound | hdrFail | hdrWait | payWait | frameEmit => exact ⟨_, rfl, rfl, rfl⟩
  | coreRead | depthPoll | drainSleep | idleGap | linkWrite => exact ⟨_, rfl, rfl, rfl⟩
  | envTxDrain | envCoreRecv | envTick => exact ⟨_, rfl, rfl, rfl⟩
  | envCoreSend => exact ⟨_, rfl, rfl, by simp [Instr.fullArg, freeMessage]⟩
  | cfgBitrate => exact ⟨_, rfl, rfl, Nat.mod_eq_of_lt (bareArg_cfgBitrate_lt x n)⟩
  | waitWake => exact ⟨_, rfl, rfl, Nat.mod_eq_of_lt (bareArg_lt_of_zeroBits n hz rfl (by decide))⟩
  | ioRetry | fatal | envRx =>
    exact ⟨_, rfl, rfl, Nat.mod_eq_of_lt (bareArg_lt_of_zeroBits (k := 8) n hz rfl (by decide))⟩
  | cfgFlowctl =>
    have h := bareArg_lt_of_zeroBits (k := 1) n hz rfl (by decide)
    refine ⟨_, rfl, rfl, ?_⟩
    generalize bareArg .cfgFlowctl x n = a at h ⊢
    interval_cases a <;> rfl
  | waitEintr | dispatchLink | dispatchCore | start | reset | envLinkHup =>
    have h := bareArg_lt_of_zeroBits (k := 0) n hz rfl (by decide)
    exact ⟨_, rfl, rfl, (Nat.lt_one_iff.1 h).symm⟩

/-! ### Decoding a bare word -/

section decodeBare
variable {w : Word32} {op : Opcode} (n : Nat)

theorem decode_reservedOpcode (h : ∀ op : Opcode, op.code ≠ opcOf w) :
    decode (bareRecord w) n = .error .reservedOpcode := by
  simp only [decode, bareRecord, Opcode.ofCode?_eq_none.2 h]

theorem decode_reservedArgBits (hc : op.code = opcOf w) (hz : argOf w &&& op.zeroBits ≠ 0) :
    decode (bareRecord w) n = .error .reservedArgBits := by
  simp only [decode, bareRecord, ← hc, Opcode.ofCode?_code]
  exact if_pos hz

/-- A word of an operation's row decodes to a label of the operation, of which it is the word (R123). -/
theorem decode_of_row (hc : op.code = opcOf w) (hz : argOf w &&& op.zeroBits = 0) :
    ∃ i, decode (bareRecord w) n = .ok i ∧ i.opcode = op ∧ encodeWord i = w ∧ i.fullArg = bareArg op (argOf w) n := by
  obtain ⟨i, hi, hop, ha⟩ := labelOf_bareArg n hz
  refine ⟨i, ?_, hop, ?_, ha⟩
  · simp only [decode, bareRecord, ← hc, Opcode.ofCode?_code, hz, ne_eq, not_true_eq_false, if_false, fullArgOf, hi]
  · calc encodeWord i = op.code ++ sat24 (bareArg op (argOf w) n) := by rw [encodeWord, hop, ha]
      _ = opcOf w ++ argOf w := by rw [sat24_bareArg, hc]
      _ = w := (word_eq w).symm

/-- The operation of the row a decoded word lies in. -/
theorem row_of_decode {i : Instr} (h : decode (bareRecord w) n = .ok i) :
    ∃ op : Opcode, op.code = opcOf w ∧ argOf w &&& op.zeroBits = 0 := by
  by_contra hno
  push Not at hno
  by_cases hc : ∃ op : Opcode, op.code = opcOf w
  · obtain ⟨op, hc⟩ := hc
    rw [decode_reservedArgBits n hc (hno op hc)] at h
    simp at h
  · rw [decode_reservedOpcode n (not_exists.1 hc)] at h
    simp at h

end decodeBare

/-- Settles O3: a word that decodes has neither defect of R123, and one of a row decodes to a label. -/
theorem acceptedWordsAreTableRows : Obligations.AcceptedWordsAreTableRows := by
  intro w n
  simp only [mem_row_iff]
  constructor
  · rintro ⟨i, hi⟩
    exact row_of_decode n hi
  · rintro ⟨op, hc, hz⟩
    obtain ⟨i, hi, -⟩ := decode_of_row n hc hz
    exact ⟨i, hi⟩

namespace Machine

/-- The machine refuses a record that decodes to no label, under the decoder's verdict (R123). -/
theorem step_refuses_invalid {s : State} {r : LabelRecord} {rest : List Move} {e : Reject}
    (hm : s.moves = .label r :: rest) (hd : decode r s.freeCount = .error e) : step s = .refused (.invalidLabel e) := by
  simp only [step, takeMove, hm, runMove, runRecord, hd]

/-- Settles O4, one lemma per verdict of the decoder. -/
theorem decodeVerdicts : Obligations.DecodeVerdicts := by
  intro w n
  refine ⟨decode_reservedOpcode n, fun _ => decode_reservedArgBits n, fun op hc hz => ?_, fun s rest hm hn => ?_⟩
  · obtain ⟨i, hi, hop, hw, ha⟩ := decode_of_row n hc hz
    refine ⟨i, hi, hop, hw, fun hne => ha.trans (bareArg_of_ne_max hne), fun hmax => ?_⟩
    rw [ha, hmax]
    exact le_bareArg_max op n
  · exact ⟨fun h => step_refuses_invalid hm (decode_reservedOpcode _ h),
      fun op hc hz => step_refuses_invalid hm (decode_reservedArgBits _ hc hz)⟩

/-! ### Labels taken in turn -/

theorem takeInTurn_cons {i : Instr} {is : List Instr} {s t : State} :
    takeInTurn (i :: is) s = some t ↔ ∃ u, Taken i s u ∧ takeInTurn is u = some t := by
  unfold Taken
  rw [takeInTurn]
  cases exec i s with
  | next u => by_cases hl : u.history.length = s.history.length + 1 <;> simp [hl]
  | fault f => simp
  | refused r => simp

/-- Running the labels in turn answers `t` exactly when they are steps from `s` to `t` (R127). -/
theorem takeInTurn_iff {is : List Instr} {s t : State} : takeInTurn is s = some t ↔ TakenInTurn is s t := by
  induction is generalizing s with
  | nil => simp [takeInTurn, TakenInTurn, eq_comm]
  | cons i is ih => simp only [takeInTurn_cons, TakenInTurn, ih]

theorem takePseudo_iff {q : PseudoLabel} {s t : State} : takePseudo q s = some t ↔ TakenInTurn q.expand s t :=
  takeInTurn_iff

/-- The labels are taken in turn exactly when each has its effect in its turn. -/
theorem takenInTurn_cons_iff {i : Instr} {is : List Instr} {s t : State} :
    TakenInTurn (i :: is) s t ↔ ∃ u, Effect Config.params s u i ∧ TakenInTurn is u t := by
  simp only [TakenInTurn, taken_iff]

/-! ### Where each pseudo-label is valid -/

/-- The link alone is ready (60_exceptions.md R245). -/
theorem readyMask_eq_link {s : State} : readyMask s = 1 ↔ linkReady s = true ∧ coreReady s = false := by
  unfold readyMask
  cases linkReady s <;> cases coreReady s <;> decide

/-- The core alone is ready (R245). -/
theorem readyMask_eq_core {s : State} : readyMask s = 2 ↔ linkReady s = false ∧ coreReady s = true := by
  unfold readyMask
  cases linkReady s <;> cases coreReady s <;> decide

theorem rateSupported_iff {p : Params} {v : Word32} : rateSupported p v = true ↔ 1 ≤ v.toNat ∧ v.toNat ∈ p.rates := by
  simp [rateSupported]

/-- Both writes of CONFIG are always enabled (42_dispatch_control.md R219, R220). -/
theorem config_taken (v : Word32) (f : Bool) (s : State) : ∃ t, takePseudo (.config v f) s = some t := by
  simp only [takePseudo_iff, PseudoLabel.expand, takenInTurn_cons_iff]
  exact ⟨_, _, rfl, _, rfl, rfl⟩

/-- BOOT of an idle block: START finds the phase as it was and the rate just written (R219, R221). -/
theorem boot_taken_iff {v : Word32} {f : Bool} {s : State} (hs : s.run = .idle) :
    (∃ t, takePseudo (.boot v f) s = some t) ↔ s.pc = .reset ∧ 1 ≤ v.toNat ∧ v.toNat ∈ Config.params.rates := by
  simp only [takePseudo_iff, PseudoLabel.expand, takenInTurn_cons_iff, ← rateSupported_iff]
  constructor
  · rintro ⟨_, _, rfl, _, rfl, _, ⟨hpc, hrate, -⟩, -⟩
    simpa [hs] using And.intro hpc hrate
  · rintro ⟨hpc, hrate⟩
    exact ⟨_, _, rfl, _, rfl, _, ⟨by simp [hs, hpc], by simp [hs, hrate], rfl⟩, rfl⟩

/-- While `rx_fifo` has space a received byte joins it, with flow control or without (42_dispatch_control.md R230). -/
theorem envRx_effect_of_space {b : Byte} {s : State} (h : s.rxFifo.length < Config.params.rxFifoDepth) :
    ∃ u, Effect Config.params s u (.envRx b) ∧ u.rxFifo = s.rxFifo ++ [b] :=
  ⟨_, ⟨fun hfull => absurd hfull.2 (Nat.ne_of_lt h), rfl⟩, if_pos h⟩

theorem envRxs_taken {bs : List Byte} {s : State} (h : s.rxFifo.length + bs.length ≤ Config.params.rxFifoDepth) :
    ∃ t, takePseudo (.envRxs bs) s = some t ∧ t.rxFifo = s.rxFifo ++ bs := by
  simp only [takePseudo_iff, PseudoLabel.expand]
  induction bs generalizing s with
  | nil => exact ⟨s, rfl, (List.append_nil _).symm⟩
  | cons b bs ih =>
    rw [List.length_cons] at h
    obtain ⟨u, hu, hfifo⟩ := envRx_effect_of_space (b := b) (s := s) (by omega)
    obtain ⟨t, ht, hrx⟩ := ih (s := u) (by simp [hfifo]; omega)
    exact ⟨t, takenInTurn_cons_iff.2 ⟨u, hu, ht⟩, by simp [hrx, hfifo]⟩

/-- SERVE_LINK: the wake leaves the link alone pending, so its handler runs in every dispatch order and makes the read
(R146, R210, R214). -/
theorem serveLink_taken_iff {r : Nat} {s : State} :
    (∃ t, takePseudo (.serveLink r) s = some t) ↔
      s.pc = .wait ∧ readyMask s = 1 ∧ 1 ≤ r ∧ r ≤ readRequest Config.params s := by
  simp only [takePseudo_iff, PseudoLabel.expand, takenInTurn_cons_iff]
  constructor
  · rintro ⟨_, _, ⟨hpc, -, hmask, rfl⟩, _, ⟨-, -, -, rfl⟩, _, ⟨-, hpos, hle, -⟩, -⟩
    exact ⟨hpc, hmask.symm, hpos, hle⟩
  · rintro ⟨hpc, hmask, hpos, hle⟩
    exact ⟨_, _, ⟨hpc, by decide, hmask.symm, rfl⟩, _, ⟨rfl, rfl, fun h => Bool.false_ne_true h.2, rfl⟩,
      _, ⟨rfl, hpos, hle, rfl⟩, rfl⟩

/-- SERVE_CORE: the wake leaves the core alone pending, so its handler runs in every dispatch order and reads the message
(41_egress.md R180; R210, R215). -/
theorem serveCore_taken_iff {len : Nat} {s : State} :
    (∃ t, takePseudo (.serveCore len) s = some t) ↔
      s.pc = .wait ∧ readyMask s = 2 ∧
        ∃ m rest, s.coreIn = m :: rest ∧ m ≠ [] ∧ len = min m.length Config.params.txMax := by
  simp only [takePseudo_iff, PseudoLabel.expand, takenInTurn_cons_iff]
  constructor
  · rintro ⟨_, _, ⟨hpc, -, hmask, rfl⟩, _, ⟨-, -, -, rfl⟩, _, ⟨m, rest, hm, -, hne, hlen, -⟩, -⟩
    exact ⟨hpc, hmask.symm, m, rest, hm, hne, hlen⟩
  · rintro ⟨hpc, hmask, m, rest, hm, hne, hlen⟩
    exact ⟨_, _, ⟨hpc, by decide, hmask.symm, rfl⟩, _, ⟨rfl, rfl, fun h => Bool.false_ne_true h.2, rfl⟩,
      _, ⟨m, rest, hm, rfl, hne, hlen, rfl⟩, rfl⟩

/-- The link alone is ready, with a byte to read: the core sent nothing and `rx_fifo` holds the bytes asked for. -/
theorem serveLink_valid_iff {r : Nat} {s : State} :
    (∃ t, takePseudo (.serveLink r) s = some t) ↔
      s.pc = .wait ∧ s.coreIn = [] ∧ 1 ≤ r ∧ r ≤ min s.rxFifo.length (Config.params.cap - s.head) := by
  rw [serveLink_taken_iff, readyMask_eq_link]
  unfold readRequest
  constructor
  · rintro ⟨hpc, ⟨-, hcore⟩, hpos, hle⟩
    exact ⟨hpc, by simpa [coreReady] using hcore, hpos, hle⟩
  · rintro ⟨hpc, hcore, hpos, hle⟩
    have hrx : s.rxFifo ≠ [] := List.ne_nil_of_length_pos (by omega)
    exact ⟨hpc, ⟨by simp [linkReady, hrx], by simp [coreReady, hcore]⟩, hpos, hle⟩

/-- The core alone is ready: no byte and no hang-up on the link. -/
theorem serveCore_valid_iff {len : Nat} {s : State} :
    (∃ t, takePseudo (.serveCore len) s = some t) ↔
      s.pc = .wait ∧ s.rxFifo = [] ∧ s.linkHup = false ∧
        ∃ m rest, s.coreIn = m :: rest ∧ m ≠ [] ∧ len = min m.length Config.params.txMax := by
  rw [serveCore_taken_iff, readyMask_eq_core]
  constructor
  · rintro ⟨hpc, ⟨hlink, -⟩, hmsg⟩
    obtain ⟨hrx, hhup⟩ : s.rxFifo = [] ∧ s.linkHup = false := by simpa [linkReady] using hlink
    exact ⟨hpc, hrx, hhup, hmsg⟩
  · rintro ⟨hpc, hrx, hhup, m, rest, hm, hmsg⟩
    exact ⟨hpc, ⟨by simp [linkReady, hrx, hhup], by simp [coreReady, hm]⟩, m, rest, hm, hmsg⟩

/-- Settles O60: the expansions by definition, the validity by induction on the sequence, and each form from the effects of
its labels in turn. -/
theorem pseudoLabelsAreTakenInTurn : Obligations.PseudoLabelsAreTakenInTurn :=
  ⟨fun _ => rfl, fun _ _ => rfl, fun _ _ => rfl, fun _ => rfl, fun _ => rfl, fun _ _ _ => takePseudo_iff,
    config_taken, fun _ _ _ => boot_taken_iff, fun _ _ => envRxs_taken, fun _ _ => serveLink_valid_iff,
    fun _ _ => serveCore_valid_iff⟩

end Machine
end Sys2Proof
end

section
/-! The ingress family (40_ingress.md): the link read with its fatals, and the synchronizer labels that emit no frame. -/

namespace Sys2Proof.Machine

section
variable {p : Params} {i : Instr} {s t : State}

/-! ### Answers at any parameters and at the machine's own -/

/-- A label's effect is its answer, at `p` and, where `p` are the machine's parameters, of `exec`. -/
theorem answers_of_effect (h : Effect p s t i) :
    execAt p i s = .next t ∧ (p = Config.params → exec i s = .next t) :=
  ⟨execAt_of_effect h, by rintro rfl; exact exec_of_effect h⟩

/-- With the buffer filled a label other than LINK_WRITE holds where it has no effect. -/
theorem holds_of_no_effect (hf : Filled s.buf s.head) (hi : ∀ len, i ≠ .linkWrite len) (h : ∀ t, ¬ Effect p s t i) :
    execAt p i s = .next s ∧ (p = Config.params → HoldsIn i s) := by
  have hold : execAt p i s = .next s :=
    execAt_holds (execAt_answers i hf fun ⟨len, hl⟩ => absurd hl (hi len)) h
  refine ⟨hold, ?_⟩
  rintro rfl
  exact (exec_eq_execAt i s).trans hold

/-! ### The link read and its fatals (R146, R248) -/

theorem linkRead_holds {r : Nat} (h : ¬ (s.pc = .linkRead ∧ 1 ≤ r ∧ r ≤ readRequest p s)) :
    execAt p (.linkRead r) s = .next s :=
  execAt_holds ⟨_, rfl⟩ fun _ ⟨hpc, hpos, hle, _⟩ => h ⟨hpc, hpos, hle⟩

theorem linkReadableZero_taken (hpc : s.pc = .linkRead) (hrx : s.rxFifo = []) :
    execAt p (.fatal Cause.linkReadableZero.code) s = .next (raiseFatal .linkReadableZero s) :=
  fatal_taken (by simp [fatalCondition, hpc, hrx])

theorem linkReadableZero_holds (h : ¬ (s.pc = .linkRead ∧ s.rxFifo = [])) :
    execAt p (.fatal Cause.linkReadableZero.code) s = .next s :=
  fatal_holds (by simpa [fatalCondition] using h)

theorem feedOverflow_taken (hpc : s.pc = .linkRead) (hrx : s.rxFifo ≠ []) (hfull : p.cap ≤ s.head) :
    execAt p (.fatal Cause.feedOverflow.code) s = .next (raiseFatal .feedOverflow s) :=
  fatal_taken (by simp [fatalCondition, hpc, hrx, hfull])

theorem feedOverflow_holds (h : ¬ (s.pc = .linkRead ∧ s.rxFifo ≠ [] ∧ p.cap ≤ s.head)) :
    execAt p (.fatal Cause.feedOverflow.code) s = .next s :=
  fatal_holds (by simpa [fatalCondition] using h)

/-- In `P_LINK_READ` the read call is made exactly past the two checks of R248. -/
theorem makesCall_linkRead (hpc : s.pc = .linkRead) (accept : IoCall → Bool) :
    makesCall p s accept = .ok (decide (s.rxFifo ≠ [] ∧ s.head < p.cap) && accept .linkRead) := by
  unfold makesCall ioCall
  rw [hpc]
  by_cases h : s.rxFifo ≠ [] ∧ s.head < p.cap <;> simp [h]

/-- Before its checks pass the read call is not made, so it neither fails nor is interrupted. -/
theorem linkRead_call_holds (hpc : s.pc = .linkRead) (h : ¬ (s.rxFifo ≠ [] ∧ s.head < p.cap)) :
    execAt p (.ioRetry Opcode.linkRead.code) s = .next s ∧ execAt p (.fatal Cause.linkReadError.code) s = .next s := by
  have hcall (accept : IoCall → Bool) : makesCall p s accept = .ok false := by
    rw [makesCall_linkRead hpc, decide_eq_false h, Bool.false_and]
  exact ⟨retry_holds (hcall _), fatal_holds (hcall _)⟩

/-- The read call may be interrupted or fail (R146, R216). -/
theorem linkRead_call_taken (hpc : s.pc = .linkRead) (hrx : s.rxFifo ≠ []) (hspace : s.head < p.cap) :
    execAt p (.ioRetry Opcode.linkRead.code) s = .next (emit (.ioRetry Opcode.linkRead.code) [] s) ∧
      execAt p (.fatal Cause.linkReadError.code) s = .next (raiseFatal .linkReadError s) := by
  have hcall : ioCall p s = .ok (some .linkRead) := ioCall_some.2 (.inl ⟨hpc, hrx, hspace, rfl⟩)
  exact ⟨execAt_of_effect ⟨⟨_, hcall, rfl⟩, rfl⟩, fatal_taken (makesCall_true.2 ⟨_, hcall, rfl⟩)⟩

/-- Only `P_LINK_READ` makes the read call. -/
theorem linkReadError_holds_elsewhere (hf : Filled s.buf s.head) (hpc : s.pc ≠ .linkRead) :
    execAt p (.fatal Cause.linkReadError.code) s = .next s := by
  refine (holds_of_no_effect (i := .fatal _) hf nofun ?_).1
  rintro t ⟨c, hc, hcond, -⟩
  obtain rfl := Cause.code_inj hc
  obtain ⟨call, hcall, haccept⟩ := makesCall_true.1 hcond
  obtain rfl : call = .linkRead := by simpa using haccept
  rcases ioCall_some.1 hcall with ⟨h, -⟩ | ⟨-, _, -, -, h⟩ | ⟨-, h⟩ | ⟨-, h⟩ | ⟨-, h⟩
  · exact hpc h
  all_goals simp at h

/-- The first `r` bytes of a sequence, written at `a`, stand there in order, and every other cell is as it was (R141). -/
theorem memRead_memWriteBytes_take (m : Memory) (a : Nat) {bs : List Byte} {r : Nat} (hr : r ≤ bs.length) :
    (∀ j, j < r → memRead (memWriteBytes m a (bs.take r)) (a + j) = bs[j]?) ∧
      ∀ c, c < a ∨ a + r ≤ c → memRead (memWriteBytes m a (bs.take r)) c = memRead m c := by
  have hlen : (bs.take r).length = r := List.length_take_of_le hr
  refine ⟨fun j hj => ?_, fun c hc => ?_⟩
  · rw [memRead_memWriteBytes, if_pos (by omega), Nat.add_sub_cancel_left, List.getElem?_take_of_lt hj]
  · rw [memRead_memWriteBytes, if_neg (by omega)]

/-- Outcome `OK(r)` of the read (R146). -/
theorem linkRead_taken {r : Nat} (hpc : s.pc = .linkRead) (hpos : 1 ≤ r) (hle : r ≤ readRequest p s) :
    ∃ t, execAt p (.linkRead r) s = .next t ∧
      t = { s with
        buf := t.buf, head := s.head + r, rxFifo := s.rxFifo.drop r, pc := .sync
        history := s.history ++ [⟨.linkRead r, []⟩] } ∧
      (∀ j, j < r → memRead t.buf (s.head + j) = s.rxFifo[j]?) ∧
      (∀ a, a < s.head ∨ s.head + r ≤ a → memRead t.buf a = memRead s.buf a) :=
  ⟨_, execAt_of_effect ⟨hpc, hpos, hle, rfl⟩, rfl,
    memRead_memWriteBytes_take s.buf s.head (hle.trans (Nat.min_le_left _ _))⟩

end

/-- Settles O10: the two checks in turn decide which of the three outcomes' labels are enabled. -/
theorem linkReadOutcomes : Obligations.LinkReadOutcomes := by
  intro s
  simp only [HoldsIn, exec_eq_execAt]
  refine ⟨fun hpc => ?elsewhere, fun hpc hrx => ?noBytes, fun hpc hrx hfull => ?noSpace, fun hpc hrx hspace => ?read⟩
  case elsewhere =>
    exact ⟨fun r => linkRead_holds fun h => hpc h.1, linkReadableZero_holds fun h => hpc h.1,
      feedOverflow_holds fun h => hpc h.1, fun hf => linkReadError_holds_elsewhere hf hpc⟩
  case noBytes =>
    have hnone : readRequest Config.params s = 0 := by simp [readRequest, hrx]
    exact ⟨linkReadableZero_taken hpc hrx, fun r => linkRead_holds (by omega), feedOverflow_holds fun h => h.2.1 hrx,
      linkRead_call_holds hpc fun h => h.1 hrx⟩
  case noSpace =>
    have hnone : readRequest Config.params s = 0 := by simp [readRequest, Nat.sub_eq_zero_of_le hfull]
    exact ⟨feedOverflow_taken hpc hrx hfull, fun r => linkRead_holds (by omega), linkReadableZero_holds fun h => hrx h.2,
      linkRead_call_holds hpc fun h => Nat.not_lt.2 hfull h.2⟩
  case read =>
    obtain ⟨hretry, herror⟩ := linkRead_call_taken hpc hrx hspace
    exact ⟨fun r => linkRead_taken hpc, fun r hr => linkRead_holds fun h => hr h.2, hretry, herror,
      linkReadableZero_holds fun h => hrx h.2, feedOverflow_holds fun h => Nat.not_le.2 hspace h.2.2⟩

/-! ### The header search (R152 to R154) -/

theorem compact_zero_buf {s t : State} (hf : Filled s.buf s.head) (h : compact 0 s = .ok t) : t.buf = s.buf := by
  rw [compact_zero hf] at h
  rw [Except.ok.inj h]

/-- Settles O11, by the scan for the first valid window and the cells a compaction keeps. -/
theorem hdrFoundCompactsToTheFirstHeader : Obligations.HdrFoundCompactsToTheFirstHeader := by
  intro p i s hf
  refine ⟨fun hpc hs hH hfirst => ?_, fun hno => holds_of_no_effect hf nofun ?_⟩
  · obtain ⟨m, hc, hm, hread⟩ := compact_spec (k := i) hf (by have := hfirst.1; omega)
    obtain ⟨hat, hexec⟩ :=
      answers_of_effect (i := .hdrFound i) ⟨hpc, syncChoice_hdrFound.2 ⟨hs, hH, hfirst⟩, _, hc, rfl⟩
    refine ⟨_, hat, hexec, rfl, hread, fun a => hm.read_none, ?_⟩
    rintro rfl
    have hsame : m = s.buf := compact_zero_buf hf hc
    exact hsame
  · rintro t ⟨hpc, hchoice, -⟩
    exact hno ⟨hpc, syncChoice_hdrFound.1 hchoice⟩

/-- Settles O12, by the failed scan, the cells a compaction keeps, and the completion of the handler. -/
theorem hdrFailKeepsTheLastBytes : Obligations.HdrFailKeepsTheLastBytes := by
  intro p n s hpos hf
  refine ⟨fun hpc hs hH hinv hn => ⟨by omega, ?_⟩, fun hno => holds_of_no_effect hf nofun ?_⟩
  · obtain ⟨m, hc, hm, hread⟩ := compact_spec (k := n) hf (by omega)
    obtain ⟨hat, hexec⟩ :=
      answers_of_effect (i := .hdrFail n) ⟨hpc, syncChoice_hdrFail.2 ⟨hs, hH, hinv⟩, hn, _, hc, rfl⟩
    rw [show s.head - n = p.H - 1 by omega] at hat hexec hm hread
    exact ⟨_, hat, hexec, completeHandler_eq _, hread, fun a => hm.read_none⟩
  · rintro t ⟨hpc, hchoice, hn, -⟩
    obtain ⟨hs, hH, hinv⟩ := syncChoice_hdrFail.1 hchoice
    exact hno ⟨hpc, hs, hH, hinv, hn⟩

/-- Settles O13: with fewer than `H` bytes the synchronizer's choice is to wait, and the handler completes. -/
theorem hdrWaitCompletesTheHandler : Obligations.HdrWaitCompletesTheHandler := by
  intro h s hf
  refine ⟨fun hpc hs hH hh => ?_, fun hno => (holds_of_no_effect (i := .hdrWait h) hf nofun ?_).2 rfl⟩
  · rw [exec_of_effect (i := .hdrWait h) ⟨hpc, syncChoice_hdrWait.2 ⟨hs, hH⟩, hh, rfl⟩]
    exact congrArg _ (completeHandler_eq _)
  · rintro t ⟨hpc, hchoice, hh, -⟩
    obtain ⟨hs, hH⟩ := syncChoice_hdrWait.1 hchoice
    exact hno ⟨hpc, hs, hH, hh⟩

/-! ### The wait for a frame (R155) -/

/-- Settles O14: with the frame incomplete the synchronizer's choice is to wait, and the handler completes. -/
theorem payWaitCompletesTheHandler : Obligations.PayWaitCompletesTheHandler := by
  intro p h s hf
  refine ⟨fun hpc hs hh hwait => ?_, fun hno => holds_of_no_effect hf nofun ?_⟩
  · obtain ⟨hat, hexec⟩ :=
      answers_of_effect (i := .payWait h) ⟨hpc, syncChoice_payWait.2 ⟨hs, hwait⟩, hh, rfl⟩
    exact ⟨_, hat, hexec, completeHandler_eq _⟩
  · rintro t ⟨hpc, hchoice, hh, -⟩
    obtain ⟨hs, hwait⟩ := syncChoice_payWait.1 hchoice
    exact hno ⟨hpc, hs, hh, hwait⟩

end Sys2Proof.Machine
end

section
/-! The egress family (41_egress.md): the pacing durations, the depth poll with its outcomes, and the drain sleep. -/

namespace Sys2Proof.Machine

section
variable {p : Params} {s : State}

/-! ### Calls a state does not make (R216) -/

/-- With the buffer filled, a state that makes no call the predicate accepts answers so. -/
theorem makesCall_false {accept : IoCall → Bool} (hf : Filled s.buf s.head)
    (hno : ∀ c, ioCall p s = .ok (some c) → accept c = false) : makesCall p s accept = .ok false := by
  obtain ⟨made, hmade⟩ := makesCall_ok (p := p) accept hf
  cases made with
  | false => exact hmade
  | true =>
    obtain ⟨c, hc, haccept⟩ := makesCall_true.1 hmade
    rw [hno c hc] at haccept
    contradiction

/-- The depth poll is the call of `P_POLL` and of no other phase. -/
theorem ioCall_depthPoll_iff : ioCall p s = .ok (some .depthPoll) ↔ s.pc = .poll := by
  simp [ioCall_some]

/-! ### The depth poll (R182) -/

theorem pollSleepUs_zero (rate : Word32) : pollSleepUs p 0 rate = gapUs p rate := rfl

theorem pollSleepUs_of_pos {d : Nat} (rate : Word32) (hd : 0 < d) : pollSleepUs p d rate = drainUs p d rate :=
  if_pos hd

/-- A poll that finds bytes in the transmit queue arms the drain sleep. -/
theorem depthPoll_drain_taken (hpc : s.pc = .poll) (hq : s.txQueue ≠ []) :
    execAt p (.depthPoll s.txQueue.length) s = .next
      { s with
        egSleepUs := drainUs p s.txQueue.length s.bitrate
        egDeadline := s.nowUs + drainUs p s.txQueue.length s.bitrate
        pc := .sleepDrain
        history := s.history ++ [⟨.depthPoll s.txQueue.length, []⟩] } := by
  have hpos : 0 < s.txQueue.length := List.length_pos_iff.2 hq
  rw [execAt_of_effect (i := .depthPoll s.txQueue.length) ⟨hpc, rfl, rfl⟩, pollSleepUs_of_pos _ hpos, if_pos hpos]
  rfl

/-- A poll that finds the transmit queue empty arms the idle gap. -/
theorem depthPoll_gap_taken (hpc : s.pc = .poll) (hq : s.txQueue = []) :
    execAt p (.depthPoll 0) s = .next
      { s with
        egSleepUs := gapUs p s.bitrate
        egDeadline := s.nowUs + gapUs p s.bitrate
        pc := .gap
        history := s.history ++ [⟨.depthPoll 0, []⟩] } :=
  execAt_of_effect ⟨hpc, by rw [hq]; rfl, rfl⟩

theorem depthPoll_holds {d : Nat} (h : ¬ (s.pc = .poll ∧ d = s.txQueue.length)) :
    execAt p (.depthPoll d) s = .next s :=
  execAt_holds ⟨_, rfl⟩ fun _ ⟨hpc, hd, _⟩ => h ⟨hpc, hd⟩

/-- The poll's call may be interrupted or fail (R216). -/
theorem depthPoll_call_taken (hpc : s.pc = .poll) :
    execAt p (.ioRetry Opcode.depthPoll.code) s = .next (emit (.ioRetry Opcode.depthPoll.code) [] s) ∧
      execAt p (.fatal Cause.depthPollError.code) s = .next (raiseFatal .depthPollError s) := by
  have hcall : ioCall p s = .ok (some .depthPoll) := ioCall_depthPoll_iff.2 hpc
  exact ⟨execAt_of_effect ⟨⟨_, hcall, rfl⟩, rfl⟩, fatal_taken (makesCall_true.2 ⟨_, hcall, rfl⟩)⟩

/-- Where the poll's call is not made it does not fail. -/
theorem depthPollError_holds_elsewhere (hf : Filled s.buf s.head) (hpc : s.pc ≠ .poll) :
    execAt p (.fatal Cause.depthPollError.code) s = .next s := by
  refine fatal_holds (makesCall_false hf fun c hc => decide_eq_false ?_)
  rintro rfl
  exact hpc (ioCall_depthPoll_iff.1 hc)

end

/-- Settles O24: the queue's length selects the timer armed, and the call's other outcomes belong to `P_POLL` alone. -/
theorem depthPollOutcomes : Obligations.DepthPollOutcomes := by
  intro s
  simp only [HoldsIn, exec_eq_execAt]
  exact ⟨depthPoll_drain_taken, depthPoll_gap_taken, fun d => depthPoll_holds, depthPoll_call_taken,
    fun hpc hf => depthPollError_holds_elsewhere hf hpc⟩

/-! ### The pacing durations (R181) -/

/-- At a rate of at least 1 the time of `bits` is the exact quotient, rounded down. -/
theorem bitTimesUs_of_pos {p : Params} {rate : Word32} (bits : Nat) (h : 1 ≤ rate.toNat) :
    bitTimesUs p bits rate = bits * 1000000 / rate.toNat :=
  if_neg (Nat.pos_iff_ne_zero.1 h)

/-- Settles O23: START is enabled only at a supported rate, a positive one, and leaves the rate as it is. -/
theorem pacingDurations : Obligations.PacingDurations := by
  refine ⟨fun d rate hrate => ⟨bitTimesUs_of_pos _ hrate, bitTimesUs_of_pos _ hrate⟩, fun s t htaken => ?_⟩
  obtain ⟨-, hrate, rfl⟩ := taken_iff.1 htaken
  exact (rateSupported_iff.1 hrate).1

/-! ### The drain sleep (R184) -/

/-- Settles O25, by the effect of DRAIN_SLEEP, which is all it can do. -/
theorem drainSleepEndsAtTheDeadline : Obligations.DrainSleepEndsAtTheDeadline := by
  intro us s
  refine ⟨fun hpc hdue hus => exec_of_effect ⟨hpc, hdue, hus, rfl⟩, fun hno => ?_⟩
  rw [HoldsIn, exec_eq_execAt]
  exact execAt_holds ⟨_, rfl⟩ fun _ ⟨hpc, hdue, hus, _⟩ => hno ⟨hpc, hdue, hus⟩

end Sys2Proof.Machine
end

section
/-! The control family (42_dispatch_control.md): the wait and its outcomes, the dispatch of pending handlers, the configuration
writes, and the environment's delivery, drain, clock and hang-up. -/

namespace Sys2Proof.Machine

section
variable {i : Instr} {s : State}

/-- A label that answers holds where its rule gives it no step. -/
theorem holdsIn_of_no_effect (hanswers : ∃ t, execAt Config.params i s = .next t)
    (h : ∀ t, ¬ Effect Config.params s t i) : HoldsIn i s :=
  (exec_eq_execAt i s).trans (execAt_holds hanswers h)

/-! ### The ready mask (R210, R245) -/

theorem linkReady_iff : linkReady s = true ↔ s.rxFifo ≠ [] ∨ s.linkHup = true := by simp [linkReady]

theorem coreReady_iff : coreReady s = true ↔ s.coreIn ≠ [] := by simp [coreReady]

theorem readyMask_getLsbD_zero : (readyMask s).getLsbD 0 = linkReady s := by
  unfold readyMask
  cases coreReady s <;> cases linkReady s <;> rfl

theorem readyMask_getLsbD_one : (readyMask s).getLsbD 1 = coreReady s := by
  unfold readyMask
  cases coreReady s <;> cases linkReady s <;> rfl

/-- The ready mask is the one whose two bits sample the two sources. -/
theorem eq_readyMask_iff {mask : BitVec 2} :
    mask = readyMask s ↔
      (mask.getLsbD 0 = true ↔ (s.rxFifo ≠ [] ∨ s.linkHup = true)) ∧ (mask.getLsbD 1 = true ↔ s.coreIn ≠ []) := by
  rw [← linkReady_iff, ← coreReady_iff]
  constructor
  · rintro rfl
    rw [readyMask_getLsbD_zero, readyMask_getLsbD_one]
    exact ⟨Iff.rfl, Iff.rfl⟩
  · rintro ⟨hlink, hcore⟩
    refine BitVec.eq_of_getLsbD_eq fun j hj => ?_
    obtain rfl | rfl : j = 0 ∨ j = 1 := by omega
    · rwa [readyMask_getLsbD_zero, Bool.eq_iff_iff]
    · rwa [readyMask_getLsbD_one, Bool.eq_iff_iff]

/-! ### The fatals of the wait (R212) -/

/-- The two fatals a wait can raise are enabled in any `P_WAIT` state. -/
theorem waitFatal_taken {c : Cause} (hc : c = .waitZeroReady ∨ c = .waitFailure) (hpc : s.pc = .wait) :
    exec (.fatal c.code) s = .next (raiseFatal c s) :=
  exec_of_effect ⟨c, rfl, by rcases hc with rfl | rfl <;> simp [fatalCondition, hpc], rfl⟩

theorem waitFatal_holds {c : Cause} (hc : c = .waitZeroReady ∨ c = .waitFailure) (hpc : s.pc ≠ .wait) :
    HoldsIn (.fatal c.code) s :=
  (exec_eq_execAt _ s).trans (fatal_holds (by rcases hc with rfl | rfl <;> simp [fatalCondition, hpc]))

end

/-- Settles O29: the ready mask is the one mask whose bits sample the two sources. -/
theorem waitWakeSamplesReadiness : Obligations.WaitWakeSamplesReadiness := by
  intro mask s
  refine ⟨fun hpc hmask hlink hcore => exec_of_effect ⟨hpc, hmask, eq_readyMask_iff.2 ⟨hlink, hcore⟩, rfl⟩, fun hno => ?_⟩
  refine holdsIn_of_no_effect ⟨_, rfl⟩ ?_
  rintro t ⟨hpc, hmask, hready, -⟩
  exact hno ⟨hpc, hmask, eq_readyMask_iff.1 hready⟩

/-- Settles O30: the phase alone decides whether a wait's other outcomes are enabled. -/
theorem waitOutcomes : Obligations.WaitOutcomes := by
  intro s
  refine ⟨fun hpc => ⟨exec_of_effect ⟨hpc, rfl⟩, ?_⟩, fun hpc => ⟨?_, ?_⟩⟩
  · exact ⟨waitFatal_taken (.inl rfl) hpc, waitFatal_taken (.inr rfl) hpc⟩
  · exact holdsIn_of_no_effect ⟨_, rfl⟩ fun _ heffect => hpc heffect.1
  · exact ⟨waitFatal_holds (.inl rfl) hpc, waitFatal_holds (.inr rfl) hpc⟩

/-- Settles O31: each handler's source is pending and the dispatch order does not put the other one first. -/
theorem dispatchRunsAPendingHandler : Obligations.DispatchRunsAPendingHandler := by
  intro s
  refine ⟨fun hpc hlink horder => exec_of_effect ⟨hpc, hlink, horder, rfl⟩, fun hno => ?_,
    fun hpc hcore horder => exec_of_effect ⟨hpc, hcore, horder, rfl⟩, fun hno => ?_⟩
  · exact holdsIn_of_no_effect ⟨_, rfl⟩ fun _ ⟨hpc, hlink, horder, _⟩ => hno ⟨hpc, hlink, horder⟩
  · exact holdsIn_of_no_effect ⟨_, rfl⟩ fun _ ⟨hpc, hcore, horder, _⟩ => hno ⟨hpc, hcore, horder⟩

/-- Settles O33: both writes are always enabled, and their effect tests for `IDLE`. -/
theorem configurationWrites : Obligations.ConfigurationWrites := by
  intro v f s
  refine ⟨fun hidle => ⟨exec_of_effect ?_, exec_of_effect ?_⟩, fun hbusy => ⟨exec_of_effect ?_, exec_of_effect ?_⟩⟩
  · rw [Effect, if_pos hidle]; rfl
  · rw [Effect, if_pos hidle]; rfl
  · rw [Effect, if_neg hbusy]; rfl
  · rw [Effect, if_neg hbusy]; rfl

/-- Settles O40: the room in the buffer decides delivery, and flow control holds the remote off at the full buffer only. -/
theorem envRxDelivery : Obligations.EnvRxDelivery := by
  intro b s
  refine ⟨fun hroom => exec_of_effect ⟨?_, ?_⟩, fun hfull hoff => exec_of_effect ⟨?_, ?_⟩, fun hfull hon => ?_⟩
  · rintro ⟨-, hfull⟩
    exact hroom.ne hfull
  · rw [if_pos hroom]; rfl
  · rintro ⟨hon, -⟩
    simp [hoff] at hon
  · rw [if_neg (Nat.not_lt.2 hfull)]; rfl
  · exact holdsIn_of_no_effect ⟨_, rfl⟩ fun _ ⟨henabled, _⟩ => henabled ⟨hon, hfull⟩

/-- Settles O41, by the effect of ENV_TX_DRAIN, which is all it can do. -/
theorem envTxDrainOntoTheWire : Obligations.EnvTxDrainOntoTheWire := by
  intro k s
  refine ⟨fun hpos hle => exec_of_effect ⟨hpos, hle, rfl⟩, fun hno => ?_⟩
  exact holdsIn_of_no_effect ⟨_, rfl⟩ fun _ ⟨hpos, hle, _⟩ => hno ⟨hpos, hle⟩

/-- Settles O43: the clock only advances, and the hang-up flag is set once. -/
theorem envTickAndHangUp : Obligations.EnvTickAndHangUp := by
  intro s
  refine ⟨fun u hpos => exec_of_effect ⟨hpos, rfl⟩, ?_, fun hup => exec_of_effect ⟨hup, rfl⟩, fun hhup => ?_⟩
  · exact holdsIn_of_no_effect ⟨_, rfl⟩ fun _ ⟨hpos, _⟩ => absurd hpos (by decide)
  · refine holdsIn_of_no_effect ⟨_, rfl⟩ ?_
    rintro t ⟨hup, -⟩
    simp [hhup] at hup

end Sys2Proof.Machine
end


section
/-! The exceptions family (60_exceptions.md): the entry into a fatal. -/

namespace Sys2Proof.Machine

/-- Settles O35: FATAL is taken where its cause's condition holds, and its effect, `raiseFatal`, is the update written out. -/
theorem fatalEntryChangesOnlyTheStatus : Obligations.FatalEntryChangesOnlyTheStatus := by
  intro c s hcond
  have htaken : exec (.fatal c.code) s = .next (raiseFatal c s) := (exec_eq_execAt _ s).trans (fatal_taken hcond)
  rw [htaken, raiseFatal, emit]

end Sys2Proof.Machine
end

section
/-! The records of labels (30_encoding.md R119 to R123): decoding what the encoder writes. -/

namespace Sys2Proof

/-- The word of every label lies in its operation's row (R121, R122). -/
theorem encodeWord_mem_row (i : Instr) : encodeWord i &&& i.opcode.rowMask = i.opcode.rowMatch := by
  cases i with
  | linkRead r => exact Laws.EncodedWord.linkRead r
  | hdrFound k => exact Laws.EncodedWord.hdrFound k
  | hdrFail n => exact Laws.EncodedWord.hdrFail n
  | hdrWait h => exact Laws.EncodedWord.hdrWait h
  | payWait h => exact Laws.EncodedWord.payWait h
  | frameEmit fs => exact Laws.EncodedWord.frameEmit fs
  | coreRead len => exact Laws.EncodedWord.coreRead len
  | depthPoll d => exact Laws.EncodedWord.depthPoll d
  | drainSleep us => exact Laws.EncodedWord.drainSleep us
  | idleGap us => exact Laws.EncodedWord.idleGap us
  | linkWrite len => exact Laws.EncodedWord.linkWrite len
  | waitWake mask => exact Laws.EncodedWord.waitWake mask
  | waitEintr => exact Laws.EncodedWord.waitEintr
  | dispatchLink => exact Laws.EncodedWord.dispatchLink
  | dispatchCore => exact Laws.EncodedWord.dispatchCore
  | ioRetry op => exact Laws.EncodedWord.ioRetry op
  | cfgBitrate rate => exact Laws.EncodedWord.cfgBitrate rate
  | cfgFlowctl hwfc => exact Laws.EncodedWord.cfgFlowctl hwfc
  | start => exact Laws.EncodedWord.start
  | fatal code => exact Laws.EncodedWord.fatal code
  | reset => exact Laws.EncodedWord.reset
  | envRx b => exact Laws.EncodedWord.envRx b
  | envTxDrain k => exact Laws.EncodedWord.envTxDrain k
  | envCoreSend m => exact Laws.EncodedWord.envCoreSend m
  | envCoreRecv n => exact Laws.EncodedWord.envCoreRecv n
  | envTick u => exact Laws.EncodedWord.envTick u
  | envLinkHup => exact Laws.EncodedWord.envLinkHup

/-- The encoder sets no fixed-zero bit (R122). -/
theorem argOf_encodeWord_zeroBits (i : Instr) : argOf (encodeWord i) &&& i.opcode.zeroBits = 0 :=
  (mem_row_iff.1 (encodeWord_mem_row i)).2

/-- The full argument of a label is one its operation can have. -/
theorem argFits_fullArg (i : Instr) : argFits i.opcode i.fullArg = true := by
  cases i
  case cfgBitrate rate => exact decide_eq_true rate.isLt
  all_goals rfl

/-- A label is the one of its operation, its full argument and its content (R122). -/
theorem labelOf_fullArg (i : Instr) (n : Nat) : labelOf i.opcode i.fullArg i.operandContent n = .ok i := by
  cases i with
  | waitWake x | ioRetry x | fatal x | envRx x | cfgBitrate x =>
    simp only [labelOf, Instr.opcode, Instr.fullArg, Instr.operandContent, noContent, BitVec.ofNat_toNat,
      BitVec.setWidth_eq]
  | cfgFlowctl f => cases f <;> rfl
  | envCoreSend m => exact if_pos rfl
  | linkRead | hdrFound | hdrFail | hdrWait | payWait | frameEmit => rfl
  | coreRead | depthPoll | drainSleep | idleGap | linkWrite => rfl
  | waitEintr | dispatchLink | dispatchCore | start | reset => rfl
  | envTxDrain | envCoreRecv | envTick | envLinkHup => rfl

/-- A record of a label's word decodes as its argument and its content do. -/
theorem decode_encodeWord {i : Instr} {arg : Option Nat} {content : Option (List Byte)} {a : Nat} (n : Nat)
    (ha : fullArgOf i.opcode (sat24 i.fullArg) arg n = some a) :
    decode ⟨encodeWord i, arg, content⟩ n = labelOf i.opcode a content n := by
  simp only [decode, opcOf_encodeWord, Opcode.ofCode?_code, argOf_encodeWord_zeroBits, ne_eq, not_true_eq_false, if_false]
  rw [argOf_encodeWord, ha]

/-- Settles O1: the word gives the operation, and the record's argument and content the rest. -/
theorem labelRecordRoundTrip : Obligations.LabelRecordRoundTrip := by
  intro i n
  have harg : fullArgOf i.opcode (sat24 i.fullArg) (some i.fullArg) n = some i.fullArg :=
    if_pos ⟨rfl, argFits_fullArg i⟩
  exact (decode_encodeWord n harg).trans (labelOf_fullArg i n)

/-- Settles O2: below `0xFFFFFF` the word itself holds the full argument. -/
theorem bareWordRoundTrip : Obligations.BareWordRoundTrip := by
  intro i n hlt hcontent
  have harg : fullArgOf i.opcode (sat24 i.fullArg) none n = some i.fullArg := congrArg some (bareArg_sat24 hlt)
  have hlabel := labelOf_fullArg i n
  rw [hcontent] at hlabel
  exact (decode_encodeWord n harg).trans hlabel

/-- Settles O5: ten closed words, evaluated. -/
theorem writtenOutWordsDecode : Obligations.WrittenOutWordsDecode := by
  unfold Obligations.WrittenOutWordsDecode
  decide

end Sys2Proof
end

section
/-! The block invariant (10_state.md R33 to R43, 40_ingress.md R144): every label keeps it, at any valid parameters, and so does
every step of the machine. -/

namespace Sys2Proof.Machine

section
variable {p : Params} {s t : State}

/-! ### Compaction and appending, as the invariant needs them -/

/-- What a compaction that answers leaves (40_ingress.md R143). -/
theorem compact_ok_spec {k : Nat} {u : State} (hf : Filled s.buf s.head) (hk : k ≤ s.head) (h : compact k s = .ok u) :
    ∃ m, u = { s with buf := m, head := s.head - k } ∧ Filled m (s.head - k) ∧
      ∀ a, a < s.head - k → memRead m a = memRead s.buf (a + k) := by
  obtain ⟨m, hc, hm, hread⟩ := compact_spec hf hk
  rw [hc] at h
  exact ⟨m, (Except.ok.inj h).symm, hm, hread⟩

/-- Writing at offset `k` leaves the bytes below it (R141). -/
theorem memReadBytes_memWriteBytes_below (m : Memory) (bs : List Byte) {a n k : Nat} (h : a + n ≤ k) :
    memReadBytes (memWriteBytes m k bs) a n = memReadBytes m a n :=
  memReadBytes_congr fun j hj => by rw [memRead_memWriteBytes, if_neg (by omega)]

/-! ### The phases -/

/-- The block runs in every phase but `P_RESET` and `P_FATAL` (10_state.md R42). -/
theorem Inv.running (h : Inv p s) (hreset : s.pc ≠ .reset) (hfatal : s.pc ≠ .fatal) : s.run = .running := by
  cases hrun : s.run with
  | idle => exact absurd (h.idle_iff.1 hrun) hreset
  | running => rfl
  | fatal => exact absurd (h.fatal_iff.1 hrun) hfatal

/-- Only a block in `P_RESET` is idle. -/
theorem Inv.not_idle (h : Inv p s) (hreset : s.pc ≠ .reset) : s.run ≠ .idle := fun hrun => hreset (h.idle_iff.1 hrun)

/-- An idle block has recorded no cause. -/
theorem Inv.cause_none (h : Inv p s) (hpc : s.pc = .reset) : s.cause = .none := by
  have hrun : s.run ≠ .fatal := by simp [h.idle_iff.2 hpc]
  exact not_not.1 (h.cause_iff.not.2 hrun)

/-- Handler completion at rest keeps the invariant, whatever the handler left in the transmit queue (42_dispatch_control.md
R217). -/
theorem Inv.completeHandler (h : Inv p s) (hrun : s.run = .running) (hrest : AtRest p s) (i : Instr) (c q : List Byte) :
    Inv p (completeHandler (emit i c { s with txQueue := q })) := by
  cases hpend : s.pending.isEmpty
  all_goals exact { h with
    idle_iff := by simp [hrun, hpend]
    fatal_iff := by simp [hrun, hpend]
    pending_dispatch := by simp [hpend]
    pending_idle := by simp [hpend]
    pending_link := by simp [hpend]
    pending_core := by simp [hpend, Phase.isEgress]
    link_ready := fun hl => h.link_ready (.inl (by simpa [hpend] using hl))
    core_ready := fun hc => h.core_ready (.inl (by simpa [hpend] using hc))
    at_rest := fun _ _ => hrest
    in_loop := by simp [hpend]
    egLen_pos := by simp [hpend, Phase.isEgress]
    gap_armed := by simp [hpend]
    write_after := by simp [hpend] }

/-! ### Ingress labels -/

/-- A chunk appended, and the synchronizer loop entered (40_ingress.md R146). -/
def fed (s : State) (chunk : List Byte) : State :=
  { s with buf := memWriteBytes s.buf s.head chunk, head := s.head + chunk.length, pc := .sync }

/-- The header a payload is sought behind stays where it is when a chunk is appended. -/
theorem Inv.fed (h : Inv p s) (hrun : s.run = .running) (hrest : AtRest p s) (hlink : s.pending.link = false)
    {chunk : List Byte} (hfit : s.head + chunk.length ≤ p.cap) : Inv p (fed s chunk) :=
  { h with
    buf_filled := h.buf_filled.append chunk
    head_le := hfit
    idle_iff := by simp [Machine.fed, hrun]
    fatal_iff := by simp [Machine.fed, hrun]
    pending_dispatch := nofun
    pending_idle := by simp [Machine.fed]
    pending_link := fun _ => hlink
    pending_core := by simp [Machine.fed, Phase.isEgress]
    link_ready := by simp [Machine.fed, hlink]
    core_ready := fun hc => h.core_ready (.inl (by simpa [Machine.fed] using hc))
    at_rest := fun _ hs => absurd rfl hs
    in_loop := fun _ hsync => by
      rcases hrest with ⟨hs, -⟩ | ⟨-, w, hw, hvalid, hH, -⟩
      · exact absurd (hs.symm.trans hsync) (by simp)
      · exact ⟨hH.trans (Nat.le_add_right _ _), w,
          (memReadBytes_memWriteBytes_below _ _ (by simpa using hH)).trans hw, hvalid⟩
    egLen_pos := nofun
    gap_armed := by simp [Machine.fed]
    write_after := nofun }

theorem linkRead_keeps_inv {r : Nat} (h : Inv p s) (he : Effect p s t (.linkRead r)) : Inv p t := by
  obtain ⟨hpc, -, hle, rfl⟩ := he
  have hrun : s.run = .running := h.running (by simp [hpc]) (by simp [hpc])
  have hlink : s.pending.link = false := h.pending_link (.inl hpc)
  have hlen : (s.rxFifo.take r).length = r := List.length_take_of_le (hle.trans (Nat.min_le_left _ _))
  have hspace : r ≤ p.cap - s.head := hle.trans (Nat.min_le_right _ _)
  have hhead := h.head_le
  have hfed : Inv p (fed s (s.rxFifo.take r)) := h.fed hrun (h.at_rest hrun (by simp [hpc])) hlink (by omega)
  rw [fed, hlen] at hfed
  exact { hfed with
    link_ready := by simp [hlink]
    rxFifo_le := (List.drop_sublist r s.rxFifo).length_le.trans h.rxFifo_le }

/-- In the loop a compaction keeps the invariant, where it leaves a header sought or a valid one at offset 0. -/
theorem Inv.compacted {k : Nat} {q : SyncState} {m : Memory} (h : Inv p s) (hpc : s.pc = .sync)
    (hm : Filled m (s.head - k))
    (hloop : q = .seekingPayload → p.H ≤ s.head - k ∧ ValidAt p { s with buf := m } 0) :
    Inv p { s with buf := m, head := s.head - k, sync := q } :=
  { h with
    buf_filled := hm
    head_le := (Nat.sub_le _ _).trans h.head_le
    at_rest := fun _ hs => absurd hpc hs
    in_loop := fun _ => hloop }

theorem hdrFound_keeps_inv {i : Nat} (h : Inv p s) (he : Effect p s t (.hdrFound i)) : Inv p t := by
  obtain ⟨hpc, hchoice, u, hu, rfl⟩ := he
  obtain ⟨-, -, hbound, ⟨w, hw, hvalid⟩, -⟩ := syncChoice_hdrFound.1 hchoice
  obtain ⟨m, rfl, hm, hread⟩ := compact_ok_spec h.buf_filled (by omega) hu
  have hwindow : window p m 0 = some w := by
    rw [window, compact_bytes hread 0 (by omega), Nat.zero_add]
    exact hw
  exact { h.compacted (q := .seekingPayload) hpc hm (fun _ => ⟨by omega, w, hwindow, hvalid⟩) with }

theorem frameEmit_keeps_inv {fs : Nat} (h : Inv p s) (he : Effect p s t (.frameEmit fs)) : Inv p t := by
  obtain ⟨hpc, hchoice, hspace, frame, u, -, hu, rfl⟩ := he
  obtain ⟨-, -, -, -, hle⟩ := syncChoice_frameEmit.1 hchoice
  obtain ⟨m, rfl, hm, -⟩ := compact_ok_spec h.buf_filled hle hu
  have hroom : s.coreOut.length < p.coreOutDepth := by simpa [coreSpace] using hspace
  exact { h.compacted (q := .seekingHeader) hpc hm nofun with
    coreOut_le := by simp; omega }

theorem hdrFail_keeps_inv {n : Nat} (h : Inv p s) (he : Effect p s t (.hdrFail n)) : Inv p t := by
  obtain ⟨hpc, hchoice, rfl, u, hu, rfl⟩ := he
  obtain ⟨hsync, hH, -⟩ := syncChoice_hdrFail.1 hchoice
  obtain ⟨m, rfl, hm, -⟩ := compact_ok_spec h.buf_filled (Nat.sub_le _ _) hu
  have hloop := h.compacted hpc hm (q := s.sync) (by simp [hsync])
  exact hloop.completeHandler (h.running (by simp [hpc]) (by simp [hpc])) (.inl ⟨hsync, by simp; omega⟩) _ _ s.txQueue

theorem hdrWait_keeps_inv {n : Nat} (h : Inv p s) (he : Effect p s t (.hdrWait n)) : Inv p t := by
  obtain ⟨hpc, hchoice, -, rfl⟩ := he
  obtain ⟨hsync, hH⟩ := syncChoice_hdrWait.1 hchoice
  exact h.completeHandler (h.running (by simp [hpc]) (by simp [hpc])) (.inl ⟨hsync, by omega⟩) _ _ s.txQueue

theorem payWait_keeps_inv {n : Nat} (h : Inv p s) (he : Effect p s t (.payWait n)) : Inv p t := by
  obtain ⟨hpc, hchoice, -, rfl⟩ := he
  obtain ⟨hsync, hwait⟩ := syncChoice_payWait.1 hchoice
  obtain ⟨hH, w, hw, hvalid⟩ := h.in_loop hpc hsync
  have hrest : AtRest p s := by
    rcases hwait with hshort | ⟨fs, ⟨w', hw', rfl⟩, -, hcap, hlt⟩
    · omega
    · obtain rfl : w = w' := Option.some.inj (hw.symm.trans hw')
      exact .inr ⟨hsync, w, hw, hvalid, hH, hlt, hcap⟩
  exact h.completeHandler (h.running (by simp [hpc]) (by simp [hpc])) hrest _ _ s.txQueue

/-! ### Egress labels -/

theorem coreRead_keeps_inv {len : Nat} (hv : p.Valid) (h : Inv p s) (he : Effect p s t (.coreRead len)) : Inv p t := by
  obtain ⟨m, rest, hin, hpc, hne, -, rfl⟩ := he
  have hrun : s.run = .running := h.running (by simp [hpc]) (by simp [hpc])
  have hcore : s.pending.core = false := h.pending_core (.inl hpc)
  have hlen : (m.take p.txMax).length = min m.length p.txMax := by rw [List.length_take, Nat.min_comm]
  have hpos : 1 ≤ min m.length p.txMax := Nat.le_min.2 ⟨List.length_pos_iff.2 hne, hv.txMax_pos⟩
  exact { h with
    egMsg_filled := by simpa [hlen] using (filled_overwrite h.egMsg_filled.1 (m.take p.txMax)).1
    egLen_le := Nat.min_le_right _ _
    idle_iff := by simp [hrun]
    fatal_iff := by simp [hrun]
    pending_dispatch := nofun
    pending_idle := by simp
    pending_link := by simp
    pending_core := fun _ => hcore
    link_ready := fun hl => h.link_ready (.inl (by simpa using hl))
    core_ready := by simp [hcore]
    at_rest := fun _ _ => h.at_rest hrun (by simp [hpc])
    in_loop := nofun
    egLen_pos := fun _ => hpos
    gap_armed := by simp
    write_after := nofun }

theorem depthPoll_keeps_inv {d : Nat} (h : Inv p s) (he : Effect p s t (.depthPoll d)) : Inv p t := by
  obtain ⟨hpc, hd, rfl⟩ := he
  have hrun : s.run = .running := h.running (by simp [hpc]) (by simp [hpc])
  have hegress : s.pc.isEgress = true := by rw [hpc]; rfl
  obtain rfl | hpos := Nat.eq_zero_or_pos d
  case' inl =>
    have hgap : s.txQueue = [] ∧ pollSleepUs p 0 s.bitrate = gapUs p s.bitrate :=
      ⟨List.length_eq_zero_iff.1 hd.symm, pollSleepUs_zero _⟩
  case' inr =>
    have hgap := hpos
  all_goals exact { h with
    idle_iff := by simp [hrun, hgap]
    fatal_iff := by simp [hrun, hgap]
    pending_dispatch := by simp [hgap]
    pending_idle := by simp [hgap]
    pending_link := by simp [hgap]
    pending_core := fun _ => h.pending_core (.inr hegress)
    link_ready := fun hl => h.link_ready (.inl (by simpa [hgap] using hl))
    core_ready := fun hc => h.core_ready (.inl (by simpa [hgap] using hc))
    at_rest := fun _ _ => h.at_rest hrun (by simp [hpc])
    in_loop := by simp [hgap]
    egLen_pos := fun _ => h.egLen_pos hegress
    gap_armed := by simp [hgap]
    write_after := by simp [hgap] }

/-- Between two phases of the pacer only the timer's conditions are at stake (41_egress.md R186). -/
theorem Inv.egress_phase {q : Phase} (h : Inv p s) (hs : s.pc.isEgress = true) (hq : q.isEgress = true)
    (hgap : q = .gap ∨ q = .write → s.txQueue = [] ∧ s.egSleepUs = gapUs p s.bitrate)
    (hwrite : q = .write → s.egDeadline ≤ s.nowUs) : Inv p { s with pc := q } := by
  have hne {r r' : Phase} (hr : r.isEgress = true) (hr' : r'.isEgress = false) : r ≠ r' := by
    rintro rfl
    simp [hr] at hr'
  have hrun : s.run = .running := h.running (hne hs rfl) (hne hs rfl)
  exact { h with
    idle_iff := by simp [hrun, hne hq (r' := .reset) rfl]
    fatal_iff := by simp [hrun, hne hq (r' := .fatal) rfl]
    pending_dispatch := fun hd => absurd hd (hne hq rfl)
    pending_idle := by simp [hne hq (r' := .wait) rfl, hne hq (r' := .reset) rfl, hne hq (r' := .fatal) rfl]
    pending_link := by simp [hne hq (r' := .linkRead) rfl, hne hq (r' := .sync) rfl]
    pending_core := fun _ => h.pending_core (.inr hs)
    link_ready := fun hl => h.link_ready (hl.imp_right fun hpc => absurd hpc (hne hq rfl))
    core_ready := fun hc => h.core_ready (hc.imp_right fun hpc => absurd hpc (hne hq rfl))
    at_rest := fun _ _ => h.at_rest hrun (hne hs rfl)
    in_loop := fun hpc => absurd hpc (hne hq rfl)
    egLen_pos := fun _ => h.egLen_pos hs
    gap_armed := hgap
    write_after := hwrite }

theorem drainSleep_keeps_inv {us : Nat} (h : Inv p s) (he : Effect p s t (.drainSleep us)) : Inv p t := by
  obtain ⟨hpc, -, -, rfl⟩ := he
  exact { h.egress_phase (q := .poll) (by rw [hpc]; rfl) rfl (by simp) nofun with }

theorem idleGap_keeps_inv {us : Nat} (h : Inv p s) (he : Effect p s t (.idleGap us)) : Inv p t := by
  obtain ⟨hpc, hdue, -, rfl⟩ := he
  exact { h.egress_phase (q := .write) (by rw [hpc]; rfl) rfl (fun _ => h.gap_armed (.inl hpc)) (fun _ => hdue) with }

theorem linkWrite_keeps_inv {len : Nat} (h : Inv p s) (he : Effect p s t (.linkWrite len)) : Inv p t := by
  obtain ⟨hpc, -, bytes, -, rfl⟩ := he
  have hrun : s.run = .running := h.running (by simp [hpc]) (by simp [hpc])
  exact h.completeHandler hrun (h.at_rest hrun (by simp [hpc])) _ _ _

/-! ### Dispatcher labels -/

theorem pending_ofMask_readyMask : Pending.ofMask (readyMask s) = ⟨linkReady s, coreReady s⟩ := by
  rw [Pending.ofMask, readyMask_getLsbD_zero, readyMask_getLsbD_one]

theorem waitWake_keeps_inv {mask : BitVec 2} (h : Inv p s) (he : Effect p s t (.waitWake mask)) : Inv p t := by
  obtain ⟨hpc, hmask, rfl, rfl⟩ := he
  have hrun : s.run = .running := h.running (by simp [hpc]) (by simp [hpc])
  have hnonempty : (Pending.ofMask (readyMask s)).isEmpty = false := by
    rw [pending_ofMask_readyMask]
    revert hmask
    unfold readyMask
    cases coreReady s <;> cases linkReady s <;> decide
  exact { h with
    idle_iff := by simp [hrun]
    fatal_iff := by simp [hrun]
    pending_dispatch := fun _ => hnonempty
    pending_idle := by simp
    pending_link := by simp
    pending_core := by simp [Phase.isEgress]
    link_ready := fun hl => show linkReady s = true by simpa [pending_ofMask_readyMask] using hl
    core_ready := fun hc => show coreReady s = true by simpa [pending_ofMask_readyMask] using hc
    at_rest := fun _ _ => h.at_rest hrun (by simp [hpc])
    in_loop := nofun
    egLen_pos := nofun
    gap_armed := by simp
    write_after := nofun }

theorem dispatchLink_keeps_inv (h : Inv p s) (he : Effect p s t .dispatchLink) : Inv p t := by
  obtain ⟨hpc, hlink, -, rfl⟩ := he
  have hrun : s.run = .running := h.running (by simp [hpc]) (by simp [hpc])
  exact { h with
    idle_iff := by simp [hrun]
    fatal_iff := by simp [hrun]
    pending_dispatch := nofun
    pending_idle := by simp
    pending_link := fun _ => rfl
    pending_core := by simp [Phase.isEgress]
    link_ready := fun _ => h.link_ready (.inl hlink)
    core_ready := fun hc => h.core_ready (.inl (by simpa using hc))
    at_rest := fun _ _ => h.at_rest hrun (by simp [hpc])
    in_loop := nofun
    egLen_pos := nofun
    gap_armed := by simp
    write_after := nofun }

theorem dispatchCore_keeps_inv (h : Inv p s) (he : Effect p s t .dispatchCore) : Inv p t := by
  obtain ⟨hpc, hcore, -, rfl⟩ := he
  have hrun : s.run = .running := h.running (by simp [hpc]) (by simp [hpc])
  exact { h with
    idle_iff := by simp [hrun]
    fatal_iff := by simp [hrun]
    pending_dispatch := nofun
    pending_idle := by simp
    pending_link := by simp
    pending_core := fun _ => rfl
    link_ready := fun hl => h.link_ready (.inl (by simpa using hl))
    core_ready := fun _ => h.core_ready (.inl hcore)
    at_rest := fun _ _ => h.at_rest hrun (by simp [hpc])
    in_loop := nofun
    egLen_pos := nofun
    gap_armed := by simp
    write_after := nofun }

/-! ### Control labels -/

/-- A configuration write reaches the register of an idle block only (42_dispatch_control.md R219). -/
theorem cfgBitrate_keeps_inv {v : Word32} (h : Inv p s) (he : Effect p s t (.cfgBitrate v)) : Inv p t := by
  obtain rfl := he
  split
  · next hidle =>
    have hpc : s.pc = .reset := h.idle_iff.1 hidle
    exact { h with
      rate_ok := by simp [hidle]
      gap_armed := by simp [hpc] }
  · exact { h with }

theorem cfgFlowctl_keeps_inv {f : Bool} (h : Inv p s) (he : Effect p s t (.cfgFlowctl f)) : Inv p t := by
  obtain rfl := he
  split <;> exact { h with }

/-- What START leaves meets the invariant (R221). -/
theorem start_keeps_inv (h : Inv p s) (he : Effect p s t .start) : Inv p t := by
  obtain ⟨hpc, hrate, rfl⟩ := he
  have hcause := h.cause_none hpc
  constructor <;> simp [filled_nil, hcause, hrate, Pending.isEmpty, Phase.isEgress, AtRest]

/-- `NONE` is raised by no rule (60_exceptions.md R241). -/
theorem cause_ne_none_of_condition {c : Cause} (h : fatalCondition p c s = .ok true) : c ≠ .none := by
  rintro rfl
  simp [fatalCondition] at h

theorem fatal_keeps_inv {code : Byte} (h : Inv p s) (he : Effect p s t (.fatal code)) : Inv p t := by
  obtain ⟨c, -, hcond, rfl⟩ := he
  have hcause := cause_ne_none_of_condition hcond
  exact { h with
    idle_iff := by simp
    fatal_iff := by simp
    cause_iff := by simp [hcause]
    rate_ok := nofun
    pending_dispatch := nofun
    pending_idle := fun _ => rfl
    pending_link := by simp
    pending_core := fun _ => rfl
    link_ready := by simp
    core_ready := by simp
    at_rest := nofun
    in_loop := nofun
    egLen_pos := nofun
    gap_armed := by simp
    write_after := nofun }

/-- The reset values meet the invariant, whatever the record of the run is (70_reset_and_hazards.md R270). -/
theorem inv_of_reset_values (now : Nat) (w : List (Nat × Byte)) (es : List Event) (ms : List Move) (n : Nat) :
    Inv p { State.reset with nowUs := now, wire := w, history := es, moves := ms, freeCount := n } := by
  constructor <;> simp [State.reset, filled_nil, Pending.isEmpty, Phase.isEgress]

theorem reset_keeps_inv (he : Effect p s t .reset) : Inv p t := by
  obtain rfl := he
  exact inv_of_reset_values _ _ _ _ _

/-! ### Environment labels -/

theorem envRx_keeps_inv {b : Byte} (h : Inv p s) (he : Effect p s t (.envRx b)) : Inv p t := by
  obtain ⟨-, rfl⟩ := he
  split
  · next hroom =>
    exact { h with
      link_ready := by simp [linkReady]
      rxFifo_le := by simp; omega }
  · exact { h with }

theorem envTxDrain_keeps_inv {k : Nat} (h : Inv p s) (he : Effect p s t (.envTxDrain k)) : Inv p t := by
  obtain ⟨-, -, rfl⟩ := he
  exact { h with
    gap_armed := fun hpc => ⟨by simp [(h.gap_armed hpc).1], (h.gap_armed hpc).2⟩ }

theorem envCoreSend_keeps_inv {m : List Byte} (h : Inv p s) (he : Effect p s t (.envCoreSend m)) : Inv p t := by
  obtain rfl := he
  exact { h with core_ready := by simp [coreReady] }

theorem envCoreRecv_keeps_inv {n : Nat} (h : Inv p s) (he : Effect p s t (.envCoreRecv n)) : Inv p t := by
  obtain ⟨frame, rest, hout, -, rfl⟩ := he
  have hle := h.coreOut_le
  rw [hout, List.length_cons] at hle
  exact { h with coreOut_le := Nat.le_of_succ_le hle }

theorem envTick_keeps_inv {u : Nat} (h : Inv p s) (he : Effect p s t (.envTick u)) : Inv p t := by
  obtain ⟨-, rfl⟩ := he
  exact { h with write_after := fun hpc => (h.write_after hpc).trans (Nat.le_add_right _ _) }

theorem envLinkHup_keeps_inv (h : Inv p s) (he : Effect p s t .envLinkHup) : Inv p t := by
  obtain ⟨-, rfl⟩ := he
  exact { h with link_ready := by simp [linkReady] }

/-! ### Every label, every step -/

/-- Every label keeps the block invariant, at all parameters that meet their constraints. -/
theorem effect_keeps_inv (hv : p.Valid) {i : Instr} (h : Inv p s) (he : Effect p s t i) : Inv p t := by
  cases i with
  | linkRead r => exact linkRead_keeps_inv h he
  | hdrFound k => exact hdrFound_keeps_inv h he
  | hdrFail n => exact hdrFail_keeps_inv h he
  | hdrWait n => exact hdrWait_keeps_inv h he
  | payWait n => exact payWait_keeps_inv h he
  | frameEmit fs => exact frameEmit_keeps_inv h he
  | coreRead len => exact coreRead_keeps_inv hv h he
  | depthPoll d => exact depthPoll_keeps_inv h he
  | drainSleep us => exact drainSleep_keeps_inv h he
  | idleGap us => exact idleGap_keeps_inv h he
  | linkWrite len => exact linkWrite_keeps_inv h he
  | waitWake mask => exact waitWake_keeps_inv h he
  | waitEintr => obtain ⟨-, rfl⟩ := he; exact { h with }
  | dispatchLink => exact dispatchLink_keeps_inv h he
  | dispatchCore => exact dispatchCore_keeps_inv h he
  | ioRetry op => obtain ⟨-, rfl⟩ := he; exact { h with }
  | cfgBitrate v => exact cfgBitrate_keeps_inv h he
  | cfgFlowctl f => exact cfgFlowctl_keeps_inv h he
  | start => exact start_keeps_inv h he
  | fatal code => exact fatal_keeps_inv h he
  | reset => exact reset_keeps_inv he
  | envRx b => exact envRx_keeps_inv h he
  | envTxDrain k => exact envTxDrain_keeps_inv h he
  | envCoreSend m => exact envCoreSend_keeps_inv h he
  | envCoreRecv n => exact envCoreRecv_keeps_inv h he
  | envTick u => exact envTick_keeps_inv h he
  | envLinkHup => exact envLinkHup_keeps_inv h he

/-- A label's answer keeps the block invariant. -/
theorem exec_keeps_inv {i : Instr} (h : Inv Config.params s) (he : exec i s = .next t) : Inv Config.params t := by
  rcases exec_cases he with rfl | heffect
  · exact h
  · exact effect_keeps_inv Config.params_valid h heffect

theorem Inv.afterOffer (h : Inv p s) (rest : List Move) : Inv p (afterOffer rest s) := { h with }

/-- What every label's effect keeps, and the taking of a move off the list, every step keeps. -/
theorem step_keeps {P : State → Prop} (hoffer : ∀ rest s, P s → P (afterOffer rest s))
    (heffect : ∀ i s t, P s → Effect Config.params s t i → P t) (h : P s) (hstep : step s = .next t) : P t := by
  rcases step_cases hstep with ⟨-, rfl⟩ | ⟨m, rest, -, rfl | ⟨i, he⟩⟩
  · exact h
  · exact hoffer rest s h
  · exact heffect i _ t (hoffer rest s h) he

end

/-- Settles O51, label by label. -/
theorem stepKeepsTheBlockInvariant : Obligations.StepKeepsTheBlockInvariant := fun _ _ =>
  step_keeps (fun rest _ h => h.afterOffer rest) fun _ _ _ => effect_keeps_inv Config.params_valid

end Sys2Proof.Machine
end

section
/-! The greedy reading of a byte sequence (40_ingress.md R163), apart from the machine: enough fuel gives one answer, `parse`; what
it answers by cases; and that reading a sequence in two pieces gives what reading it in one gives. -/

namespace Sys2Proof.Machine

section
variable {p : Params}

/-! ### The header scan over bytes -/

/-- The window at offset `i` of a byte sequence validates. -/
def WindowValid (p : Params) (bs : List Byte) (i : Nat) : Prop := headerValid p ((bs.drop i).take p.H) = true

/-- Offset `i` is the least of a byte sequence whose window validates. -/
def FirstWindowAt (p : Params) (bs : List Byte) (i : Nat) : Prop :=
  i + p.H ≤ bs.length ∧ WindowValid p bs i ∧ ∀ j, j < i → ¬ WindowValid p bs j

theorem firstHeader_eq_some {bs : List Byte} {i n j : Nat} :
    firstHeader p bs i n = some j ↔
      i ≤ j ∧ j < i + n ∧ WindowValid p bs j ∧ ∀ l, i ≤ l → l < j → ¬ WindowValid p bs l := by
  induction n generalizing i with
  | zero => simp only [firstHeader]; constructor <;> intro h <;> [simp at h; omega]
  | succ n ih =>
    rw [firstHeader]
    split
    · next hvalid =>
      rw [Option.some.injEq]
      constructor
      · rintro rfl
        exact ⟨Nat.le_refl _, by omega, hvalid, fun l h1 h2 => by omega⟩
      · rintro ⟨hle, -, -, hleast⟩
        by_contra hne
        exact hleast i (Nat.le_refl _) (by omega) hvalid
    · next hinvalid =>
      rw [ih]
      constructor
      · rintro ⟨hle, hlt, hvalid, hleast⟩
        refine ⟨by omega, by omega, hvalid, fun l h1 h2 => ?_⟩
        obtain rfl | hl := Nat.eq_or_lt_of_le h1
        · exact hinvalid
        · exact hleast l hl h2
      · rintro ⟨hle, hlt, hvalid, hleast⟩
        have hne : i ≠ j := by
          rintro rfl
          exact hinvalid hvalid
        exact ⟨by omega, by omega, hvalid, fun l h1 h2 => hleast l (by omega) h2⟩

theorem firstHeader_eq_none {bs : List Byte} {i n : Nat} :
    firstHeader p bs i n = none ↔ ∀ l, i ≤ l → l < i + n → ¬ WindowValid p bs l := by
  induction n generalizing i with
  | zero => simp only [firstHeader, true_iff]; omega
  | succ n ih =>
    rw [firstHeader]
    split
    · next hvalid =>
      simp only [reduceCtorEq, false_iff]
      exact fun h => h i (Nat.le_refl _) (by omega) hvalid
    · next hinvalid =>
      rw [ih]
      constructor
      · intro h l h1 h2
        obtain rfl | hl := Nat.eq_or_lt_of_le h1
        · exact hinvalid
        · exact h l hl (by omega)
      · exact fun h l h1 h2 => h l (by omega) (by omega)

/-- A sequence of at least `H` bytes has a first valid window, or none. -/
theorem first_window_or_none (p : Params) (bs : List Byte) :
    (∃ i, FirstWindowAt p bs i) ∨ ∀ i, i + p.H ≤ bs.length → ¬ WindowValid p bs i := by
  classical
  by_cases h : ∃ i, i + p.H ≤ bs.length ∧ WindowValid p bs i
  · have hleast := Nat.find_spec h
    refine .inl ⟨Nat.find h, hleast.1, hleast.2, fun j hj hvalid => ?_⟩
    exact Nat.find_min h hj ⟨by omega, hvalid⟩
  · exact .inr fun i hi hvalid => h ⟨i, hi, hvalid⟩

theorem windowValid_append {x : List Byte} (y : List Byte) {i : Nat} (h : i + p.H ≤ x.length) :
    WindowValid p (x ++ y) i ↔ WindowValid p x i := by
  unfold WindowValid
  rw [List.drop_append_of_le_length (by omega), List.take_append_of_le_length (by rw [List.length_drop]; omega)]

theorem windowValid_drop {x : List Byte} {k i : Nat} : WindowValid p (x.drop k) i ↔ WindowValid p x (k + i) := by
  rw [WindowValid, WindowValid, List.drop_drop]

/-! ### One round of the reading -/

theorem greedy_short {bs : List Byte} (n : Nat) (h : bs.length < p.H) :
    greedy p n .seekingHeader bs = ⟨[], .seekingHeader, bs, false⟩ := by
  cases n with
  | zero => rfl
  | succ n => rw [greedy, if_pos h]

theorem greedy_found {bs : List Byte} {i : Nat} (n : Nat) (h : FirstWindowAt p bs i) :
    greedy p (n + 1) .seekingHeader bs = greedy p n .seekingPayload (bs.drop i) := by
  obtain ⟨hle, hvalid, hleast⟩ := h
  have hscan : firstHeader p bs 0 (bs.length - p.H + 1) = some i :=
    firstHeader_eq_some.2 ⟨Nat.zero_le _, by omega, hvalid, fun l _ => hleast l⟩
  rw [greedy, if_neg (by omega), hscan]

theorem greedy_not_found {bs : List Byte} (n : Nat) (hH : p.H ≤ bs.length)
    (h : ∀ i, i + p.H ≤ bs.length → ¬ WindowValid p bs i) :
    greedy p (n + 1) .seekingHeader bs = ⟨[], .seekingHeader, bs.drop (bs.length - (p.H - 1)), false⟩ := by
  have hscan : firstHeader p bs 0 (bs.length - p.H + 1) = none :=
    firstHeader_eq_none.2 fun l _ hl => h l (by omega)
  rw [greedy, if_neg (by omega), hscan]

section payload
variable {bs : List Byte} (n : Nat)

theorem greedy_oversize (h : p.cap < frameSize p (bs.take p.H)) :
    greedy p (n + 1) .seekingPayload bs = ⟨[], .seekingPayload, bs, true⟩ := by
  rw [greedy, if_pos h]

theorem greedy_incomplete (hcap : frameSize p (bs.take p.H) ≤ p.cap) (h : bs.length < frameSize p (bs.take p.H)) :
    greedy p (n + 1) .seekingPayload bs = ⟨[], .seekingPayload, bs, false⟩ := by
  rw [greedy, if_neg (by omega), if_pos h]

/-- What was read before, put in front. -/
def Parsed.prepend (frames : List (List Byte)) (r : Parsed) : Parsed := { r with frames := frames ++ r.frames }

theorem greedy_frame (hcap : frameSize p (bs.take p.H) ≤ p.cap) (h : frameSize p (bs.take p.H) ≤ bs.length) :
    greedy p (n + 1) .seekingPayload bs =
      (greedy p n .seekingHeader (bs.drop (frameSize p (bs.take p.H)))).prepend
        [bs.take (frameSize p (bs.take p.H))] := by
  rw [greedy, if_neg (by omega), if_neg (by omega)]
  rfl

end payload

@[simp] theorem Parsed.prepend_nil (r : Parsed) : r.prepend [] = r := rfl

@[simp] theorem Parsed.prepend_prepend (fs gs : List (List Byte)) (r : Parsed) :
    (r.prepend gs).prepend fs = r.prepend (fs ++ gs) := by
  simp [Parsed.prepend]

/-! ### Enough fuel -/

/-- `n` rounds are enough for `len` bytes: a frame takes two rounds and at least `H` bytes (R160). -/
def Enough (p : Params) (n : Nat) (q : SyncState) (len : Nat) : Prop :=
  match q with
  | .seekingHeader => 2 * (len / p.H) ≤ n
  | .seekingPayload => 1 ≤ n ∧ 2 * (len / p.H) ≤ n + 1

theorem enough_loopBound (p : Params) (q : SyncState) {len m : Nat} (h : len ≤ m) : Enough p (loopBound p m) q len := by
  have := Nat.div_le_div_right (c := p.H) h
  cases q <;> simp only [Enough, loopBound] <;> omega

theorem Enough.found {n len i : Nat} (hpos : 1 ≤ p.H) (hH : p.H ≤ len) (h : Enough p (n + 1) .seekingHeader len) :
    Enough p n .seekingPayload (len - i) := by
  have h1 := Nat.div_le_div_right (c := p.H) (Nat.sub_le len i)
  have h2 : 1 ≤ len / p.H := (Nat.one_le_div_iff hpos).2 hH
  simp only [Enough] at h ⊢
  omega

theorem Enough.frame {n len fs : Nat} (hpos : 1 ≤ p.H) (hfs : p.H ≤ fs) (hle : fs ≤ len)
    (h : Enough p (n + 1) .seekingPayload len) : Enough p n .seekingHeader (len - fs) := by
  have h1 : (len - fs) / p.H ≤ (len - p.H) / p.H := Nat.div_le_div_right (by omega)
  have h2 : (len - p.H) / p.H + 1 = len / p.H := by
    rw [← Nat.add_div_right _ hpos, Nat.sub_add_cancel (by omega)]
  simp only [Enough] at h ⊢
  omega

theorem not_enough_zero {q : SyncState} {len : Nat} (hpos : 1 ≤ p.H) (h : Enough p 0 q len) :
    q = .seekingHeader ∧ len < p.H := by
  cases q with
  | seekingHeader =>
    have h0 : len / p.H = 0 := by simpa [Enough] using h
    exact ⟨rfl, (Nat.div_eq_zero_iff_lt hpos).1 h0⟩
  | seekingPayload => exact absurd h.1 (by omega)

theorem le_frameSize (p : Params) (w : List Byte) : p.H ≤ frameSize p w := Nat.le_add_right _ _

/-- With enough fuel the reading does not depend on it. -/
theorem greedy_fuel_irrelevant (hpos : 1 ≤ p.H) {n m : Nat} {q : SyncState} {bs : List Byte} (hn : Enough p n q bs.length)
    (hm : Enough p m q bs.length) : greedy p n q bs = greedy p m q bs := by
  induction n generalizing m q bs with
  | zero =>
    obtain ⟨rfl, hshort⟩ := not_enough_zero hpos hn
    rw [greedy_short _ hshort, greedy_short _ hshort]
  | succ n ih =>
    cases m with
    | zero =>
      obtain ⟨rfl, hshort⟩ := not_enough_zero hpos hm
      rw [greedy_short _ hshort, greedy_short _ hshort]
    | succ m =>
      cases q with
      | seekingHeader =>
        by_cases hH : bs.length < p.H
        · rw [greedy_short _ hH, greedy_short _ hH]
        rw [Nat.not_lt] at hH
        rcases first_window_or_none p bs with ⟨i, hi⟩ | hnone
        · rw [greedy_found _ hi, greedy_found _ hi]
          exact ih (by simpa using hn.found hpos hH) (by simpa using hm.found hpos hH)
        · rw [greedy_not_found _ hH hnone, greedy_not_found _ hH hnone]
      | seekingPayload =>
        by_cases hcap : p.cap < frameSize p (bs.take p.H)
        · rw [greedy_oversize _ hcap, greedy_oversize _ hcap]
        rw [Nat.not_lt] at hcap
        by_cases hlen : bs.length < frameSize p (bs.take p.H)
        · rw [greedy_incomplete _ hcap hlen, greedy_incomplete _ hcap hlen]
        · rw [Nat.not_lt] at hlen
          rw [greedy_frame _ hcap hlen, greedy_frame _ hcap hlen, ih]
          · simpa using hn.frame hpos (le_frameSize p _) hlen
          · simpa using hm.frame hpos (le_frameSize p _) hlen

/-! ### The reading with enough fuel -/

/-- The greedy reading of a byte sequence, with the fuel of R160. -/
def parse (p : Params) (q : SyncState) (bs : List Byte) : Parsed := greedy p (loopBound p bs.length) q bs

theorem greedy_eq_parse (hpos : 1 ≤ p.H) {n : Nat} {q : SyncState} {bs : List Byte} (h : Enough p n q bs.length) :
    greedy p n q bs = parse p q bs :=
  greedy_fuel_irrelevant hpos h (enough_loopBound p q (Nat.le_refl _))

section
variable {bs : List Byte}

theorem parse_short (h : bs.length < p.H) : parse p .seekingHeader bs = ⟨[], .seekingHeader, bs, false⟩ :=
  greedy_short _ h

theorem parse_not_found (hH : p.H ≤ bs.length) (h : ∀ i, i + p.H ≤ bs.length → ¬ WindowValid p bs i) :
    parse p .seekingHeader bs = ⟨[], .seekingHeader, bs.drop (bs.length - (p.H - 1)), false⟩ :=
  greedy_not_found _ hH h

theorem parse_incomplete (hcap : frameSize p (bs.take p.H) ≤ p.cap) (h : bs.length < frameSize p (bs.take p.H)) :
    parse p .seekingPayload bs = ⟨[], .seekingPayload, bs, false⟩ :=
  greedy_incomplete _ hcap h

variable (hpos : 1 ≤ p.H)
include hpos

theorem parse_found {i : Nat} (h : FirstWindowAt p bs i) :
    parse p .seekingHeader bs = parse p .seekingPayload (bs.drop i) := by
  have henough := enough_loopBound p .seekingHeader (Nat.le_refl bs.length)
  rw [parse, loopBound, greedy_found _ h]
  exact greedy_eq_parse hpos (by simpa using henough.found hpos (by have := h.1; omega))

theorem parse_frame (hcap : frameSize p (bs.take p.H) ≤ p.cap) (h : frameSize p (bs.take p.H) ≤ bs.length) :
    parse p .seekingPayload bs =
      (parse p .seekingHeader (bs.drop (frameSize p (bs.take p.H)))).prepend
        [bs.take (frameSize p (bs.take p.H))] := by
  have henough := enough_loopBound p .seekingPayload (Nat.le_refl bs.length)
  rw [parse, loopBound, greedy_frame _ hcap h,
    greedy_eq_parse hpos (by simpa using henough.frame hpos (le_frameSize p _) h)]

/-- Bytes before every valid window may be dropped, as long as `H - 1` are left. -/
theorem parse_drop_noise {k : Nat} (hk : k + (p.H - 1) ≤ bs.length) (h : ∀ i, i < k → ¬ WindowValid p bs i) :
    parse p .seekingHeader bs = parse p .seekingHeader (bs.drop k) := by
  by_cases hH : bs.length < p.H
  · obtain rfl : k = 0 := by omega
    rfl
  rw [Nat.not_lt] at hH
  have hlen : (bs.drop k).length = bs.length - k := List.length_drop
  rcases first_window_or_none p bs with ⟨i, hi⟩ | hnone
  · obtain ⟨hle, hvalid, hleast⟩ := hi
    have hki : k ≤ i := by
      by_contra hlt
      exact h i (by omega) hvalid
    have hi' : FirstWindowAt p (bs.drop k) (i - k) := by
      refine ⟨by omega, windowValid_drop.2 (by rwa [Nat.add_sub_cancel' hki]), fun j hj hv => ?_⟩
      exact hleast (k + j) (by omega) (windowValid_drop.1 hv)
    rw [parse_found hpos ⟨hle, hvalid, hleast⟩, parse_found hpos hi', List.drop_drop, Nat.add_sub_cancel' hki]
  · rw [parse_not_found hH hnone]
    by_cases hshort : (bs.drop k).length < p.H
    · rw [parse_short hshort, show bs.length - (p.H - 1) = k by omega]
    · rw [parse_not_found (by omega) fun i hi hv => hnone (k + i) (by omega) (windowValid_drop.1 hv), List.drop_drop, hlen,
        show k + (bs.length - k - (p.H - 1)) = bs.length - (p.H - 1) by omega]

end

/-- Reading in two pieces (R163): what the first piece leaves, with the second behind it, is read on. -/
theorem parse_append_greedy (hpos : 1 ≤ p.H) {n : Nat} {q : SyncState} {x : List Byte} (y : List Byte)
    (hn : Enough p n q x.length) (hq : q = .seekingPayload → p.H ≤ x.length) (hfit : (greedy p n q x).oversize = false) :
    parse p q (x ++ y) =
      (parse p (greedy p n q x).sync ((greedy p n q x).rest ++ y)).prepend (greedy p n q x).frames := by
  induction n generalizing q x with
  | zero =>
    obtain ⟨rfl, -⟩ := not_enough_zero hpos hn
    rfl
  | succ n ih =>
    cases q with
    | seekingHeader =>
      by_cases hH : x.length < p.H
      · rw [greedy_short _ hH]
        rfl
      rw [Nat.not_lt] at hH
      rcases first_window_or_none p x with ⟨i, hi⟩ | hnone
      · obtain ⟨hle, hvalid, hleast⟩ := hi
        have hi' : FirstWindowAt p (x ++ y) i := by
          refine ⟨by rw [List.length_append]; omega, (windowValid_append y hle).2 hvalid, fun j hj hv => ?_⟩
          exact hleast j hj ((windowValid_append y (by omega)).1 hv)
        rw [greedy_found _ ⟨hle, hvalid, hleast⟩] at hfit ⊢
        rw [parse_found hpos hi', List.drop_append_of_le_length (by omega)]
        exact ih (by simpa using hn.found hpos hH) (fun _ => by rw [List.length_drop]; omega) hfit
      · rw [greedy_not_found _ hH hnone]
        simp only [Parsed.prepend_nil]
        rw [← List.drop_append_of_le_length (by omega)]
        refine parse_drop_noise hpos (by rw [List.length_append]; omega) fun i hi hv => ?_
        exact hnone i (by omega) ((windowValid_append y (by omega)).1 hv)
    | seekingPayload =>
      have hH := hq rfl
      have hhead : (x ++ y).take p.H = x.take p.H := List.take_append_of_le_length hH
      by_cases hcap : p.cap < frameSize p (x.take p.H)
      · rw [greedy_oversize _ hcap] at hfit
        contradiction
      rw [Nat.not_lt] at hcap
      by_cases hlen : x.length < frameSize p (x.take p.H)
      · rw [greedy_incomplete _ hcap hlen]
        rfl
      rw [Nat.not_lt] at hlen
      rw [greedy_frame _ hcap hlen] at hfit ⊢
      rw [parse_frame hpos (by rwa [hhead]) (by rw [hhead, List.length_append]; omega), hhead,
        List.drop_append_of_le_length hlen, List.take_append_of_le_length hlen,
        ih (q := .seekingHeader) (by simpa using hn.frame hpos (le_frameSize p _) hlen) nofun hfit]
      simp [Parsed.prepend]

/-- Reading in two pieces, with the fuel of R160. -/
theorem parse_append (hpos : 1 ≤ p.H) {q : SyncState} {x : List Byte} (y : List Byte)
    (hq : q = .seekingPayload → p.H ≤ x.length) (hfit : (parse p q x).oversize = false) :
    parse p q (x ++ y) = (parse p (parse p q x).sync ((parse p q x).rest ++ y)).prepend (parse p q x).frames :=
  parse_append_greedy hpos y (enough_loopBound p q (Nat.le_refl _)) hq hfit

end

end Sys2Proof.Machine
end

section
/-! The synchronizer loop (40_ingress.md R150 to R163): each of its steps reads the buffer on as the greedy reading does, so the
loop ends within its bound, where the greedy reading ends, and does not depend on how the bytes were cut into chunks. -/

namespace Sys2Proof.Machine

/-! ### The buffer as a byte sequence -/

section bytes
variable {p : Params} {s : State} {bs : List Byte} (hbs : memReadBytes s.buf 0 s.head = some bs)
include hbs

theorem window_of_bytes {i : Nat} (hi : i + p.H ≤ s.head) : window p s.buf i = some ((bs.drop i).take p.H) := by
  simpa [window] using memReadBytes_sub hbs i p.H hi

theorem validAt_iff {i : Nat} (hi : i + p.H ≤ s.head) : ValidAt p s i ↔ WindowValid p bs i := by
  simp [ValidAt, WindowValid, window_of_bytes hbs hi]

theorem invalidAt_iff {i : Nat} (hi : i + p.H ≤ s.head) : InvalidAt p s i ↔ ¬ WindowValid p bs i := by
  simp [InvalidAt, WindowValid, window_of_bytes hbs hi]

theorem firstWindowAt_of {i : Nat} (h : FirstHeaderAt p s i) : FirstWindowAt p bs i := by
  obtain ⟨hle, hvalid, hleast⟩ := h
  refine ⟨by rwa [memReadBytes_length hbs], (validAt_iff hbs hle).1 hvalid, fun j hj => ?_⟩
  exact (invalidAt_iff hbs (by omega)).1 (hleast j hj)

theorem frameSize_of_announces {fs : Nat} (hH : p.H ≤ s.head) (h : Announces p s fs) : fs = frameSize p (bs.take p.H) := by
  obtain ⟨w, hw, rfl⟩ := h
  rw [window_of_bytes hbs (by simpa using hH)] at hw
  rw [← Option.some.inj hw, List.drop_zero]

/-- The bytes a compaction leaves (R143). -/
theorem compacted_bytes {k : Nat} {m : Memory} (hk : k ≤ s.head)
    (hread : ∀ a, a < s.head - k → memRead m a = memRead s.buf (a + k)) :
    memReadBytes m 0 (s.head - k) = some (bs.drop k) := by
  rw [compact_bytes hread 0 (by omega), memReadBytes_sub hbs k (s.head - k) (by omega),
    List.take_of_length_le (by rw [List.length_drop, memReadBytes_length hbs])]

/-- The bytes after an append (R141). -/
theorem fed_bytes (chunk : List Byte) : memReadBytes (fed s chunk).buf 0 (fed s chunk).head = some (bs ++ chunk) := by
  obtain ⟨hlen, hread⟩ := memReadBytes_eq_some.1 hbs
  refine memReadBytes_eq_some.2 ⟨by simp [fed, hlen], fun j hj => ?_⟩
  simp only [fed, Nat.zero_add] at hj hread ⊢
  rw [memRead_memWriteBytes]
  split
  · next h => rw [List.getElem?_append_right (by omega), hlen]
  · next h => rw [List.getElem?_append_left (by omega), hread j (by omega)]

/-- At rest the greedy reading has nothing more to read. -/
theorem parse_at_rest (hpos : 1 ≤ p.H) (h : AtRest p s) : parse p s.sync bs = ⟨[], s.sync, bs, false⟩ := by
  have hlen := memReadBytes_length hbs
  rcases h with ⟨hsync, hhead⟩ | ⟨hsync, w, hw, -, hH, hlt, hcap⟩
  · rw [hsync, parse_short (by omega)]
  · rw [window_of_bytes hbs (by simpa using hH), List.drop_zero] at hw
    obtain rfl := Option.some.inj hw
    rw [hsync, parse_incomplete hcap (by omega)]

end bytes

/-! ### One step of the loop -/

/-- From `s`, whose buffer holds `bs`, to `t`, whose buffer holds `rest`: the frames handed over are the first that the reading of
`bs` gives, and it goes on as the reading of `rest`. -/
structure ReadsOn (p : Params) (s t : State) (bs rest : List Byte) (frames : List (List Byte)) : Prop where
  bytes : memReadBytes t.buf 0 t.head = some rest
  reading : parse p s.sync bs = (parse p t.sync rest).prepend frames
  core_out : t.coreOut = s.coreOut ++ frames
  emitted : (traceOf p t.history).emitted = (traceOf p s.history).emitted ++ frames
  appended : (traceOf p t.history).appended = (traceOf p s.history).appended
  pending : t.pending = s.pending

theorem ReadsOn.trans {p : Params} {s t u : State} {bs cs ds : List Byte} {fs gs : List (List Byte)}
    (h : ReadsOn p s t bs cs fs) (h' : ReadsOn p t u cs ds gs) : ReadsOn p s u bs ds (fs ++ gs) where
  bytes := h'.bytes
  reading := by rw [h.reading, h'.reading, Parsed.prepend_prepend]
  core_out := by rw [h'.core_out, h.core_out, List.append_assoc]
  emitted := by rw [h'.emitted, h.emitted, List.append_assoc]
  appended := h'.appended.trans h.appended
  pending := h'.pending.trans h.pending

section step
variable {p : Params} {s t : State} {bs : List Byte} (hbs : memReadBytes s.buf 0 s.head = some bs)

section
include hbs

theorem hdrWait_reads {n : Nat} (he : Effect p s t (.hdrWait n)) : ReadsOn p s t bs bs [] := by
  obtain ⟨-, -, -, rfl⟩ := he
  constructor <;> simp [hbs, traceOf_append_singleton, Trace.add]

theorem payWait_reads {n : Nat} (he : Effect p s t (.payWait n)) : ReadsOn p s t bs bs [] := by
  obtain ⟨-, -, -, rfl⟩ := he
  constructor <;> simp [hbs, traceOf_append_singleton, Trace.add]

end

variable (hpos : 1 ≤ p.H) (hf : Filled s.buf s.head)
include hbs hpos hf

theorem hdrFound_reads {i : Nat} (he : Effect p s t (.hdrFound i)) : ReadsOn p s t bs (bs.drop i) [] := by
  obtain ⟨-, hchoice, u, hu, rfl⟩ := he
  obtain ⟨hsync, -, hfirst⟩ := syncChoice_hdrFound.1 hchoice
  have hle : i ≤ s.head := (Nat.le_add_right _ _).trans hfirst.1
  obtain ⟨m, rfl, -, hread⟩ := compact_ok_spec hf hle hu
  exact
    { bytes := compacted_bytes hbs hle hread
      reading := by rw [hsync]; exact parse_found hpos (firstWindowAt_of hbs hfirst)
      core_out := (List.append_nil _).symm
      emitted := by simp [traceOf_append_singleton, Trace.add]
      appended := by simp [traceOf_append_singleton, Trace.add]
      pending := rfl }

theorem hdrFail_reads {n : Nat} (he : Effect p s t (.hdrFail n)) : ReadsOn p s t bs (bs.drop n) [] := by
  obtain ⟨-, hchoice, rfl, u, hu, rfl⟩ := he
  obtain ⟨hsync, hH, hinvalid⟩ := syncChoice_hdrFail.1 hchoice
  have hlen := memReadBytes_length hbs
  obtain ⟨m, rfl, -, hread⟩ := compact_ok_spec hf (Nat.sub_le _ _) hu
  exact
    { bytes := compacted_bytes hbs (Nat.sub_le _ _) hread
      reading := by
        simp only [completeHandler_sync, emit_sync, hsync]
        exact parse_drop_noise hpos (by omega) fun i hi => (invalidAt_iff hbs (by omega)).1 (hinvalid i (by omega))
      core_out := (List.append_nil _).symm
      emitted := by simp [traceOf_append_singleton, Trace.add]
      appended := by simp [traceOf_append_singleton, Trace.add]
      pending := rfl }

theorem frameEmit_reads {fs : Nat} (he : Effect p s t (.frameEmit fs)) :
    ReadsOn p s t bs (bs.drop fs) [bs.take fs] := by
  obtain ⟨-, hchoice, -, frame, u, hframe, hu, rfl⟩ := he
  obtain ⟨hsync, hH, hannounced, hcap, hle⟩ := syncChoice_frameEmit.1 hchoice
  have hfs := frameSize_of_announces hbs hH hannounced
  have hlen := memReadBytes_length hbs
  obtain ⟨m, rfl, -, hread⟩ := compact_ok_spec hf hle hu
  have htake : memReadBytes s.buf 0 fs = some (bs.take fs) := by
    simpa using memReadBytes_sub hbs 0 fs (by omega)
  obtain rfl : frame = bs.take fs := Option.some.inj (hframe.symm.trans htake)
  exact
    { bytes := compacted_bytes hbs hle hread
      reading := by
        have := parse_frame hpos (bs := bs) (by omega) (by omega)
        rwa [← hfs, ← hsync] at this
      core_out := rfl
      emitted := by simp [traceOf_append_singleton, Trace.add]
      appended := by simp [traceOf_append_singleton, Trace.add, Trace.appended]
      pending := rfl }

/-- Every synchronizer step but the oversize halt reads on. -/
theorem choice_reads {c : SyncChoice} (hc : c ≠ .oversize) (he : Effect p s t (c.label p s)) :
    ∃ rest frames, ReadsOn p s t bs rest frames := by
  cases c with
  | hdrWait => exact ⟨_, _, hdrWait_reads hbs he⟩
  | hdrFound i => exact ⟨_, _, hdrFound_reads hbs hpos hf he⟩
  | hdrFail => exact ⟨_, _, hdrFail_reads hbs hpos hf he⟩
  | payWait => exact ⟨_, _, payWait_reads hbs he⟩
  | oversize => exact absurd rfl hc
  | frameEmit fs => exact ⟨_, _, frameEmit_reads hbs hpos hf he⟩

end step

/-! ### The step chosen (R150) -/

section chosen
variable {p : Params} {s t : State} {c : SyncChoice}

theorem coreSpace_iff : coreSpace p s = true ↔ s.coreOut.length < p.coreOutDepth := by simp [coreSpace]

/-- The label of the choice is a step, unless a complete frame waits for core-channel space (R157). -/
theorem choice_effect (hf : Filled s.buf s.head) (hpc : s.pc = .sync) (hc : syncChoice p s = .ok c) :
    Suspended p s ∨ ∃ t, Effect p s t (c.label p s) := by
  cases c with
  | hdrWait => exact .inr ⟨_, hpc, hc, rfl, rfl⟩
  | payWait => exact .inr ⟨_, hpc, hc, rfl, rfl⟩
  | hdrFound i =>
    obtain ⟨-, -, hle, -⟩ := syncChoice_hdrFound.1 hc
    obtain ⟨m, hm, -⟩ := compact_spec hf (k := i) (by omega)
    exact .inr ⟨_, hpc, hc, _, hm, rfl⟩
  | hdrFail =>
    obtain ⟨m, hm, -⟩ := compact_spec hf (Nat.sub_le s.head (p.H - 1))
    exact .inr ⟨_, hpc, hc, rfl, _, hm, rfl⟩
  | oversize => exact .inr ⟨_, _, rfl, oversizeHeader_true.2 ⟨hpc, hc⟩, rfl⟩
  | frameEmit fs =>
    by_cases hspace : s.coreOut.length < p.coreOutDepth
    · obtain ⟨-, -, -, -, hle⟩ := syncChoice_frameEmit.1 hc
      obtain ⟨m, hm, -⟩ := compact_spec hf hle
      obtain ⟨frame, hframe, -⟩ := hf.readBytes (a := 0) (k := fs) (by omega)
      exact .inr ⟨_, hpc, hc, coreSpace_iff.2 hspace, frame, _, hframe, hm, rfl⟩
    · exact .inl ⟨hpc, ⟨fs, hc⟩, Nat.not_lt.1 hspace⟩

theorem syncLabel_of_choice (hpc : s.pc = .sync) (hc : syncChoice p s = .ok c) : syncLabel p s = some (c.label p s) := by
  simp [syncLabel, hpc, hc]

/-- A synchronizer label. -/
def isSyncLabel (j : Instr) : Prop :=
  (∃ k, j = .hdrFound k) ∨ (∃ k, j = .hdrFail k) ∨ (∃ k, j = .hdrWait k) ∨ (∃ k, j = .payWait k) ∨
    (∃ k, j = .frameEmit k) ∨ j = .fatal Cause.oversizeFrame.code

/-- A synchronizer label that is a step is the one of the choice. -/
theorem eq_label_of_effect {j : Instr} (hj : isSyncLabel j) (hc : syncChoice p s = .ok c) (he : Effect p s t j) :
    j = c.label p s := by
  have hchoice : ∃ c', syncChoice p s = .ok c' ∧ j = c'.label p s := by
    rcases hj with ⟨k, rfl⟩ | ⟨k, rfl⟩ | ⟨k, rfl⟩ | ⟨k, rfl⟩ | ⟨k, rfl⟩ | rfl
    · exact ⟨_, he.2.1, rfl⟩
    · obtain ⟨-, h, rfl, -⟩ := he
      exact ⟨_, h, rfl⟩
    · obtain ⟨-, h, rfl, -⟩ := he
      exact ⟨_, h, rfl⟩
    · obtain ⟨-, h, rfl, -⟩ := he
      exact ⟨_, h, rfl⟩
    · exact ⟨_, he.2.1, rfl⟩
    · obtain ⟨d, hd, hcond, -⟩ := he
      obtain rfl := Cause.code_inj hd
      exact ⟨_, (oversizeHeader_true.1 hcond).2, rfl⟩
  obtain ⟨c', hc', rfl⟩ := hchoice
  rw [hc] at hc'
  rw [Except.ok.inj hc']

end chosen

/-- Settles O17: the choice's label is taken or waits for the channel, and a synchronizer label taken is the choice's. -/
theorem exactlyOneSynchronizerStep : Obligations.ExactlyOneSynchronizerStep := by
  intro s hf hpc
  obtain ⟨c, hc⟩ := syncChoice_ok (p := Config.params) hf
  refine ⟨c.label Config.params s, syncLabel_of_choice hpc hc, ?_, fun j t hj htaken => ?_⟩
  · exact (choice_effect hf hpc hc).imp_right fun ⟨t, ht⟩ => ⟨t, taken_iff.2 ht⟩
  · exact eq_label_of_effect hj hc (taken_iff.1 htaken)

/-! ### The loop -/

section loop
variable {p : Params} {s t : State}

theorem syncLoop_outside (n : Nat) (hpc : s.pc ≠ .sync) : syncLoop p n s = s := by
  cases n with
  | zero => rfl
  | succ n => simp [syncLoop, syncLabel, hpc]

theorem syncLoop_of_effect {c : SyncChoice} (n : Nat) (hpc : s.pc = .sync) (hc : syncChoice p s = .ok c)
    (he : Effect p s t (c.label p s)) : syncLoop p (n + 1) s = syncLoop p n t := by
  rw [syncLoop, syncLabel_of_choice hpc hc]
  simp only [execAt_of_effect he]

/-- A suspended loop stays where it is. -/
theorem syncLoop_of_suspended (n : Nat) (hf : Filled s.buf s.head) (h : Suspended p s) : syncLoop p n s = s := by
  obtain ⟨hpc, ⟨fs, hc⟩, hfull⟩ := h
  have hholds : execAt p (.frameEmit fs) s = .next s := by
    refine (holds_of_no_effect (i := .frameEmit fs) hf nofun ?_).1
    rintro t ⟨-, -, hspace, -⟩
    exact absurd (coreSpace_iff.1 hspace) (Nat.not_lt.2 hfull)
  induction n with
  | zero => rfl
  | succ n ih =>
    rw [syncLoop, syncLabel_of_choice hpc hc]
    simp only [SyncChoice.label, hholds, ih]

theorem syncLoop_keeps_inv (hv : p.Valid) (n : Nat) (h : Inv p s) : Inv p (syncLoop p n s) := by
  induction n generalizing s with
  | zero => exact h
  | succ n ih =>
    rw [syncLoop]
    split
    · exact h
    · next i _ =>
      split
      · next t ht =>
        rcases execAt_cases ht with rfl | he
        · exact ih h
        · exact ih (effect_keeps_inv hv h he)
      · exact h
      · exact h

/-- The loop ended at rest, having read the buffer's bytes to the end. -/
def EndsReading (p : Params) (s t : State) (bs : List Byte) : Prop :=
  (t.pc = .wait ∨ t.pc = .dispatch) ∧ ∃ rest frames, ReadsOn p s t bs rest frames

theorem completeHandler_pc_cases (s : State) : (completeHandler s).pc = .wait ∨ (completeHandler s).pc = .dispatch := by
  rw [completeHandler_pc]
  split
  · exact .inl rfl
  · exact .inr rfl

theorem completeHandler_pc_ne {q : Phase} {u : State} (hwait : q ≠ .wait) (hdispatch : q ≠ .dispatch) :
    (completeHandler u).pc ≠ q := by
  rcases completeHandler_pc_cases u with h | h <;> rw [h]
  · exact hwait.symm
  · exact hdispatch.symm

/-- A step that completes the handler ends the loop. -/
theorem syncLoop_of_completed {u : State} (n : Nat) : syncLoop p n (completeHandler u) = completeHandler u :=
  syncLoop_outside n (completeHandler_pc_ne nofun nofun)

/-- With enough rounds the loop is suspended, or halts, or ends at rest where the greedy reading of the bytes ends (R160, R163). -/
theorem syncLoop_reads (hv : p.Valid) {n : Nat} {bs : List Byte} (h : Inv p s) (hpc : s.pc = .sync)
    (hbs : memReadBytes s.buf 0 s.head = some bs) (hn : Enough p n s.sync s.head) :
    Suspended p (syncLoop p (n + 1) s) ∨ (syncLoop p (n + 1) s).pc = .fatal ∨
      EndsReading p s (syncLoop p (n + 1) s) bs := by
  induction n generalizing s bs with
  | zero =>
    have hc : syncChoice p s = .ok .hdrWait := syncChoice_hdrWait.2 (not_enough_zero hv.header_pos hn)
    have he : Effect p s _ (.hdrWait s.head) := ⟨hpc, hc, rfl, rfl⟩
    rw [syncLoop_of_effect 0 hpc hc he]
    exact .inr (.inr ⟨completeHandler_pc_cases _, _, _, hdrWait_reads hbs he⟩)
  | succ n ih =>
    obtain ⟨c, hc⟩ := syncChoice_ok (p := p) h.buf_filled
    rcases choice_effect h.buf_filled hpc hc with hsuspended | ⟨t, he⟩
    · rw [syncLoop_of_suspended _ h.buf_filled hsuspended]
      exact .inl hsuspended
    rw [syncLoop_of_effect _ hpc hc he]
    have hgoesOn {t : State} {rest : List Byte} {frames : List (List Byte)} (ht : Inv p t) (hpc' : t.pc = .sync)
        (hread : ReadsOn p s t bs rest frames) (hn' : Enough p n t.sync t.head) :
        Suspended p (syncLoop p (n + 1) t) ∨ (syncLoop p (n + 1) t).pc = .fatal ∨
          EndsReading p s (syncLoop p (n + 1) t) bs :=
      (ih ht hpc' hread.bytes hn').imp_right
        (Or.imp_right fun ⟨hrest, _, _, hread'⟩ => ⟨hrest, _, _, hread.trans hread'⟩)
    cases c with
    | hdrWait =>
      have hread := hdrWait_reads hbs he
      obtain ⟨-, -, -, rfl⟩ := he
      rw [syncLoop_of_completed]
      exact .inr (.inr ⟨completeHandler_pc_cases _, _, _, hread⟩)
    | payWait =>
      have hread := payWait_reads hbs he
      obtain ⟨-, -, -, rfl⟩ := he
      rw [syncLoop_of_completed]
      exact .inr (.inr ⟨completeHandler_pc_cases _, _, _, hread⟩)
    | hdrFail =>
      have hread := hdrFail_reads hbs hv.header_pos h.buf_filled he
      obtain ⟨-, -, -, u, -, rfl⟩ := he
      rw [syncLoop_of_completed]
      exact .inr (.inr ⟨completeHandler_pc_cases _, _, _, hread⟩)
    | oversize =>
      obtain ⟨-, -, -, rfl⟩ := he
      rw [syncLoop_outside _ (by simp)]
      exact .inr (.inl rfl)
    | hdrFound i =>
      have hread := hdrFound_reads hbs hv.header_pos h.buf_filled he
      obtain ⟨hsync, hH, -⟩ := syncChoice_hdrFound.1 hc
      refine hgoesOn (effect_keeps_inv hv h he) ?_ hread ?_
      · obtain ⟨-, -, u, hu, rfl⟩ := he
        rw [compact_ok_frame hu]
        exact hpc
      · obtain ⟨-, -, u, hu, rfl⟩ := he
        rw [compact_ok_frame hu]
        rw [hsync] at hn
        exact hn.found hv.header_pos hH
    | frameEmit fs =>
      have hread := frameEmit_reads hbs hv.header_pos h.buf_filled he
      obtain ⟨hsync, hH, ⟨w, -, hfs⟩, -, hle⟩ := syncChoice_frameEmit.1 hc
      refine hgoesOn (effect_keeps_inv hv h he) ?_ hread ?_
      · obtain ⟨-, -, -, frame, u, -, hu, rfl⟩ := he
        rw [compact_ok_frame hu]
        exact hpc
      · obtain ⟨-, -, -, frame, u, -, hu, rfl⟩ := he
        rw [compact_ok_frame hu]
        rw [hsync] at hn
        exact hn.frame hv.header_pos (hfs ▸ le_frameSize p w) hle

/-- The loop within the bound of R160, for a buffer of at most `m` bytes. -/
theorem syncLoop_bound_reads (hv : p.Valid) {m : Nat} {bs : List Byte} (h : Inv p s) (hpc : s.pc = .sync)
    (hbs : memReadBytes s.buf 0 s.head = some bs) (hm : s.head ≤ m) :
    Suspended p (syncLoop p (loopBound p m) s) ∨ (syncLoop p (loopBound p m) s).pc = .fatal ∨
      EndsReading p s (syncLoop p (loopBound p m) s) bs := by
  refine syncLoop_reads hv (n := 2 * (m / p.H) + 1) h hpc hbs ?_
  have := Nat.div_le_div_right (c := p.H) hm
  cases s.sync <;> simp only [Enough] <;> omega

/-- A loop that ended at rest read exactly the greedy reading, with no oversize header. -/
theorem EndsReading.parse_eq {bs : List Byte} (hv : p.Valid) (h : Inv p t) (he : EndsReading p s t bs) :
    t.run = .running ∧ AtRest p t ∧ t.pending = s.pending ∧
      ∃ frames rest, parse p s.sync bs = ⟨frames, t.sync, rest, false⟩ ∧ t.coreOut = s.coreOut ++ frames ∧
        memReadBytes t.buf 0 t.head = some rest := by
  obtain ⟨hpc, rest, frames, hread⟩ := he
  have hrun : t.run = .running := by rcases hpc with hpc | hpc <;> exact h.running (by simp [hpc]) (by simp [hpc])
  have hrest : AtRest p t := h.at_rest hrun (by rcases hpc with hpc | hpc <;> simp [hpc])
  refine ⟨hrun, hrest, hread.pending, frames, rest, ?_, hread.core_out, hread.bytes⟩
  rw [hread.reading, parse_at_rest hread.bytes hv.header_pos hrest]
  simp [Parsed.prepend]

end loop

/-- Settles O18, by induction on the rounds: each frame takes two of them and at least `H` bytes. -/
theorem synchronizerLoopTerminates : Obligations.SynchronizerLoopTerminates := by
  intro p s hv h hpc
  obtain ⟨bs, hbs, -⟩ := h.buf_filled.readBytes (a := 0) (k := s.head) (by omega)
  rcases syncLoop_bound_reads hv h hpc hbs (Nat.le_refl _) with hsuspended | hfatal | ⟨hrest | hrest, -⟩
  · exact .inr hsuspended
  · exact .inl (by simp [hfatal])
  · exact .inl (by simp [hrest])
  · exact .inl (by simp [hrest])

/-- Settles O19: every step of the loop reads on as the greedy reading does, and at rest nothing is left to read. -/
theorem synchronizerRefinesGreedyReading : Obligations.SynchronizerRefinesGreedyReading := by
  intro p s bs hv h hpc hbs t g hnot hfatal
  have hg : g = parse p s.sync bs :=
    greedy_eq_parse hv.header_pos (enough_loopBound p s.sync (Nat.le_of_eq (memReadBytes_length hbs)))
  have hread : EndsReading p s t bs := by
    rcases syncLoop_bound_reads hv h hpc hbs (Nat.le_refl _) with hs | hf | hread
    · exact absurd hs hnot
    · exact absurd hf hfatal
    · exact hread
  obtain ⟨-, -, -, frames, rest, hparse, hout, hrest⟩ := hread.parse_eq hv (syncLoop_keeps_inv hv _ h)
  rw [hg, hparse]
  have hhead : t.head = rest.length := (memReadBytes_length hrest).symm
  exact ⟨rfl, hout, rfl, hhead, hrest⟩

/-! ### Chunks -/

/-- The reading keeps no more bytes than it is given. -/
theorem greedy_rest_length_le (p : Params) (n : Nat) (q : SyncState) (bs : List Byte) :
    (greedy p n q bs).rest.length ≤ bs.length := by
  induction n generalizing q bs with
  | zero => exact Nat.le_refl _
  | succ n ih =>
    cases q with
    | seekingHeader =>
      rw [greedy]
      split
      · exact Nat.le_refl _
      · split
        · exact (ih _ _).trans (by simp)
        · simp
    | seekingPayload =>
      rw [greedy]
      split
      · exact Nat.le_refl _
      · split
        · exact Nat.le_refl _
        · exact (ih _ _).trans (by simp)

/-- A running block at rest, whose buffer holds `bs`, ready for the link handler. -/
structure Rested (p : Params) (s : State) (bs : List Byte) : Prop where
  inv : Inv p s
  running : s.run = .running
  at_rest : AtRest p s
  link : s.pending.link = false
  bytes : memReadBytes s.buf 0 s.head = some bs

section chunks
variable {p : Params} {s t : State} {bs chunk : List Byte}

/-- The link handler given a chunk at rest: where its loop is neither suspended nor halted, the block is at rest again, having read
the buffer and the chunk. -/
theorem Rested.feed (hv : p.Valid) (h : Rested p s bs) (hfit : bs.length + chunk.length ≤ p.cap)
    (ht : t = syncLoop p (loopBound p p.cap) (fed s chunk)) (hnot : ¬ Suspended p t) (hfatal : t.pc ≠ .fatal) :
    ∃ frames rest, Rested p t rest ∧ parse p s.sync (bs ++ chunk) = ⟨frames, t.sync, rest, false⟩ ∧
      t.coreOut = s.coreOut ++ frames := by
  rw [memReadBytes_length h.bytes] at hfit
  have hfed : Inv p (fed s chunk) := h.inv.fed h.running h.at_rest h.link hfit
  have hinv : Inv p t := ht ▸ syncLoop_keeps_inv hv _ hfed
  have hread : EndsReading p (fed s chunk) t (bs ++ chunk) := by
    have hloop := syncLoop_bound_reads hv hfed rfl (fed_bytes h.bytes chunk) hfit
    rw [← ht] at hloop
    exact (hloop.resolve_left hnot).resolve_left hfatal
  obtain ⟨hrun, hrest, hpend, frames, rest, hparse, hout, hbytes⟩ := hread.parse_eq hv hinv
  exact ⟨frames, rest, ⟨hinv, hrun, hrest, by rw [hpend]; exact h.link, hbytes⟩, hparse, hout⟩

end chunks

/-- Settles O20: the greedy reading of the whole is that of the first chunk, read on with the second. -/
theorem chunkingIndependence : Obligations.ChunkingIndependence := by
  intro p s a b hv h hpc _ _ hfit loop feed whole first both hnot₁ hfatal₁ hnot₂ hfatal₂ hnot hfatal
  obtain ⟨bs, hbs, hlen⟩ := h.buf_filled.readBytes (a := 0) (k := s.head) (by omega)
  have hrun : s.run = .running := h.running (by simp [hpc]) (by simp [hpc])
  have hrest : AtRest p s := h.at_rest hrun (by simp [hpc])
  have hs : Rested p s bs := ⟨h, hrun, hrest, h.pending_link (.inl hpc), hbs⟩
  obtain ⟨f₁, r₁, hfirst, hparse₁, hout₁⟩ := hs.feed hv (chunk := a) (t := first) (by omega) rfl hnot₁ hfatal₁
  have hr₁ : r₁.length ≤ (bs ++ a).length := by
    have hle := greedy_rest_length_le p (loopBound p (bs ++ a).length) s.sync (bs ++ a)
    rw [← parse, hparse₁] at hle
    exact hle
  rw [List.length_append] at hr₁
  obtain ⟨f₂, r₂, hboth, hparse₂, hout₂⟩ := hfirst.feed hv (chunk := b) (t := both) (by omega) rfl hnot₂ hfatal₂
  obtain ⟨f, r, hwhole, hparse, hout⟩ :=
    hs.feed hv (chunk := a ++ b) (t := whole) (by rw [List.length_append]; omega) rfl hnot hfatal
  have hheader : s.sync = .seekingPayload → p.H ≤ (bs ++ a).length := by
    intro hsync
    rcases hrest with ⟨hs, -⟩ | ⟨-, -, -, -, hH, -⟩
    · exact absurd (hs.symm.trans hsync) (by simp)
    · rw [List.length_append]
      omega
  have hjoined := parse_append hv.header_pos b hheader (by rw [hparse₁])
  rw [List.append_assoc, hparse, hparse₁] at hjoined
  simp only [hparse₂, Parsed.prepend, Parsed.mk.injEq, and_true] at hjoined
  obtain ⟨hframes, hsync, rfl⟩ := hjoined
  have hhead : whole.head = both.head := by rw [← memReadBytes_length hwhole.bytes, memReadBytes_length hboth.bytes]
  have hbytes := hwhole.bytes.trans hboth.bytes.symm
  have hfilled := hwhole.inv.buf_filled
  rw [hhead] at hbytes hfilled
  refine ⟨?_, hsync, hhead, hfilled.ext hboth.inv.buf_filled hbytes⟩
  rw [hout, hout₂, hout₁, hframes, List.append_assoc]

end Sys2Proof.Machine
end

section
/-! Queue order (20_memory.md R94 to R96, 10_state.md R53): every label keeps the clock, the four queues and the wire what the
history says. The history enters through its trace alone, so the agreement is stated of a trace and a state. -/

namespace Sys2Proof.Machine

/-! ### The agreement of a trace and a state -/

/-- The messages read are those written, and the one the pacer holds in phase `q`, whose bytes are `held`; a halted block may
have held one. -/
def WrittenAt (tr : Trace) (q : Phase) (held : Option (List Byte)) : Prop :=
  (q.isEgress = false ∧ q ≠ .fatal → tr.read = tr.written) ∧
    (q.isEgress = true → ∃ m, held = some m ∧ tr.read = tr.written ++ [m]) ∧
    (q = .fatal → ∃ ms, tr.read = tr.written ++ ms ∧ ms.length ≤ 1)

/-- What `QueuesMatch` says, of any trace: the clock, then each queue with its producer and its consumer. -/
structure QueuesFollow (p : Params) (tr : Trace) (s : State) : Prop where
  clock : tr.clock = s.nowUs
  link_in : s.rxFifo = tr.arrived.drop tr.taken ∧ tr.taken ≤ tr.arrived.length
  core_out : tr.emitted = tr.received ++ s.coreOut
  core_in : s.coreIn = tr.sent.drop tr.read.length ∧ tr.read.length ≤ tr.sent.length ∧
    tr.read = (tr.sent.take tr.read.length).map (fun m => m.take p.txMax)
  link_out : tr.written.flatten = tr.departed.map Prod.snd ++ s.txQueue
  wire : s.wire = tr.wire ∧ ∃ older, s.wire = older ++ tr.departed
  written : WrittenAt tr s.pc (memReadBytes s.egMsg 0 s.egLen)

theorem queuesMatch_iff {p : Params} {s : State} : QueuesMatch p s ↔ QueuesFollow p (traceOf p s.history) s := by
  constructor
  · intro h
    exact ⟨h.clock, ⟨h.rx_fifo, h.taken_le⟩, h.core_out, ⟨h.core_in, h.read_le, h.read_eq⟩, h.tx_queue,
      ⟨h.wire, h.departed⟩, h.written⟩
  · rintro ⟨hclock, ⟨hrx, htaken⟩, hout, ⟨hin, hle, heq⟩, htx, ⟨hwire, hdeparted⟩, hwritten⟩
    exact ⟨hclock, hrx, htaken, hout, hin, hle, heq, htx, hwire, hdeparted, hwritten⟩

/-! ### The messages between the phases -/

section written
variable {tr : Trace} {q q' : Phase} {held held' : Option (List Byte)}

theorem WrittenAt.rest (h : WrittenAt tr q held) (hq : q.isEgress = false ∧ q ≠ .fatal) : tr.read = tr.written := h.1 hq

theorem WrittenAt.egress (h : WrittenAt tr q held) (hq : q.isEgress = true) :
    ∃ m, held = some m ∧ tr.read = tr.written ++ [m] := h.2.1 hq

theorem writtenAt_rest (hq : q.isEgress = false ∧ q ≠ .fatal) (h : tr.read = tr.written) : WrittenAt tr q held :=
  ⟨fun _ => h, fun hegress => by simp [hq.1] at hegress, fun hfatal => absurd hfatal hq.2⟩

theorem writtenAt_egress {m : List Byte} (hq : q.isEgress = true) (hm : held = some m) (h : tr.read = tr.written ++ [m]) :
    WrittenAt tr q held :=
  ⟨fun hrest => by simp [hq] at hrest, fun _ => ⟨m, hm, h⟩, by rintro rfl; contradiction⟩

/-- Whatever the pacer held, it may have held when the block halted (60_exceptions.md R250). -/
theorem WrittenAt.fatal (h : WrittenAt tr q held) : WrittenAt tr .fatal held' := by
  refine ⟨fun hrest => absurd rfl hrest.2, nofun, fun _ => ?_⟩
  by_cases hfatal : q = .fatal
  · exact h.2.2 hfatal
  cases hegress : q.isEgress with
  | false => exact ⟨[], by simpa using h.rest ⟨hegress, hfatal⟩, by simp⟩
  | true =>
    obtain ⟨m, -, hm⟩ := h.egress hegress
    exact ⟨[m], hm, by simp⟩

theorem WrittenAt.rest_phase (h : WrittenAt tr q held) (hq : q.isEgress = false ∧ q ≠ .fatal)
    (hq' : q'.isEgress = false ∧ q' ≠ .fatal) : WrittenAt tr q' held' := writtenAt_rest hq' (h.rest hq)

theorem WrittenAt.egress_phase (h : WrittenAt tr q held) (hq : q.isEgress = true) (hq' : q'.isEgress = true) :
    WrittenAt tr q' held := by
  obtain ⟨m, hm, hread⟩ := h.egress hq
  exact writtenAt_egress hq' hm hread

end written

/-- Handler completion leads to a phase outside the pacer. -/
theorem completeHandler_pc_rest (s : State) : (completeHandler s).pc.isEgress = false ∧ (completeHandler s).pc ≠ .fatal := by
  rcases completeHandler_pc_cases s with h | h <;> rw [h] <;> exact ⟨rfl, nofun⟩

/-! ### Label by label -/

section labels
variable {p : Params} {tr : Trace} {s t : State}

/-- A step that changes neither queues nor clock and stays outside the pacer. -/
theorem QueuesFollow.rest_phase (h : QueuesFollow p tr s) (hq : s.pc.isEgress = false ∧ s.pc ≠ .fatal)
    (ht : t.pc.isEgress = false ∧ t.pc ≠ .fatal)
    (hsame : t.nowUs = s.nowUs ∧ t.rxFifo = s.rxFifo ∧ t.coreOut = s.coreOut ∧ t.coreIn = s.coreIn ∧
      t.txQueue = s.txQueue ∧ t.wire = s.wire) : QueuesFollow p tr t := by
  obtain ⟨hnow, hrx, hout, hin, htx, hwire⟩ := hsame
  obtain ⟨hclock, hlink, hemitted, hcore, hflat, hw, hwritten⟩ := h
  rw [← hnow] at hclock
  rw [← hrx] at hlink
  rw [← hout] at hemitted
  rw [← hin] at hcore
  rw [← htx] at hflat
  rw [← hwire] at hw
  exact ⟨hclock, hlink, hemitted, hcore, hflat, hw, hwritten.rest_phase hq ht⟩

theorem linkRead_follows {r : Nat} (h : QueuesFollow p tr s) (he : Effect p s t (.linkRead r)) :
    QueuesFollow p (tr.add p ⟨.linkRead r, []⟩) t := by
  obtain ⟨hpc, -, hle, rfl⟩ := he
  obtain ⟨hrx, htaken⟩ := h.link_in
  have hr : r ≤ tr.arrived.length - tr.taken := by
    rw [← List.length_drop, ← hrx]
    exact hle.trans (Nat.min_le_left _ _)
  exact { h with
    link_in := ⟨(congrArg (List.drop r) hrx).trans List.drop_drop, show tr.taken + r ≤ tr.arrived.length by omega⟩
    written := h.written.rest_phase (by simp [hpc, Phase.isEgress]) ⟨rfl, nofun⟩ }

theorem frameEmit_follows {fs : Nat} (h : QueuesFollow p tr s) (he : Effect p s t (.frameEmit fs)) :
    ∃ frame, t.history = s.history ++ [⟨.frameEmit fs, frame⟩] ∧ QueuesFollow p (tr.add p ⟨.frameEmit fs, frame⟩) t := by
  obtain ⟨-, -, -, frame, u, -, hu, rfl⟩ := he
  rw [compact_ok_frame hu]
  exact ⟨frame, rfl, { h with
    core_out := (congrArg (· ++ [frame]) h.core_out).trans (List.append_assoc _ _ _) }⟩

theorem coreRead_follows {len : Nat} (h : QueuesFollow p tr s) (he : Effect p s t (.coreRead len))
    (hwf : Memory.wf s.egMsg) :
    ∃ m, t.history = s.history ++ [⟨.coreRead len, m⟩] ∧ QueuesFollow p (tr.add p ⟨.coreRead len, m⟩) t := by
  obtain ⟨m, rest, hin, hpc, -, -, rfl⟩ := he
  obtain ⟨hdrop, hle, heq⟩ := h.core_in
  rw [hin] at hdrop
  have hlt : tr.read.length < tr.sent.length := by
    have hlen := congrArg List.length hdrop
    rw [List.length_cons, List.length_drop] at hlen
    omega
  have hnext : tr.sent[tr.read.length]? = some m := by
    rw [← List.head?_drop, ← hdrop]
    rfl
  have hheld : memReadBytes (memForget (memWriteBytes s.egMsg 0 (m.take p.txMax)) (min m.length p.txMax)) 0
      (min m.length p.txMax) = some (m.take p.txMax) := by
    have hlen : (m.take p.txMax).length = min m.length p.txMax := by rw [List.length_take, Nat.min_comm]
    rw [← hlen]
    refine memReadBytes_eq_some.2 ⟨rfl, fun j _ => ?_⟩
    rw [Nat.zero_add]
    exact (filled_overwrite hwf (m.take p.txMax)).2 j
  refine ⟨m.take p.txMax, rfl, { h with core_in := ?_, written := ?_ }⟩
  · simp only [Trace.add, List.length_append, List.length_singleton]
    refine ⟨?_, hlt, ?_⟩
    · rw [← List.tail_drop, ← hdrop]
      rfl
    · rw [List.take_add_one, hnext, List.map_append, ← heq]
      rfl
  · refine writtenAt_egress rfl hheld (congrArg (· ++ [m.take p.txMax]) (h.written.rest ?_))
    simp [hpc, Phase.isEgress]

theorem depthPoll_follows {d : Nat} (h : QueuesFollow p tr s) (he : Effect p s t (.depthPoll d)) :
    QueuesFollow p (tr.add p ⟨.depthPoll d, []⟩) t := by
  obtain ⟨hpc, -, rfl⟩ := he
  have hegress : (if 0 < d then Phase.sleepDrain else Phase.gap).isEgress = true := by split <;> rfl
  exact { h with written := h.written.egress_phase (by rw [hpc]; rfl) hegress }

theorem linkWrite_follows {len : Nat} (h : QueuesFollow p tr s) (he : Effect p s t (.linkWrite len)) :
    ∃ m, t.history = s.history ++ [⟨.linkWrite len, m⟩] ∧ QueuesFollow p (tr.add p ⟨.linkWrite len, m⟩) t := by
  obtain ⟨hpc, -, bytes, hbytes, rfl⟩ := he
  obtain ⟨m, hm, hread⟩ := h.written.egress (by rw [hpc]; rfl)
  obtain rfl : bytes = m := Option.some.inj (hbytes.symm.trans hm)
  refine ⟨bytes, rfl, { h with
    link_out := ?_
    written := writtenAt_rest (completeHandler_pc_rest _) hread }⟩
  simp [Trace.add, h.link_out]

theorem envRx_follows {b : Byte} (h : QueuesFollow p tr s) (he : Effect p s t (.envRx b)) :
    QueuesFollow p (tr.add p ⟨.envRx b, []⟩) t := by
  obtain ⟨-, rfl⟩ := he
  obtain ⟨hrx, htaken⟩ := h.link_in
  have hlen : s.rxFifo.length = tr.arrived.length - tr.taken := by rw [hrx, List.length_drop]
  by_cases hroom : s.rxFifo.length < p.rxFifoDepth
  · have hadd : tr.add p ⟨.envRx b, []⟩ = { tr with arrived := tr.arrived ++ [b] } := if_pos (hlen ▸ hroom)
    rw [hadd, if_pos hroom]
    exact { h with
      link_in := ⟨by simp [hrx, List.drop_append_of_le_length htaken], by simp; omega⟩ }
  · have hadd : tr.add p ⟨.envRx b, []⟩ = tr := if_neg (hlen ▸ hroom)
    rw [hadd, if_neg hroom]
    exact { h with }

/-- The bytes that leave the transmit queue are the first of it, at the current clock (42_dispatch_control.md R231). -/
theorem QueuesFollow.departing (h : QueuesFollow p tr s) (k : Nat) :
    tr.departing k = (s.txQueue.take k).map (fun b => (s.nowUs, b)) := by
  have hlen : tr.departed.length = (tr.departed.map Prod.snd).length := by rw [List.length_map]
  rw [Trace.departing, h.link_out, h.clock, hlen, List.drop_left]

theorem envTxDrain_follows {k : Nat} (h : QueuesFollow p tr s) (he : Effect p s t (.envTxDrain k)) :
    QueuesFollow p (tr.add p ⟨.envTxDrain k, []⟩) t := by
  obtain ⟨-, -, rfl⟩ := he
  obtain ⟨hwire, older, holder⟩ := h.wire
  have hgone := h.departing k
  refine { h with link_out := ?_, wire := ⟨?_, older, ?_⟩ }
  · simp [Trace.add, hgone, h.link_out, Function.comp_def]
  · simp [Trace.add, hgone, hwire]
  · simp [Trace.add, hgone, holder]

theorem envCoreSend_follows {m : List Byte} (h : QueuesFollow p tr s) (he : Effect p s t (.envCoreSend m)) :
    QueuesFollow p (tr.add p ⟨.envCoreSend m, m⟩) t := by
  obtain rfl := he
  obtain ⟨hin, hle, heq⟩ := h.core_in
  refine { h with core_in := ⟨?_, ?_, ?_⟩ }
  · simp [Trace.add, hin, List.drop_append_of_le_length hle]
  · simp [Trace.add]
    omega
  · simpa [Trace.add, List.take_append_of_le_length hle] using heq

theorem envCoreRecv_follows {n : Nat} (h : QueuesFollow p tr s) (he : Effect p s t (.envCoreRecv n)) :
    ∃ frame, t.history = s.history ++ [⟨.envCoreRecv n, frame⟩] ∧
      QueuesFollow p (tr.add p ⟨.envCoreRecv n, frame⟩) t := by
  obtain ⟨frame, rest, hout, -, rfl⟩ := he
  exact ⟨frame, rfl, { h with core_out := by simp [Trace.add, h.core_out, hout] }⟩

/-- START and RESET empty the queues on both sides, and keep the clock and the wire (42_dispatch_control.md R221, R226). -/
theorem flush_follows (h : QueuesFollow p tr s)
    (ht : t.nowUs = s.nowUs ∧ t.wire = s.wire ∧ t.rxFifo = [] ∧ t.coreOut = [] ∧ t.coreIn = [] ∧ t.txQueue = [] ∧
      (t.pc.isEgress = false ∧ t.pc ≠ .fatal)) : QueuesFollow p tr.flush t := by
  obtain ⟨hnow, hwire, hrx, hout, hin, htx, hpc⟩ := ht
  exact
    { clock := h.clock.trans hnow.symm
      link_in := ⟨hrx, Nat.le_refl _⟩
      core_out := hout.symm
      core_in := ⟨hin, Nat.le_refl _, rfl⟩
      link_out := htx.symm
      wire := ⟨hwire.trans h.wire.1, s.wire, by simp [hwire, Trace.flush, Trace.start]⟩
      written := writtenAt_rest hpc rfl }

/-- Every label keeps the agreement, its event added to the trace. -/
theorem effect_follows {i : Instr} (h : QueuesFollow p tr s) (hinv : Inv p s) (he : Effect p s t i) :
    ∃ c, t.history = s.history ++ [⟨i, c⟩] ∧ QueuesFollow p (tr.add p ⟨i, c⟩) t := by
  cases i with
  | linkRead r =>
    have hfollows := linkRead_follows h he
    obtain ⟨-, -, -, rfl⟩ := he
    exact ⟨_, rfl, hfollows⟩
  | hdrFound k =>
    obtain ⟨-, -, u, hu, rfl⟩ := he
    rw [compact_ok_frame hu]
    exact ⟨_, rfl, { h with }⟩
  | hdrFail n =>
    obtain ⟨hpc, -, -, u, hu, rfl⟩ := he
    rw [compact_ok_frame hu]
    exact ⟨_, rfl, h.rest_phase (by rw [hpc]; exact ⟨rfl, nofun⟩) (completeHandler_pc_rest _) ⟨rfl, rfl, rfl, rfl, rfl, rfl⟩⟩
  | hdrWait n =>
    obtain ⟨hpc, -, -, rfl⟩ := he
    exact ⟨_, rfl, h.rest_phase (by rw [hpc]; exact ⟨rfl, nofun⟩) (completeHandler_pc_rest _) ⟨rfl, rfl, rfl, rfl, rfl, rfl⟩⟩
  | payWait n =>
    obtain ⟨hpc, -, -, rfl⟩ := he
    exact ⟨_, rfl, h.rest_phase (by rw [hpc]; exact ⟨rfl, nofun⟩) (completeHandler_pc_rest _) ⟨rfl, rfl, rfl, rfl, rfl, rfl⟩⟩
  | frameEmit fs => exact frameEmit_follows h he
  | coreRead len => exact coreRead_follows h he hinv.egMsg_filled.1
  | depthPoll d =>
    have hfollows := depthPoll_follows h he
    obtain ⟨-, -, rfl⟩ := he
    exact ⟨_, rfl, hfollows⟩
  | drainSleep us =>
    obtain ⟨hpc, -, -, rfl⟩ := he
    exact ⟨_, rfl, { h with written := h.written.egress_phase (by rw [hpc]; rfl) rfl }⟩
  | idleGap us =>
    obtain ⟨hpc, -, -, rfl⟩ := he
    exact ⟨_, rfl, { h with written := h.written.egress_phase (by rw [hpc]; rfl) rfl }⟩
  | linkWrite len => exact linkWrite_follows h he
  | waitWake mask =>
    obtain ⟨hpc, -, -, rfl⟩ := he
    exact ⟨_, rfl, h.rest_phase (by rw [hpc]; exact ⟨rfl, nofun⟩) ⟨rfl, nofun⟩ ⟨rfl, rfl, rfl, rfl, rfl, rfl⟩⟩
  | waitEintr =>
    obtain ⟨-, rfl⟩ := he
    exact ⟨_, rfl, { h with }⟩
  | dispatchLink =>
    obtain ⟨hpc, -, -, rfl⟩ := he
    exact ⟨_, rfl, h.rest_phase (by rw [hpc]; exact ⟨rfl, nofun⟩) ⟨rfl, nofun⟩ ⟨rfl, rfl, rfl, rfl, rfl, rfl⟩⟩
  | dispatchCore =>
    obtain ⟨hpc, -, -, rfl⟩ := he
    exact ⟨_, rfl, h.rest_phase (by rw [hpc]; exact ⟨rfl, nofun⟩) ⟨rfl, nofun⟩ ⟨rfl, rfl, rfl, rfl, rfl, rfl⟩⟩
  | ioRetry op =>
    obtain ⟨-, rfl⟩ := he
    exact ⟨_, rfl, { h with }⟩
  | cfgBitrate v =>
    obtain rfl := he
    split <;> exact ⟨_, rfl, { h with }⟩
  | cfgFlowctl f =>
    obtain rfl := he
    split <;> exact ⟨_, rfl, { h with }⟩
  | start =>
    obtain ⟨-, -, rfl⟩ := he
    exact ⟨_, rfl, flush_follows h ⟨rfl, rfl, rfl, rfl, rfl, rfl, rfl, nofun⟩⟩
  | fatal code =>
    obtain ⟨c, rfl, -, rfl⟩ := he
    exact ⟨_, rfl, { h with written := h.written.fatal }⟩
  | reset =>
    obtain rfl := he
    exact ⟨_, rfl, flush_follows h ⟨rfl, rfl, rfl, rfl, rfl, rfl, rfl, nofun⟩⟩
  | envRx b =>
    have hfollows := envRx_follows h he
    obtain ⟨-, rfl⟩ := he
    exact ⟨_, rfl, hfollows⟩
  | envTxDrain k =>
    have hfollows := envTxDrain_follows h he
    obtain ⟨-, -, rfl⟩ := he
    exact ⟨_, rfl, hfollows⟩
  | envCoreSend m =>
    have hfollows := envCoreSend_follows h he
    obtain rfl := he
    exact ⟨_, rfl, hfollows⟩
  | envCoreRecv n => exact envCoreRecv_follows h he
  | envTick u =>
    obtain ⟨-, rfl⟩ := he
    exact ⟨_, rfl, { h with clock := congrArg (· + u) h.clock }⟩
  | envLinkHup =>
    obtain ⟨-, rfl⟩ := he
    exact ⟨_, rfl, { h with }⟩

theorem effect_keeps_queues {i : Instr} (hinv : Inv p s) (h : QueuesMatch p s) (he : Effect p s t i) : QueuesMatch p t := by
  obtain ⟨c, hhistory, hfollows⟩ := effect_follows (queuesMatch_iff.1 h) hinv he
  rw [queuesMatch_iff, hhistory, traceOf_append_singleton]
  exact hfollows

theorem QueuesMatch.afterOffer (h : QueuesMatch p s) (rest : List Move) : QueuesMatch p (afterOffer rest s) := { h with }

end labels

/-- Settles O53, label by label. -/
theorem stepKeepsQueueOrder : Obligations.StepKeepsQueueOrder := fun _ _ hinv h hstep =>
  (step_keeps (P := fun s => Inv Config.params s ∧ QueuesMatch Config.params s)
    (fun rest _ h => ⟨h.1.afterOffer rest, h.2.afterOffer rest⟩)
    (fun _ _ _ h he => ⟨effect_keeps_inv Config.params_valid h.1 he, effect_keeps_queues h.1 h.2 he⟩) ⟨hinv, h⟩ hstep).2

end Sys2Proof.Machine
end

section
/-! Frames (10_state.md R32 to R59): which operations write each element of the state, and what follows from it. -/

namespace Sys2Proof.Machine

/-! ### The block's elements -/

/-- Settles O45, label by label. -/
theorem blockStateIsWrittenOnlyByItsOperations : Obligations.BlockStateIsWrittenOnlyByItsOperations := by
  intro p i s t ht hstart hreset
  rcases execAt_cases ht with rfl | he
  · simp
  cases i with
  | start => exact absurd rfl hstart
  | reset => exact absurd rfl hreset
  | linkRead r => obtain ⟨hpc, -, -, rfl⟩ := he; simp [hpc]
  | hdrFound k => obtain ⟨hpc, -, u, hu, rfl⟩ := he; rw [compact_ok_frame hu]; simp
  | hdrFail n => obtain ⟨hpc, -, -, u, hu, rfl⟩ := he; rw [compact_ok_frame hu, completeHandler_eq]; simp [hpc]
  | hdrWait n => obtain ⟨hpc, -, -, rfl⟩ := he; rw [completeHandler_eq]; simp [hpc]; exact fun _ => rfl
  | payWait n => obtain ⟨hpc, -, -, rfl⟩ := he; rw [completeHandler_eq]; simp [hpc]; exact fun _ => rfl
  | frameEmit fs => obtain ⟨hpc, -, -, frame, u, -, hu, rfl⟩ := he; rw [compact_ok_frame hu]; simp
  | coreRead len => obtain ⟨m, rest, -, hpc, -, -, rfl⟩ := he; simp [hpc]
  | depthPoll d => obtain ⟨hpc, -, rfl⟩ := he; simp [hpc]; omega
  | drainSleep us => obtain ⟨hpc, -, -, rfl⟩ := he; simp [hpc]
  | idleGap us => obtain ⟨hpc, -, -, rfl⟩ := he; simp [hpc]
  | linkWrite len => obtain ⟨hpc, -, bytes, -, rfl⟩ := he; rw [completeHandler_eq]; simp [hpc]
  | waitWake mask => obtain ⟨hpc, -, -, rfl⟩ := he; simp [hpc]
  | waitEintr => obtain ⟨-, rfl⟩ := he; simp
  | dispatchLink => obtain ⟨hpc, -, -, rfl⟩ := he; simp [hpc]
  | dispatchCore => obtain ⟨hpc, -, -, rfl⟩ := he; simp [hpc]
  | ioRetry op => obtain ⟨-, rfl⟩ := he; simp
  | cfgBitrate v => obtain rfl := he; split <;> simp [*]
  | cfgFlowctl f => obtain rfl := he; split <;> simp [*]
  | fatal code => obtain ⟨c, -, -, rfl⟩ := he; simp
  | envRx b => obtain ⟨-, rfl⟩ := he; simp
  | envTxDrain k => obtain ⟨-, -, rfl⟩ := he; simp
  | envCoreSend m => obtain rfl := he; simp
  | envCoreRecv n => obtain ⟨frame, rest, -, -, rfl⟩ := he; simp
  | envTick u => obtain ⟨-, rfl⟩ := he; simp
  | envLinkHup => obtain ⟨-, rfl⟩ := he; simp

section
variable {p : Params} {i : Instr} {s t : State}

/-! ### The history, the clock, the wire and two queues -/

/-- A label's step is recorded in the history, once and with its label (30_encoding.md R120); the clock moves forward, by ENV_TICK
alone; the wire grows, by ENV_TX_DRAIN alone; and a change of `rx_fifo` or `core_out` has one of its few writers (10_state.md R50
to R56). -/
theorem environment_writers (he : Effect p s t i) :
    (∃ c, t.history = s.history ++ [⟨i, c⟩]) ∧
      (t.nowUs ≠ s.nowUs → ∃ u, i = .envTick u ∧ t.nowUs = s.nowUs + u) ∧
      (t.wire ≠ s.wire → (∃ k, i = .envTxDrain k) ∧ ∃ more, t.wire = s.wire ++ more) ∧
      (t.rxFifo ≠ s.rxFifo → (∃ r, i = .linkRead r) ∨ (∃ b, i = .envRx b) ∨ i = .start ∨ i = .reset) ∧
      (t.coreOut ≠ s.coreOut → (∃ fs, i = .frameEmit fs) ∨ (∃ n, i = .envCoreRecv n) ∨ i = .start ∨ i = .reset) := by
  cases i with
  | linkRead r => obtain ⟨-, -, -, rfl⟩ := he; simp
  | hdrFound k => obtain ⟨-, -, u, hu, rfl⟩ := he; rw [compact_ok_frame hu]; simp
  | hdrFail n => obtain ⟨-, -, -, u, hu, rfl⟩ := he; rw [compact_ok_frame hu]; simp
  | hdrWait n => obtain ⟨-, -, -, rfl⟩ := he; simp
  | payWait n => obtain ⟨-, -, -, rfl⟩ := he; simp
  | frameEmit fs => obtain ⟨-, -, -, frame, u, -, hu, rfl⟩ := he; rw [compact_ok_frame hu]; simp
  | coreRead len => obtain ⟨m, rest, -, -, -, -, rfl⟩ := he; simp
  | depthPoll d => obtain ⟨-, -, rfl⟩ := he; simp
  | drainSleep us => obtain ⟨-, -, -, rfl⟩ := he; simp
  | idleGap us => obtain ⟨-, -, -, rfl⟩ := he; simp
  | linkWrite len => obtain ⟨-, -, bytes, -, rfl⟩ := he; simp
  | waitWake mask => obtain ⟨-, -, -, rfl⟩ := he; simp
  | waitEintr => obtain ⟨-, rfl⟩ := he; simp
  | dispatchLink => obtain ⟨-, -, -, rfl⟩ := he; simp
  | dispatchCore => obtain ⟨-, -, -, rfl⟩ := he; simp
  | ioRetry op => obtain ⟨-, rfl⟩ := he; simp
  | cfgBitrate v => obtain rfl := he; split <;> simp
  | cfgFlowctl f => obtain rfl := he; split <;> simp
  | start => obtain ⟨-, -, rfl⟩ := he; simp
  | fatal code => obtain ⟨c, rfl, -, rfl⟩ := he; simp
  | reset => obtain rfl := he; simp
  | envRx b => obtain ⟨-, rfl⟩ := he; simp
  | envTxDrain k => obtain ⟨-, -, rfl⟩ := he; simp
  | envCoreSend m => obtain rfl := he; simp
  | envCoreRecv n => obtain ⟨frame, rest, -, -, rfl⟩ := he; simp
  | envTick u => obtain ⟨-, rfl⟩ := he; simp
  | envLinkHup => obtain ⟨-, rfl⟩ := he; simp

theorem effect_history (he : Effect p s t i) : ∃ c, t.history = s.history ++ [⟨i, c⟩] := (environment_writers he).1

theorem effect_clock_le (he : Effect p s t i) : s.nowUs ≤ t.nowUs := by
  by_cases h : t.nowUs = s.nowUs
  · exact h.ge
  · obtain ⟨u, -, hu⟩ := (environment_writers he).2.1 h
    omega

theorem effect_wire_grows (he : Effect p s t i) : ∃ more, t.wire = s.wire ++ more := by
  by_cases h : t.wire = s.wire
  · exact ⟨[], by rw [h, List.append_nil]⟩
  · obtain ⟨-, -, hwire, -⟩ := environment_writers he
    exact (hwire h).2

end

/-- Settles O46: every label's effect moves both forward only, and taking a move off the list changes neither. -/
theorem clockAndWireOnlyGrow : Obligations.ClockAndWireOnlyGrow := by
  intro s t hstep
  refine step_keeps (P := fun u => s.nowUs ≤ u.nowUs ∧ ∃ more, u.wire = s.wire ++ more) (fun _ _ h => h) ?_
    ⟨Nat.le_refl _, [], (List.append_nil _).symm⟩ hstep
  rintro i u v ⟨hle, more, hwire⟩ he
  obtain ⟨more', hwire'⟩ := effect_wire_grows he
  exact ⟨hle.trans (effect_clock_le he), more ++ more', by rw [hwire', hwire, List.append_assoc]⟩

/-! ### What the frames give -/

/-- Settles O9: a label that does not hold has its effect, which is recorded. -/
theorem historyRecordsTheLabelTaken : Obligations.HistoryRecordsTheLabelTaken := fun _ _ _ he =>
  (exec_cases he).imp_right effect_history

/-- Settles O8: the enabling condition of each label puts the bound on its argument. -/
theorem illFormedLabelsAreNeverTaken : Obligations.IllFormedLabelsAreNeverTaken := by
  intro i s t hill htaken
  have he := taken_iff.1 htaken
  cases i with
  | linkRead r => obtain ⟨-, hpos, -⟩ := he; simp [Instr.wellFormed] at hill; omega
  | hdrFail n =>
    obtain ⟨-, hchoice, rfl, -⟩ := he
    obtain ⟨-, hH, -⟩ := syncChoice_hdrFail.1 hchoice
    have := Config.params_valid.header_pos
    simp [Instr.wellFormed] at hill
    omega
  | coreRead len =>
    obtain ⟨m, -, -, -, hne, rfl, -⟩ := he
    have := Config.params_valid.txMax_pos
    have := List.length_pos_iff.2 hne
    simp [Instr.wellFormed] at hill
    omega
  | waitWake mask => obtain ⟨-, hne, -⟩ := he; simp [Instr.wellFormed] at hill; exact hne hill
  | ioRetry op => obtain ⟨⟨c, -, rfl⟩, -⟩ := he; cases c <;> contradiction
  | fatal code =>
    obtain ⟨c, rfl, hcond, -⟩ := he
    have hne := cause_ne_none_of_condition hcond
    cases c <;> contradiction
  | envTxDrain k => obtain ⟨hpos, -⟩ := he; simp [Instr.wellFormed] at hill; omega
  | envTick u => obtain ⟨hpos, -⟩ := he; simp [Instr.wellFormed] at hill; omega
  | hdrFound | hdrWait | payWait | frameEmit | depthPoll | drainSleep | idleGap | linkWrite => contradiction
  | waitEintr | dispatchLink | dispatchCore | cfgBitrate | cfgFlowctl | start | reset => contradiction
  | envRx | envCoreSend | envCoreRecv | envLinkHup => contradiction

/-- Settles O44, by the effects of the six environment labels. -/
theorem environmentLeavesTheBlockAlone : Obligations.EnvironmentLeavesTheBlockAlone := by
  intro i s t henv ht
  rcases exec_cases ht with rfl | he
  · simp
  cases i with
  | envRx b => obtain ⟨-, rfl⟩ := he; simp
  | envTxDrain k => obtain ⟨-, -, rfl⟩ := he; simp
  | envCoreSend m => obtain rfl := he; simp
  | envCoreRecv n => obtain ⟨frame, rest, -, -, rfl⟩ := he; simp
  | envTick u => obtain ⟨-, rfl⟩ := he; simp
  | envLinkHup => obtain ⟨-, rfl⟩ := he; simp
  | linkRead | hdrFound | hdrFail | hdrWait | payWait | frameEmit => contradiction
  | coreRead | depthPoll | drainSleep | idleGap | linkWrite => contradiction
  | waitWake | waitEintr | dispatchLink | dispatchCore | ioRetry => contradiction
  | cfgBitrate | cfgFlowctl | start | fatal | reset => contradiction

/-- Settles O28: the ingress labels belong to `P_LINK_READ` and `P_SYNC`, and the sequencer's others leave the ingress state. -/
theorem ingressStallsWhileThePacerWorks : Obligations.IngressStallsWhileThePacerWorks := by
  intro i s t hphase hseq ht
  rcases exec_cases ht with rfl | he
  · simp
  have hpc : s.pc ≠ .linkRead ∧ s.pc ≠ .sync := by
    constructor <;> intro h <;> simp [h, Phase.isEgress] at hphase
  cases i with
  | linkRead r => exact absurd he.1 hpc.1
  | hdrFound | hdrFail | hdrWait | payWait | frameEmit => exact absurd he.1 hpc.2
  | coreRead len => obtain ⟨m, rest, -, -, -, -, rfl⟩ := he; simp
  | depthPoll d => obtain ⟨-, -, rfl⟩ := he; simp
  | drainSleep us => obtain ⟨-, -, -, rfl⟩ := he; simp
  | idleGap us => obtain ⟨-, -, -, rfl⟩ := he; simp
  | linkWrite len => obtain ⟨-, -, bytes, -, rfl⟩ := he; simp
  | waitWake mask => obtain ⟨-, -, -, rfl⟩ := he; simp
  | waitEintr => obtain ⟨-, rfl⟩ := he; simp
  | dispatchLink => obtain ⟨-, -, -, rfl⟩ := he; simp
  | dispatchCore => obtain ⟨-, -, -, rfl⟩ := he; simp
  | ioRetry op => obtain ⟨-, rfl⟩ := he; simp
  | fatal code => obtain ⟨c, -, -, rfl⟩ := he; simp
  | cfgBitrate | cfgFlowctl | start | reset => contradiction
  | envRx | envTxDrain | envCoreSend | envCoreRecv | envTick | envLinkHup => contradiction

/-! ### The halted block (60_exceptions.md R252) -/

/-- No cause's condition holds in `P_FATAL`. -/
theorem fatalCondition_of_halted {p : Params} {s : State} (hpc : s.pc = .fatal) (c : Cause) :
    fatalCondition p c s = .ok false := by
  cases c <;> simp [fatalCondition, makesCall, ioCall, oversizeHeader, hpc]

/-- In `P_FATAL` only the configuration labels, RESET and the environment's have a step. -/
theorem effect_of_halted {p : Params} {i : Instr} {s t : State} (hpc : s.pc = .fatal) (he : Effect p s t i) :
    isEnvironment i = true ∨ (∃ v, i = .cfgBitrate v) ∨ (∃ f, i = .cfgFlowctl f) ∨ i = .reset := by
  cases i with
  | cfgBitrate v => exact .inr (.inl ⟨v, rfl⟩)
  | cfgFlowctl f => exact .inr (.inr (.inl ⟨f, rfl⟩))
  | reset => exact .inr (.inr (.inr rfl))
  | envRx | envTxDrain | envCoreSend | envCoreRecv | envTick | envLinkHup => exact .inl rfl
  | linkRead | hdrFound | hdrFail | hdrWait | payWait | frameEmit => exact absurd (hpc.symm.trans he.1) nofun
  | depthPoll | drainSleep | idleGap | linkWrite => exact absurd (hpc.symm.trans he.1) nofun
  | waitWake | waitEintr | dispatchLink | dispatchCore | start => exact absurd (hpc.symm.trans he.1) nofun
  | coreRead len =>
    obtain ⟨-, -, -, hread, -⟩ := he
    exact absurd (hpc.symm.trans hread) nofun
  | ioRetry op =>
    obtain ⟨⟨c, hcall, -⟩, -⟩ := he
    simp [ioCall, hpc] at hcall
  | fatal code =>
    obtain ⟨c, -, hcond, -⟩ := he
    simp [fatalCondition_of_halted hpc] at hcond

/-- Settles O37: in `P_FATAL` the block's own labels have no step, and the others leave its elements. -/
theorem fatalIsSticky : Obligations.FatalIsSticky := by
  intro i s t hpc hrun hreset ht
  rcases exec_cases ht with rfl | he
  · simp [hpc, hrun]
  rcases effect_of_halted hpc he with henv | ⟨v, rfl⟩ | ⟨f, rfl⟩ | rfl
  · obtain ⟨hbuf, hhead, hsync, hmsg, hlen, -, -, hpc', hpend, hrun', hcause, hrate, hflow⟩ :=
      environmentLeavesTheBlockAlone i s t henv ht
    refine ⟨?_, hpc'.trans hpc, hrun'.trans hrun, hcause, hbuf, hhead, hsync, hmsg, hlen, hrate, hflow, hpend⟩
    rintro (hseq | rfl | ⟨code, rfl⟩)
    · cases i <;> contradiction
    · contradiction
    · contradiction
  · obtain rfl := he
    simp [hrun, hpc, isSequencer]
  · obtain rfl := he
    simp [hrun, hpc, isSequencer]
  · exact absurd rfl hreset

end Sys2Proof.Machine
end

section
/-! The pacing of link writes (41_egress.md R190): every label keeps it. As for the queues, the history enters through its trace. -/

namespace Sys2Proof.Machine

/-- What `WritesPaced` says, of any trace and any gap. -/
def PacedWrites (tr : Trace) (gap : Nat) : Prop :=
  ∀ w ∈ tr.writes, ∃ t0, w.zeroPoll = some t0 ∧ t0 + gap ≤ w.clock ∧ w.before ≤ tr.departed.length ∧
    ∀ (j : Nat) (e : Nat × Byte), tr.departed[j]? = some e → (j < w.before → e.1 ≤ t0) ∧ (w.before ≤ j → t0 + gap ≤ e.1)

/-- What `PacedInv` says, of any trace. -/
structure Paces (p : Params) (tr : Trace) (s : State) : Prop where
  armed : s.pc = .gap ∨ s.pc = .write →
    ∃ t0, tr.zeroPoll = some t0 ∧ s.egDeadline = t0 + gapUs p s.bitrate ∧ ∀ e ∈ tr.departed, e.1 ≤ t0
  past : (∀ e ∈ tr.departed, e.1 ≤ s.nowUs) ∧ ∀ w ∈ tr.writes, w.clock ≤ s.nowUs
  idle_none : s.run = .idle → tr.writes = []
  paced : PacedWrites tr (gapUs p s.bitrate)

theorem pacedInv_iff {p : Params} {s : State} : PacedInv p s ↔ Paces p (traceOf p s.history) s :=
  ⟨fun h => ⟨h.armed, ⟨h.departed_le, h.writes_le⟩, h.idle_none, h.paced⟩,
    fun h => ⟨h.armed, h.past.1, h.past.2, h.idle_none, h.paced⟩⟩

section labels
variable {p : Params} {tr : Trace} {i : Instr} {s t : State}

/-! ### Labels the pacing does not see -/

/-- The labels whose event the pacing reads. -/
def isPacing : Instr → Bool
  | .depthPoll _ | .linkWrite _ | .envTxDrain _ | .start | .reset => true
  | .linkRead _ | .hdrFound _ | .hdrFail _ | .hdrWait _ | .payWait _ | .frameEmit _ => false
  | .coreRead _ | .drainSleep _ | .idleGap _ => false
  | .waitWake _ | .waitEintr | .dispatchLink | .dispatchCore | .ioRetry _ => false
  | .cfgBitrate _ | .cfgFlowctl _ | .fatal _ => false
  | .envRx _ | .envCoreSend _ | .envCoreRecv _ | .envTick _ | .envLinkHup => false

theorem add_of_not_pacing (p : Params) (tr : Trace) (c : List Byte) (hi : isPacing i = false) :
    (tr.add p ⟨i, c⟩).zeroPoll = tr.zeroPoll ∧ (tr.add p ⟨i, c⟩).departed = tr.departed ∧
      (tr.add p ⟨i, c⟩).writes = tr.writes := by
  cases i with
  | depthPoll | linkWrite | envTxDrain | start | reset => contradiction
  | envRx b => simp only [Trace.add]; split <;> exact ⟨rfl, rfl, rfl⟩
  | linkRead | hdrFound | hdrFail | hdrWait | payWait | frameEmit => exact ⟨rfl, rfl, rfl⟩
  | coreRead | drainSleep | idleGap => exact ⟨rfl, rfl, rfl⟩
  | waitWake | waitEintr | dispatchLink | dispatchCore | ioRetry => exact ⟨rfl, rfl, rfl⟩
  | cfgBitrate | cfgFlowctl | fatal => exact ⟨rfl, rfl, rfl⟩
  | envCoreSend | envCoreRecv | envTick | envLinkHup => exact ⟨rfl, rfl, rfl⟩

/-- Such a label leads into `P_GAP` or `P_WRITE` only from one of them, and leaves the deadline there. -/
theorem gap_or_write_of_not_pacing (he : Effect p s t i) (hi : isPacing i = false) (ht : t.pc = .gap ∨ t.pc = .write) :
    (s.pc = .gap ∨ s.pc = .write) ∧ t.egDeadline = s.egDeadline := by
  obtain ⟨-, -, -, -, -, htimer, hphase, -⟩ := blockStateIsWrittenOnlyByItsOperations p i s t (execAt_of_effect he)
    (by rintro rfl; contradiction) (by rintro rfl; contradiction)
  have hdeadline : t.egDeadline = s.egDeadline := by
    by_contra hne
    obtain ⟨d, rfl⟩ := htimer (.inl hne)
    contradiction
  refine ⟨?_, hdeadline⟩
  by_cases hpc : t.pc = s.pc
  · rwa [hpc] at ht
  have hstep := hphase hpc
  rcases ht with ht | ht
  · obtain ⟨-, rfl⟩ : s.pc = .poll ∧ i = .depthPoll 0 := by simpa [ht, eq_ite_iff] using hstep
    contradiction
  · obtain ⟨hgap, -⟩ : s.pc = .gap ∧ ∃ us, i = .idleGap us := by simpa [ht, eq_ite_iff] using hstep
    exact .inl hgap

/-- A configuration write of an idle block finds no link write to pace. -/
theorem paced_of_rate (h : Paces p tr s) (hrate : t.bitrate = s.bitrate ∨ s.run = .idle) :
    PacedWrites tr (gapUs p t.bitrate) := by
  rcases hrate with hrate | hidle
  · rw [hrate]
    exact h.paced
  · intro w hw
    rw [h.idle_none hidle] at hw
    contradiction

theorem paces_of_not_pacing (hinv : Inv p s) (h : Paces p tr s) (he : Effect p s t i) (hi : isPacing i = false)
    (c : List Byte) : Paces p (tr.add p ⟨i, c⟩) t := by
  obtain ⟨hzero, hdeparted, hwrites⟩ := add_of_not_pacing p tr c hi
  obtain ⟨-, -, -, -, -, -, -, -, hrun, -, hrate, -⟩ := blockStateIsWrittenOnlyByItsOperations p i s t
    (execAt_of_effect he) (by rintro rfl; contradiction) (by rintro rfl; contradiction)
  have hnow := effect_clock_le he
  have hrate' : t.bitrate = s.bitrate ∨ s.run = .idle := or_iff_not_imp_left.2 fun hne => (hrate hne).1
  constructor
  · intro ht
    obtain ⟨hs, hdeadline⟩ := gap_or_write_of_not_pacing he hi ht
    have hsame : t.bitrate = s.bitrate :=
      hrate'.resolve_right (hinv.not_idle (by rcases hs with hs | hs <;> simp [hs]))
    rw [hzero, hdeparted, hdeadline, hsame]
    exact h.armed hs
  · rw [hdeparted, hwrites]
    exact ⟨fun e he => (h.past.1 e he).trans hnow, fun w hw => (h.past.2 w hw).trans hnow⟩
  · intro hidle
    rw [hwrites]
    by_cases hsame : t.run = s.run
    · exact h.idle_none (hsame ▸ hidle)
    · exact absurd (hidle.symm.trans (hrun hsame).1) nofun
  · unfold PacedWrites
    rw [hdeparted, hwrites]
    exact paced_of_rate h hrate'

/-! ### The poll, the write and the drain -/

theorem depthPoll_paces {d : Nat} (hq : QueuesFollow p tr s) (h : Paces p tr s) (he : Effect p s t (.depthPoll d))
    (c : List Byte) : Paces p (tr.add p ⟨.depthPoll d, c⟩) t := by
  obtain ⟨-, -, rfl⟩ := he
  refine { h with armed := fun ht => ?_ }
  obtain rfl | hpos := Nat.eq_zero_or_pos d
  · exact ⟨s.nowUs, congrArg some hq.clock, rfl, h.past.1⟩
  · simp [hpos] at ht

/-- The write comes after the deadline, on an empty transmit queue: all bytes before its own had left by the zero poll. -/
theorem linkWrite_paces {len : Nat} (hinv : Inv p s) (hq : QueuesFollow p tr s) (h : Paces p tr s)
    (he : Effect p s t (.linkWrite len)) (c : List Byte) : Paces p (tr.add p ⟨.linkWrite len, c⟩) t := by
  obtain ⟨hpc, -, bytes, -, rfl⟩ := he
  obtain ⟨t0, hzero, hdeadline, hleft⟩ := h.armed (.inr hpc)
  have hdue := hinv.write_after hpc
  have hbefore : tr.written.flatten.length = tr.departed.length := by
    rw [hq.link_out, (hinv.gap_armed (.inr hpc)).1, List.append_nil, List.length_map]
  constructor
  · intro ht
    exact absurd ht (not_or.2 ⟨completeHandler_pc_ne nofun nofun, completeHandler_pc_ne nofun nofun⟩)
  · refine ⟨h.past.1, fun w hw => ?_⟩
    rcases List.mem_append.1 hw with hw | hw
    · exact h.past.2 w hw
    · rw [List.mem_singleton.1 hw]
      exact hq.clock.le
  · intro hidle
    exact absurd hidle (hinv.not_idle (by simp [hpc]))
  · intro w hw
    rcases List.mem_append.1 hw with hw | hw
    · exact h.paced w hw
    · obtain rfl := List.mem_singleton.1 hw
      refine ⟨t0, hzero, ?_, hbefore.le, fun j e hj => ⟨fun _ => hleft e (List.mem_of_getElem? hj), fun hle => ?_⟩⟩
      · rw [hq.clock]
        exact hdeadline ▸ hdue
      · have hlt := (List.getElem?_eq_some_iff.1 hj).1
        exact absurd (hbefore ▸ hle) (Nat.not_le.2 hlt)

/-- Bytes that leave now leave after every write's gap. -/
theorem envTxDrain_paces {k : Nat} (hinv : Inv p s) (hq : QueuesFollow p tr s) (h : Paces p tr s)
    (he : Effect p s t (.envTxDrain k)) (c : List Byte) : Paces p (tr.add p ⟨.envTxDrain k, c⟩) t := by
  obtain ⟨hpos, hle, rfl⟩ := he
  have hgone : ∀ e ∈ tr.departing k, e.1 = s.nowUs := by
    rw [hq.departing]
    intro e he
    obtain ⟨b, -, rfl⟩ := List.mem_map.1 he
    rfl
  refine { h with armed := fun ht => ?_, past := ⟨fun e he => ?_, h.past.2⟩, paced := fun w hw => ?_ }
  · have hempty := (hinv.gap_armed ht).1
    rw [hempty, List.length_nil] at hle
    omega
  · rcases List.mem_append.1 he with he | he
    · exact h.past.1 e he
    · exact (hgone e he).le
  · obtain ⟨t0, hzero, hgap, hbefore, hpaced⟩ := h.paced w hw
    refine ⟨t0, hzero, hgap, hbefore.trans (by simp [Trace.add]), fun j e hj => ?_⟩
    simp only [Trace.add] at hj
    by_cases hlt : j < tr.departed.length
    · rw [List.getElem?_append_left hlt] at hj
      exact hpaced j e hj
    · rw [List.getElem?_append_right (Nat.not_lt.1 hlt)] at hj
      refine ⟨fun hb => by omega, fun _ => ?_⟩
      rw [hgone e (List.mem_of_getElem? hj)]
      exact hgap.trans (h.past.2 w hw)

/-- START and RESET forget the writes. -/
theorem flush_paces (ht : t.pc ≠ .gap ∧ t.pc ≠ .write) : Paces p tr.flush t where
  armed := fun h => absurd h (not_or.2 ht)
  past := ⟨nofun, nofun⟩
  idle_none := fun _ => rfl
  paced := nofun

/-- Every label keeps the pacing, its event added to the trace. -/
theorem effect_paces (hinv : Inv p s) (hq : QueuesFollow p tr s) (h : Paces p tr s) (he : Effect p s t i) (c : List Byte) :
    Paces p (tr.add p ⟨i, c⟩) t := by
  cases hi : isPacing i with
  | false => exact paces_of_not_pacing hinv h he hi c
  | true =>
    cases i with
    | depthPoll d => exact depthPoll_paces hq h he c
    | linkWrite len => exact linkWrite_paces hinv hq h he c
    | envTxDrain k => exact envTxDrain_paces hinv hq h he c
    | start => obtain ⟨-, -, rfl⟩ := he; exact flush_paces ⟨nofun, nofun⟩
    | reset => obtain rfl := he; exact flush_paces ⟨nofun, nofun⟩
    | linkRead | hdrFound | hdrFail | hdrWait | payWait | frameEmit => contradiction
    | coreRead | drainSleep | idleGap => contradiction
    | waitWake | waitEintr | dispatchLink | dispatchCore | ioRetry => contradiction
    | cfgBitrate | cfgFlowctl | fatal => contradiction
    | envRx | envCoreSend | envCoreRecv | envTick | envLinkHup => contradiction

theorem effect_keeps_paced (hinv : Inv p s) (hq : QueuesMatch p s) (h : PacedInv p s) (he : Effect p s t i) :
    PacedInv p t := by
  obtain ⟨c, hhistory⟩ := effect_history he
  rw [pacedInv_iff, hhistory, traceOf_append_singleton]
  exact effect_paces hinv (queuesMatch_iff.1 hq) (pacedInv_iff.1 h) he c

theorem PacedInv.afterOffer (h : PacedInv p s) (rest : List Move) : PacedInv p (afterOffer rest s) := { h with }

end labels

/-- Settles O54, from the frame of the labels the pacing does not see, and the five it does one by one. -/
theorem stepKeepsThePacing : Obligations.StepKeepsThePacing := fun _ _ hinv hq h hstep =>
  (step_keeps (P := fun s => (Inv Config.params s ∧ QueuesMatch Config.params s) ∧ PacedInv Config.params s)
    (fun rest _ h => ⟨⟨h.1.1.afterOffer rest, h.1.2.afterOffer rest⟩, h.2.afterOffer rest⟩)
    (fun _ _ _ ⟨⟨hinv, hq⟩, h⟩ he => ⟨⟨effect_keeps_inv Config.params_valid hinv he, effect_keeps_queues hinv hq he⟩,
      effect_keeps_paced hinv hq h he⟩) ⟨⟨hinv, hq⟩, h⟩ hstep).2

end Sys2Proof.Machine
end

section
/-! The greedy reading of the link over a run (40_ingress.md R163; 20_memory.md R82, R95), and the guarantees of every reachable
state. -/

namespace Sys2Proof.Machine

section labels
variable {p : Params} {i : Instr} {s t : State}

theorem readsGreedily_iff :
    ReadsGreedily p s ↔ ∃ bs, memReadBytes s.buf 0 s.head = some bs ∧
      parse p .seekingHeader (traceOf p s.history).appended = (parse p s.sync bs).prepend (traceOf p s.history).emitted :=
  Iff.rfl

/-- A synchronizer step moves frames from the reading of the buffer to those emitted. -/
theorem ReadsOn.readsGreedily {bs rest : List Byte} {frames : List (List Byte)} (hread : ReadsOn p s t bs rest frames)
    (hbs : memReadBytes s.buf 0 s.head = some bs) (h : ReadsGreedily p s) : ReadsGreedily p t := by
  obtain ⟨bs', hbs', hstream⟩ := readsGreedily_iff.1 h
  obtain rfl : bs = bs' := Option.some.inj (hbs.symm.trans hbs')
  refine readsGreedily_iff.2 ⟨rest, hread.bytes, ?_⟩
  rw [hread.appended, hread.emitted, hstream, hread.reading, Parsed.prepend_prepend]

/-- At rest the frames emitted, the synchronization state and the buffer are what the reading of the stream leaves. -/
theorem ReadsGreedily.at_rest (hpos : 1 ≤ p.H) (h : ReadsGreedily p s) (hrest : AtRest p s) : StreamDeterminesRest p s := by
  obtain ⟨bs, hbs, hstream⟩ := readsGreedily_iff.1 h
  refine ⟨bs, hbs, ?_⟩
  rw [parse_at_rest hbs hpos hrest] at hstream
  exact hstream.trans (by simp [Parsed.prepend])

/-- A link read at rest: the stream grows by the bytes appended to the buffer. -/
theorem linkRead_keeps_reading {r : Nat} (hv : p.Valid) (hinv : Inv p s) (hq : QueuesMatch p s) (h : ReadsGreedily p s)
    (he : Effect p s t (.linkRead r)) : ReadsGreedily p t := by
  obtain ⟨hpc, -, hle, rfl⟩ := he
  have hrest : AtRest p s := hinv.at_rest (hinv.running (by simp [hpc]) (by simp [hpc])) (by simp [hpc])
  obtain ⟨bs, hbs, hstream⟩ := h.at_rest hv.header_pos hrest
  have hlen : (s.rxFifo.take r).length = r := List.length_take_of_le (hle.trans (Nat.min_le_left _ _))
  have hbytes := fed_bytes hbs (s.rxFifo.take r)
  rw [fed, hlen] at hbytes
  have hgrown : ((traceOf p s.history).arrived.take ((traceOf p s.history).taken + r)) =
      (traceOf p s.history).appended ++ s.rxFifo.take r := by
    rw [List.take_add, hq.rx_fifo, Trace.appended]
  refine readsGreedily_iff.2 ⟨bs ++ s.rxFifo.take r, hbytes, ?_⟩
  have hjoined := parse_append hv.header_pos (q := .seekingHeader) (x := (traceOf p s.history).appended) (s.rxFifo.take r)
    nofun (by rw [parse, hstream])
  simp only [parse, hstream] at hjoined
  simpa [traceOf_append_singleton, Trace.add, Trace.appended, hgrown, parse] using hjoined

/-! ### Labels the reading does not see -/

/-- The labels that write the buffer, the synchronization state, or the stream. -/
def isReading : Instr → Bool
  | .linkRead _ | .hdrFound _ | .hdrFail _ | .frameEmit _ | .start | .reset => true
  | .hdrWait _ | .payWait _ | .coreRead _ | .depthPoll _ | .drainSleep _ | .idleGap _ | .linkWrite _ => false
  | .waitWake _ | .waitEintr | .dispatchLink | .dispatchCore | .ioRetry _ => false
  | .cfgBitrate _ | .cfgFlowctl _ | .fatal _ => false
  | .envRx _ | .envTxDrain _ | .envCoreSend _ | .envCoreRecv _ | .envTick _ | .envLinkHup => false

theorem add_of_not_reading (p : Params) {tr : Trace} (htaken : tr.taken ≤ tr.arrived.length) (c : List Byte)
    (hi : isReading i = false) :
    (tr.add p ⟨i, c⟩).emitted = tr.emitted ∧ (tr.add p ⟨i, c⟩).appended = tr.appended := by
  cases i with
  | linkRead | hdrFound | hdrFail | frameEmit | start | reset => contradiction
  | envRx b =>
    simp only [Trace.add]
    split
    · exact ⟨rfl, List.take_append_of_le_length htaken⟩
    · exact ⟨rfl, rfl⟩
  | hdrWait | payWait | coreRead | depthPoll | drainSleep | idleGap | linkWrite => exact ⟨rfl, rfl⟩
  | waitWake | waitEintr | dispatchLink | dispatchCore | ioRetry => exact ⟨rfl, rfl⟩
  | cfgBitrate | cfgFlowctl | fatal => exact ⟨rfl, rfl⟩
  | envTxDrain | envCoreSend | envCoreRecv | envTick | envLinkHup => exact ⟨rfl, rfl⟩

/-- Such a label leaves the buffer and the synchronization state. -/
theorem ingress_of_not_reading (he : Effect p s t i) (hi : isReading i = false) :
    t.buf = s.buf ∧ t.head = s.head ∧ t.sync = s.sync := by
  obtain ⟨hbuf, hgrow, hshrink, hsync, -⟩ := blockStateIsWrittenOnlyByItsOperations p i s t (execAt_of_effect he)
    (by rintro rfl; contradiction) (by rintro rfl; contradiction)
  have hwriter : ¬ ((∃ r, i = .linkRead r) ∨ (∃ k, i = .hdrFound k) ∨ (∃ n, i = .hdrFail n) ∨ ∃ fs, i = .frameEmit fs) := by
    rintro (⟨_, rfl⟩ | ⟨_, rfl⟩ | ⟨_, rfl⟩ | ⟨_, rfl⟩) <;> contradiction
  refine ⟨?_, Nat.le_antisymm ?_ ?_, ?_⟩
  · by_contra hne
    exact hwriter (hbuf hne)
  · by_contra hlt
    exact hwriter (.inl (hgrow (Nat.not_le.1 hlt)))
  · by_contra hlt
    exact hwriter (.inr (hshrink (Nat.not_le.1 hlt)))
  · by_contra hne
    exact hwriter ((hsync hne).elim (fun h => .inr (.inl h)) (fun h => .inr (.inr (.inr h))))

theorem reading_of_not_reading (hq : QueuesMatch p s) (h : ReadsGreedily p s) (he : Effect p s t i)
    (hi : isReading i = false) : ReadsGreedily p t := by
  obtain ⟨c, hhistory⟩ := effect_history he
  obtain ⟨hemitted, happended⟩ := add_of_not_reading p hq.taken_le c hi
  obtain ⟨hbuf, hhead, hsync⟩ := ingress_of_not_reading he hi
  rw [readsGreedily_iff, hhistory, traceOf_append_singleton, hemitted, happended, hbuf, hhead, hsync]
  exact h

/-- Where the buffer and the trace are flushed nothing is read yet. -/
theorem readsGreedily_of_flush (hhead : t.head = 0) (hsync : t.sync = .seekingHeader)
    (hstream : (traceOf p t.history).appended = []) (hemitted : (traceOf p t.history).emitted = []) : ReadsGreedily p t :=
  readsGreedily_iff.2 ⟨[], by rw [hhead]; rfl, by rw [hstream, hemitted, hsync]; rfl⟩

/-! ### Every label -/

/-- Every label keeps the greedy reading of the link. -/
theorem effect_keeps_reading (hv : p.Valid) (hinv : Inv p s) (hq : QueuesMatch p s) (h : ReadsGreedily p s)
    (he : Effect p s t i) : ReadsGreedily p t := by
  cases hi : isReading i with
  | false => exact reading_of_not_reading hq h he hi
  | true =>
    obtain ⟨bs, hbs, -⟩ := hinv.buf_filled.readBytes (a := 0) (k := s.head) (by omega)
    cases i with
    | linkRead r => exact linkRead_keeps_reading hv hinv hq h he
    | hdrFound k => exact (hdrFound_reads hbs hv.header_pos hinv.buf_filled he).readsGreedily hbs h
    | hdrFail n => exact (hdrFail_reads hbs hv.header_pos hinv.buf_filled he).readsGreedily hbs h
    | frameEmit fs => exact (frameEmit_reads hbs hv.header_pos hinv.buf_filled he).readsGreedily hbs h
    | start =>
      obtain ⟨-, -, rfl⟩ := he
      exact readsGreedily_of_flush rfl rfl (by rw [started_history, traceOf_append_singleton]; rfl)
        (by rw [started_history, traceOf_append_singleton]; rfl)
    | reset =>
      obtain rfl := he
      exact readsGreedily_of_flush rfl rfl (by rw [resetBlock_history, traceOf_append_singleton]; rfl)
        (by rw [resetBlock_history, traceOf_append_singleton]; rfl)
    | hdrWait | payWait | coreRead | depthPoll | drainSleep | idleGap | linkWrite => contradiction
    | waitWake | waitEintr | dispatchLink | dispatchCore | ioRetry => contradiction
    | cfgBitrate | cfgFlowctl | fatal => contradiction
    | envRx | envTxDrain | envCoreSend | envCoreRecv | envTick | envLinkHup => contradiction

theorem ReadsGreedily.afterOffer (h : ReadsGreedily p s) (rest : List Move) : ReadsGreedily p (afterOffer rest s) := h

end labels

/-- Settles O55, from the frame of the labels the reading does not see, and the six it does one by one. -/
theorem stepKeepsTheGreedyReading : Obligations.StepKeepsTheGreedyReading := fun _ _ hinv hq h hstep =>
  (step_keeps (P := fun s => (Inv Config.params s ∧ QueuesMatch Config.params s) ∧ ReadsGreedily Config.params s)
    (fun rest _ h => ⟨⟨h.1.1.afterOffer rest, h.1.2.afterOffer rest⟩, h.2.afterOffer rest⟩)
    (fun _ _ _ ⟨⟨hinv, hq⟩, h⟩ he => ⟨⟨effect_keeps_inv Config.params_valid hinv he, effect_keeps_queues hinv hq he⟩,
      effect_keeps_reading Config.params_valid hinv hq h he⟩) ⟨⟨hinv, hq⟩, h⟩ hstep).2

/-! ### Reachable states -/

/-- Settles O50: at power-on the buffers, the queues and the history are empty. -/
theorem powerOnMeetsTheInvariants : Obligations.PowerOnMeetsTheInvariants := by
  intro ms
  refine ⟨inv_of_reset_values _ _ _ _ _, ?_, ?_, readsGreedily_of_flush rfl rfl rfl rfl⟩
  · exact queuesMatch_iff.2
      { clock := rfl
        link_in := ⟨rfl, Nat.le_refl _⟩
        core_out := rfl
        core_in := ⟨rfl, Nat.le_refl _, rfl⟩
        link_out := rfl
        wire := ⟨rfl, [], rfl⟩
        written := writtenAt_rest ⟨rfl, nofun⟩ rfl }
  · exact pacedInv_iff.2 (flush_paces (tr := Trace.start) ⟨nofun, nofun⟩)

/-- Every reachable state meets the four invariants. -/
theorem reachable_invariants {s : State} (h : Reachable s) :
    Inv Config.params s ∧ QueuesMatch Config.params s ∧ PacedInv Config.params s ∧ ReadsGreedily Config.params s := by
  induction h with
  | powerOn ms => exact powerOnMeetsTheInvariants ms
  | step _ hstep ih =>
    obtain ⟨hinv, hq, hpaced, hread⟩ := ih
    exact ⟨stepKeepsTheBlockInvariant _ _ hinv hstep, stepKeepsQueueOrder _ _ hinv hq hstep,
      stepKeepsThePacing _ _ hinv hq hpaced hstep, stepKeepsTheGreedyReading _ _ hinv hq hread hstep⟩

/-- Settles O56, by induction on the run; at rest the reading of the buffer has nothing left to read. -/
theorem reachableStatesKeepTheGuarantees : Obligations.ReachableStatesKeepTheGuarantees := by
  intro s h
  obtain ⟨hinv, hq, hpaced, hread⟩ := reachable_invariants h
  exact ⟨hinv, hq, hpaced.paced, hread,
    fun hrun hpc => hread.at_rest Config.params_valid.header_pos (hinv.at_rest hrun hpc)⟩

/-- Settles O57, by the invariant of every reachable state. -/
theorem pendingSourcesStayReady : Obligations.PendingSourcesStayReady := by
  intro s h
  obtain ⟨hinv, -⟩ := reachable_invariants h
  exact ⟨fun hlink => linkReady_iff.1 (hinv.link_ready hlink.symm), fun hcore => coreReady_iff.1 (hinv.core_ready hcore.symm)⟩

/-- Settles O21: at rest fewer than `H` bytes wait for a header, and fewer than a frame that fits for a payload. -/
theorem linkReadNeverOverflows : Obligations.LinkReadNeverOverflows := by
  intro s h hpc
  have hrun : s.run = .running := h.running (by simp [hpc]) (by simp [hpc])
  have hpos := Config.params_valid.header_pos
  have hcap := Config.params_valid.cap_ge
  have hspace : s.head < Config.params.cap ∧ (s.sync = .seekingHeader → s.head ≤ Config.params.H - 1) := by
    rcases h.at_rest hrun (by simp [hpc]) with ⟨hsync, hle⟩ | ⟨hsync, w, -, -, -, hlt, hfit⟩
    · exact ⟨by omega, fun _ => hle⟩
    · exact ⟨by omega, fun hs => absurd (hsync.symm.trans hs) nofun⟩
  refine ⟨by omega, hspace.2, ?_⟩
  rw [HoldsIn, exec_eq_execAt]
  exact feedOverflow_holds fun hover => by omega

/-- A host access raises no fault. -/
theorem hostWriteOp_ne_fault {p : Params} {width offset : Nat} {value : Word32} {setup : SetupDraw} {s : State} {f : Fault} :
    hostWriteOp p width offset value setup s ≠ .fault f := by
  unfold hostWriteOp
  split
  · split <;> exact nofun
  · exact nofun

theorem hostReadOp_ne_fault {p : Params} {width offset : Nat} {s : State} {f : Fault} :
    hostReadOp p width offset s ≠ .fault f := by
  unfold hostReadOp
  split <;> exact nofun

/-- Settles O52: with both buffers filled every label answers a next state. -/
theorem noStepReadsAnUndefinedCell : Obligations.NoStepReadsAnUndefinedCell := by
  intro s f h
  unfold step takeMove
  split
  · exact nofun
  · next m rest _ =>
    cases m with
    | hostWrite width offset value setup => exact hostWriteOp_ne_fault
    | hostRead width offset => exact hostReadOp_ne_fault
    | label r =>
      rw [runMove, runRecord]
      split
      · exact nofun
      · next i _ =>
        obtain ⟨t, ht⟩ := execAt_answers (p := Config.params) (s := afterOffer rest s) i h.buf_filled fun _ => h.egMsg_filled
        rw [exec_eq_execAt, ht]
        exact nofun

end Sys2Proof.Machine
end

section
/-! Progress under fairness (70_reset_and_hazards.md R290): a sleep of the pacer ends, and a message in the pacer is written. -/

namespace Sys2Proof.Machine

/-! ### Along a run -/

section run
variable {r : LabelRun} {n : Nat}

theorem LabelRun.takes_iff {m : Nat} : r.takes m ↔ Effect Config.params (r.state m) (r.state (m + 1)) (r.label m) := taken_iff

theorem LabelRun.step_cases (r : LabelRun) (m : Nat) : r.state (m + 1) = r.state m ∨ r.takes m :=
  (exec_cases (r.next m)).imp_right taken_iff.2

/-- What holds at a point and every label taken keeps holds from there on. -/
theorem LabelRun.keeps {P : State → Prop} (h : P (r.state n))
    (hstep : ∀ m, n ≤ m → P (r.state m) → r.takes m → P (r.state (m + 1))) {m : Nat} (hm : n ≤ m) : P (r.state m) := by
  induction m, hm using Nat.le_induction with
  | base => exact h
  | succ m hm ih =>
    rcases r.step_cases m with hsame | htakes
    · rwa [hsame]
    · exact hstep m hm ih htakes

theorem LabelRun.clock_mono (r : LabelRun) {n m : Nat} (h : n ≤ m) : (r.state n).nowUs ≤ (r.state m).nowUs :=
  r.keeps (P := fun s => (r.state n).nowUs ≤ s.nowUs) (Nat.le_refl _)
    (fun _ _ hle htakes => hle.trans (effect_clock_le (LabelRun.takes_iff.1 htakes))) h

/-- A phase whose operation stays enabled, and leaves it, is left. -/
theorem Fair.leaves {q : Phase} {op : Opcode} (hfair : Fair r) (hstays : ∀ m, n ≤ m → (r.state m).pc = q)
    (henabled : ∀ m, n ≤ m →
      ∃ i t, i.opcode = op ∧ isSequencer i = true ∧ isDraw i = false ∧ Effect Config.params (r.state m) t i)
    (hleaves : ∀ i s t, i.opcode = op → Effect Config.params s t i → t.pc ≠ q) : False := by
  obtain ⟨m, hm, htakes, hop, -⟩ := hfair.sequencer op n fun m hm => by
    obtain ⟨i, t, hop, hseq, hdraw, he⟩ := henabled m hm
    exact ⟨i, t, hop, hseq, hdraw, taken_iff.2 he⟩
  exact hleaves _ _ _ hop (LabelRun.takes_iff.1 htakes) (hstays (m + 1) (by omega))

end run

/-! ### Sleeps -/

section sleep
variable {p : Params} {i : Instr} {s t : State} {r : LabelRun} {n : Nat}

/-- A sleep that goes on keeps its deadline: only DEPTH_POLL arms the timer, and it is no label of a sleep. -/
theorem deadline_while_asleep (hs : s.pc = .sleepDrain ∨ s.pc = .gap) (ht : t.pc = s.pc) (he : Effect p s t i) :
    t.egDeadline = s.egDeadline := by
  by_contra hne
  have hstart : i ≠ .start := by
    rintro rfl
    rcases hs with hs | hs <;> exact absurd (hs.symm.trans he.1) nofun
  have hreset : i ≠ .reset := by
    rintro rfl
    obtain rfl := he
    rcases hs with hs | hs <;> exact absurd (ht.trans hs) nofun
  obtain ⟨-, -, -, -, -, htimer, -⟩ := blockStateIsWrittenOnlyByItsOperations p i s t (execAt_of_effect he) hstart hreset
  obtain ⟨d, rfl⟩ := htimer (.inl hne)
  rcases hs with hs | hs <;> exact absurd (hs.symm.trans he.1) nofun

/-- In a sleep that does not end, the deadline passes and stays behind. -/
theorem deadline_passes (hfair : Fair r) {q : Phase} (hq : q = .sleepDrain ∨ q = .gap)
    (hstays : ∀ m, n ≤ m → (r.state m).pc = q) :
    ∃ k, n ≤ k ∧ ∀ m, k ≤ m → (r.state m).egDeadline ≤ (r.state m).nowUs := by
  have hdeadline {m : Nat} (hm : n ≤ m) : (r.state m).egDeadline = (r.state n).egDeadline :=
    (r.keeps (P := fun s => s.pc = q ∧ s.egDeadline = (r.state n).egDeadline) ⟨hstays n (Nat.le_refl _), rfl⟩
      (fun m hm hs htakes => by
        have hnext := hstays (m + 1) (by omega)
        exact ⟨hnext, (deadline_while_asleep (hs.1.symm ▸ hq) (hnext.trans hs.1.symm) (LabelRun.takes_iff.1 htakes)).trans hs.2⟩)
      hm).2
  obtain ⟨k, hk⟩ := hfair.clock (r.state n).egDeadline
  refine ⟨max n k, Nat.le_max_left _ _, fun m hm => ?_⟩
  rw [hdeadline ((Nat.le_max_left _ _).trans hm)]
  exact hk.trans (r.clock_mono ((Nat.le_max_right _ _).trans hm))

/-- The drain sleep and the idle gap end. -/
theorem sleep_is_left (hfair : Fair r) {q : Phase} (hq : q = .sleepDrain ∨ q = .gap)
    (hstays : ∀ m, n ≤ m → (r.state m).pc = q) : False := by
  obtain ⟨k, hk, hdue⟩ := deadline_passes hfair hq hstays
  have hstays' : ∀ m, k ≤ m → (r.state m).pc = q := fun m hm => hstays m (hk.trans hm)
  rcases hq with rfl | rfl
  · refine hfair.leaves (op := .drainSleep) hstays'
      (fun m hm => ⟨.drainSleep _, _, rfl, rfl, rfl, hstays' m hm, hdue m hm, rfl, rfl⟩) ?_
    intro i s t hop he
    cases i <;> try contradiction
    obtain ⟨-, -, -, rfl⟩ := he
    exact nofun
  · refine hfair.leaves (op := .idleGap) hstays'
      (fun m hm => ⟨.idleGap _, _, rfl, rfl, rfl, hstays' m hm, hdue m hm, rfl, rfl⟩) ?_
    intro i s t hop he
    cases i <;> try contradiction
    obtain ⟨-, -, -, rfl⟩ := he
    exact nofun

end sleep

/-- Settles O58: a sleep that never ended would keep its deadline while the clock passes it, with its end enabled for ever. -/
theorem sleepsEndUnderFairness : Obligations.SleepsEndUnderFairness := by
  intro r n hfair hphase
  by_contra hstays
  push Not at hstays
  exact sleep_is_left hfair hphase hstays

/-! ### The pacer -/

/-- How far a phase of the pacer is from the write, once the transmit queue is empty. -/
def Phase.toWrite : Phase → Nat
  | .sleepDrain => 3
  | .poll => 2
  | .gap => 1
  | .write | .reset | .wait | .dispatch | .linkRead | .sync | .coreRead | .fatal => 0

theorem Phase.toWrite_inj {q q' : Phase} (hq : q.isEgress = true) (hq' : q'.isEgress = true) (h : q.toWrite = q'.toWrite) :
    q = q' := by
  cases q <;> cases q' <;> simp_all [Phase.isEgress, Phase.toWrite]

section pacer
variable {p : Params} {i : Instr} {s t : State}

/-- Without a fatal, a RESET and the write itself, a label leaves the pacer in the pacer with its message, adds nothing to the
transmit queue, and, where that is empty, leads no further from the write. -/
theorem pacer_step (hinv : Inv p s) (hs : s.pc.isEgress = true) (he : Effect p s t i) (hreset : i ≠ .reset)
    (hfatal : ∀ code, i ≠ .fatal code) (hwrite : i ≠ .linkWrite s.egLen) :
    (t.pc.isEgress = true ∧ t.egLen = s.egLen ∧ t.hwfc = s.hwfc) ∧ t.txQueue.length ≤ s.txQueue.length ∧
      (s.txQueue = [] → t.pc.toWrite ≤ s.pc.toWrite) := by
  have hne {q : Phase} (hq : q.isEgress = false) : s.pc ≠ q := by
    rintro rfl
    simp [hs] at hq
  have hbusy : s.run ≠ .idle := hinv.not_idle (hne rfl)
  cases i with
  | linkRead | hdrFound | hdrFail | hdrWait | payWait | frameEmit => exact absurd he.1 (hne rfl)
  | waitWake | waitEintr | dispatchLink | dispatchCore | start => exact absurd he.1 (hne rfl)
  | coreRead len => obtain ⟨-, -, -, hpc, -⟩ := he; exact absurd hpc (hne rfl)
  | depthPoll d =>
    obtain ⟨hpc, rfl, rfl⟩ := he
    by_cases hq : s.txQueue = []
    · simp [hq, hpc, Phase.isEgress, Phase.toWrite]
    · simp [hq, List.length_pos_iff.2 hq, Phase.isEgress]
  | drainSleep us => obtain ⟨hpc, -, -, rfl⟩ := he; simp [hpc, Phase.isEgress, Phase.toWrite]
  | idleGap us => obtain ⟨hpc, -, -, rfl⟩ := he; simp [hpc, Phase.isEgress, Phase.toWrite]
  | linkWrite len => obtain ⟨-, rfl, -⟩ := he; exact absurd rfl hwrite
  | ioRetry op => obtain ⟨-, rfl⟩ := he; simp [hs]
  | cfgBitrate v => obtain rfl := he; simp [hbusy, hs]
  | cfgFlowctl f => obtain rfl := he; simp [hbusy, hs]
  | fatal code => exact absurd rfl (hfatal code)
  | reset => exact absurd rfl hreset
  | envRx b => obtain ⟨-, rfl⟩ := he; simp [hs]
  | envTxDrain k => obtain ⟨-, -, rfl⟩ := he; simp [hs]
  | envCoreSend m => obtain rfl := he; simp [hs]
  | envCoreRecv n => obtain ⟨frame, rest, -, -, rfl⟩ := he; simp [hs]
  | envTick u => obtain ⟨-, rfl⟩ := he; simp [hs]
  | envLinkHup => obtain ⟨-, rfl⟩ := he; simp [hs]

end pacer

/-- A run that, from `n` on, stays in the pacer: no fatal, no RESET, and the message of `len` bytes is never written. -/
structure Stuck (r : LabelRun) (len n : Nat) : Prop where
  inv : Inv Config.params (r.state n)
  egress : (r.state n).pc.isEgress = true
  egLen : (r.state n).egLen = len
  hwfc : (r.state n).hwfc = false
  benign : ∀ m, n ≤ m → r.takes m → r.label m ≠ .reset ∧ (∀ code, r.label m ≠ .fatal code) ∧ r.label m ≠ .linkWrite len

section stuck
variable {r : LabelRun} {len n m : Nat}

theorem Stuck.step (h : Stuck r len n) (htakes : r.takes n) :
    Stuck r len (n + 1) ∧ (r.state (n + 1)).txQueue.length ≤ (r.state n).txQueue.length ∧
      ((r.state n).txQueue = [] → (r.state (n + 1)).pc.toWrite ≤ (r.state n).pc.toWrite) := by
  obtain ⟨hreset, hfatal, hwrite⟩ := h.benign n (Nat.le_refl _) htakes
  rw [← h.egLen] at hwrite
  have he := LabelRun.takes_iff.1 htakes
  obtain ⟨⟨hegress, hlen, hhwfc⟩, hqueue, hrank⟩ := pacer_step h.inv h.egress he hreset hfatal hwrite
  exact ⟨⟨effect_keeps_inv Config.params_valid h.inv he, hegress, hlen.trans h.egLen, hhwfc.trans h.hwfc,
    fun m hm => h.benign m (by omega)⟩, hqueue, hrank⟩

/-- At every later point the run is stuck still, with no more bytes in the transmit queue, and from an empty queue on no further
from the write. -/
theorem Stuck.later (h : Stuck r len n) (hm : n ≤ m) :
    Stuck r len m ∧ (r.state m).txQueue.length ≤ (r.state n).txQueue.length ∧
      ((r.state n).txQueue = [] → (r.state m).pc.toWrite ≤ (r.state n).pc.toWrite) := by
  induction m, hm using Nat.le_induction with
  | base => exact ⟨h, Nat.le_refl _, fun _ => Nat.le_refl _⟩
  | succ m hm ih =>
    obtain ⟨hstuck, hlen, hrank⟩ := ih
    rcases r.step_cases m with hsame | htakes
    · have hstay : Stuck r len (m + 1) :=
        ⟨hsame ▸ hstuck.inv, hsame ▸ hstuck.egress, hsame ▸ hstuck.egLen, hsame ▸ hstuck.hwfc, fun k hk => h.benign k (by omega)⟩
      exact ⟨hstay, by rwa [hsame], by rwa [hsame]⟩
    · obtain ⟨hnext, hlen', hrank'⟩ := hstuck.step htakes
      refine ⟨hnext, hlen'.trans hlen, fun hempty => (hrank' ?_).trans (hrank hempty)⟩
      rw [hempty] at hlen
      exact List.length_eq_zero_iff.1 (Nat.le_zero.1 hlen)

theorem Stuck.stays_empty (h : Stuck r len n) (hempty : (r.state n).txQueue = []) (hm : n ≤ m) :
    (r.state m).txQueue = [] := by
  have hle := (h.later hm).2.1
  rw [hempty] at hle
  exact List.length_eq_zero_iff.1 (Nat.le_zero.1 hle)

/-- The transmitter drains the queue, which no label of a stuck run fills (42_dispatch_control.md R231). -/
theorem Stuck.empties (hfair : Fair r) (h : Stuck r len n) : ∃ m, n ≤ m ∧ (r.state m).txQueue = [] := by
  induction hlen : (r.state n).txQueue.length using Nat.strong_induction_on generalizing n with
  | _ k ih =>
    by_contra hno
    push Not at hno
    obtain ⟨m, hm, htakes, j, hj⟩ := hfair.drains n fun m hm => ⟨(h.later hm).1.hwfc, hno m hm⟩
    obtain ⟨hstuck, hle, -⟩ := h.later hm
    have he := LabelRun.takes_iff.1 htakes
    rw [hj] at he
    obtain ⟨hpos, hj, hnext⟩ := he
    have hshorter : (r.state (m + 1)).txQueue.length < k := by
      rw [hnext, ← hlen]
      simp
      omega
    obtain ⟨m', hm', hempty⟩ := ih _ hshorter (hstuck.step htakes).1 rfl
    exact hno m' (by omega) hempty

/-- A phase of the pacer is left: its operation stays enabled. -/
theorem Stuck.leaves (hfair : Fair r) (h : Stuck r len n) {q : Phase} (hstays : ∀ m, n ≤ m → (r.state m).pc = q) : False := by
  have hegress : q.isEgress = true := hstays n (Nat.le_refl _) ▸ h.egress
  cases q with
  | sleepDrain => exact sleep_is_left hfair (.inl rfl) hstays
  | gap => exact sleep_is_left hfair (.inr rfl) hstays
  | poll =>
    refine hfair.leaves (op := .depthPoll) hstays (fun m hm => ⟨.depthPoll _, _, rfl, rfl, rfl, hstays m hm, rfl, rfl⟩) ?_
    intro i s t hop he
    cases i <;> try contradiction
    obtain ⟨-, -, rfl⟩ := he
    rw [emit_pc]
    split <;> exact nofun
  | write =>
    refine hfair.leaves (op := .linkWrite) hstays (fun m hm => ?_) ?_
    · obtain ⟨bytes, hbytes, -⟩ := (h.later hm).1.inv.egMsg_filled.readBytes (a := 0) (k := (r.state m).egLen) (by omega)
      exact ⟨.linkWrite _, _, rfl, rfl, rfl, hstays m hm, rfl, bytes, hbytes, rfl⟩
    · intro i s t hop he
      cases i <;> try contradiction
      obtain ⟨-, -, bytes, -, rfl⟩ := he
      exact completeHandler_pc_ne nofun nofun
  | reset | wait | dispatch | linkRead | sync | coreRead | fatal => contradiction

/-- With the transmit queue empty a stuck run comes ever closer to the write, and leaves it. -/
theorem Stuck.absurd_of_empty (hfair : Fair r) (h : Stuck r len n) (hempty : (r.state n).txQueue = []) : False := by
  induction hrank : (r.state n).pc.toWrite using Nat.strong_induction_on generalizing n with
  | _ k ih =>
    refine h.leaves hfair (q := (r.state n).pc) fun m hm => ?_
    obtain ⟨hstuck, -, hle⟩ := h.later hm
    by_contra hne
    have hcloser : (r.state m).pc.toWrite < k := by
      rw [← hrank]
      exact lt_of_le_of_ne (hle hempty) fun heq => hne (Phase.toWrite_inj hstuck.egress h.egress heq)
    exact ih _ hcloser hstuck (h.stays_empty hempty hm) rfl

end stuck

/-- Settles O59: the queue drains, and from then on each phase of the pacer is left for one closer to the write. -/
theorem messagesAreWrittenUnderFairness : Obligations.MessagesAreWrittenUnderFairness := by
  intro r n hfair hinv hegress hhwfc hbenign
  by_contra hnever
  push Not at hnever
  have hstuck : Stuck r (r.state n).egLen n :=
    ⟨hinv, hegress, rfl, hhwfc, fun m hm htakes =>
      ⟨(hbenign m hm htakes).1, (hbenign m hm htakes).2, hnever m hm htakes⟩⟩
  obtain ⟨m, hm, hempty⟩ := hstuck.empties hfair
  exact (hstuck.later hm).1.absurd_of_empty hfair hempty

end Sys2Proof.Machine
end

section
/-! The remaining outcomes label by label (40_ingress.md R156, R158; 41_egress.md R180, R186, R188; 42_dispatch_control.md R216 to
R233), and the step of a record (60_exceptions.md R258). -/

namespace Sys2Proof.Machine

section
variable {p : Params} {s : State}

/-! ### The oversize halt (R156) -/

/-- Settles O15: the choice of the synchronizer is the oversize halt exactly behind such a header. -/
theorem oversizeHeaderHalts : Obligations.OversizeHeaderHalts := by
  intro p s hf code
  refine ⟨fun hpc hs hH hover => ?_, fun hno => holds_of_no_effect hf nofun ?_⟩
  · exact answers_of_effect (i := .fatal code)
      ⟨_, rfl, oversizeHeader_true.2 ⟨hpc, syncChoice_oversize.2 ⟨hs, hH, hover⟩⟩, rfl⟩
  · rintro t ⟨c, hc, hcond, -⟩
    obtain rfl := Cause.code_inj hc
    obtain ⟨hpc, hchoice⟩ := oversizeHeader_true.1 hcond
    exact hno ⟨hpc, syncChoice_oversize.1 hchoice⟩

/-! ### The frame write (R157, R158) -/

/-- FRAME_EMIT is enabled exactly where a frame is ready. -/
theorem frameReady_iff {fs : Nat} (hf : Filled s.buf s.head) :
    FrameReady p s fs ↔ s.pc = .sync ∧ syncChoice p s = .ok (.frameEmit fs) ∧ coreSpace p s = true := by
  rw [syncChoice_frameEmit, coreSpace_iff]
  constructor
  · rintro ⟨hpc, hs, -, hH, hann, hcap, hle, hspace⟩
    exact ⟨hpc, ⟨hs, hH, hann, hcap, hle⟩, hspace⟩
  · rintro ⟨hpc, ⟨hs, hH, hann, hcap, hle⟩, hspace⟩
    exact ⟨hpc, hs, hf, hH, hann, hcap, hle, hspace⟩

/-- A call of FRAME_EMIT is made exactly where a frame is ready. -/
theorem ioCall_frameEmit_iff {fs : Nat} (hf : Filled s.buf s.head) :
    ioCall p s = .ok (some (.frameEmit fs)) ↔ FrameReady p s fs := by
  simp [ioCall_some, frameReady_iff hf]

/-- Outcome `OK` of the frame write (R158). -/
theorem frameEmit_taken {fs : Nat} (h : FrameReady p s fs) :
    ∃ t frame, execAt p (.frameEmit fs) s = .next t ∧ (p = Config.params → exec (.frameEmit fs) s = .next t) ∧
      t = { s with
        buf := t.buf, head := s.head - fs, coreOut := s.coreOut ++ [frame], sync := .seekingHeader
        history := s.history ++ [⟨.frameEmit fs, frame⟩] } ∧
      frame.length = fs ∧ (∀ j, j < fs → memRead s.buf j = frame[j]?) ∧
      (∀ a, a < s.head - fs → memRead t.buf a = memRead s.buf (a + fs)) ∧
      (∀ a, s.head - fs ≤ a → memRead t.buf a = none) := by
  have hf : Filled s.buf s.head := h.2.2.1
  obtain ⟨hpc, hchoice, hspace⟩ := (frameReady_iff hf).1 h
  obtain ⟨-, -, -, -, hle⟩ := syncChoice_frameEmit.1 hchoice
  obtain ⟨m, hc, hm, hread⟩ := compact_spec hf hle
  obtain ⟨frame, hframe, hlen⟩ := hf.readBytes (a := 0) (k := fs) (by omega)
  obtain ⟨hat, hexec⟩ := answers_of_effect (i := .frameEmit fs) ⟨hpc, hchoice, hspace, frame, _, hframe, hc, rfl⟩
  refine ⟨_, frame, hat, hexec, rfl, hlen, fun j hj => ?_, hread, fun a => hm.read_none⟩
  simpa using (memReadBytes_eq_some.1 hframe).2 j hj

/-- The other outcomes of a call: it is interrupted, or a fatal whose condition is that the call is made is taken (R216, R241). -/
theorem call_outcomes {call : IoCall} (hcall : ioCall p s = .ok (some call)) :
    execAt p (.ioRetry call.opcode.code) s = .next (emit (.ioRetry call.opcode.code) [] s) ∧
      ∀ (c : Cause) (accept : IoCall → Bool), fatalCondition p c s = makesCall p s accept → accept call = true →
        execAt p (.fatal c.code) s = .next (raiseFatal c s) :=
  ⟨execAt_of_effect ⟨⟨_, hcall, rfl⟩, rfl⟩,
    fun _ _ hcond haccept => fatal_taken (hcond.trans (makesCall_true.2 ⟨_, hcall, haccept⟩))⟩

/-- Where no accepted call is made, the fatal that asks for one holds. -/
theorem call_fatal_holds {c : Cause} {accept : IoCall → Bool} (hf : Filled s.buf s.head)
    (hcond : fatalCondition p c s = makesCall p s accept)
    (hno : ∀ call, ioCall p s = .ok (some call) → accept call = false) : execAt p (.fatal c.code) s = .next s :=
  fatal_holds (hcond.trans (makesCall_false hf hno))

/-- Settles O16: FRAME_EMIT and its other outcomes are enabled where a frame is ready, and nowhere else. -/
theorem frameEmitOutcomes : Obligations.FrameEmitOutcomes := by
  intro p fs s hf op retried
  refine ⟨fun hready => ⟨frameEmit_taken hready, ?_⟩, fun hno => holds_of_no_effect hf nofun ?_, fun hno => ?_⟩
  · obtain ⟨hretry, hfatal⟩ := call_outcomes ((ioCall_frameEmit_iff hf).2 hready)
    have hwrite := hfatal .coreWriteError (·.opcode = .frameEmit) rfl rfl
    have hshort := hfatal .coreShortWrite (·.opcode = .frameEmit) rfl rfl
    refine ⟨hretry, hwrite, hshort, ?_⟩
    rintro rfl
    simp only [exec_eq_execAt]
    exact ⟨hretry, hwrite, hshort⟩
  · rintro t ⟨hpc, hchoice, hspace, -⟩
    exact hno ((frameReady_iff hf).2 ⟨hpc, hchoice, hspace⟩)
  · have hnocall : ∀ call, ioCall p s = .ok (some call) → decide (call.opcode = .frameEmit) = false := by
      intro call hcall
      cases call with
      | frameEmit n => exact absurd ((ioCall_frameEmit_iff hf).1 hcall) (hno n)
      | linkRead | coreRead | depthPoll | linkWrite => rfl
    have hwrite : execAt p (.fatal Cause.coreWriteError.code) s = .next s := call_fatal_holds hf rfl hnocall
    have hshort : execAt p (.fatal Cause.coreShortWrite.code) s = .next s := call_fatal_holds hf rfl hnocall
    refine ⟨hwrite, hshort, ?_⟩
    rintro rfl
    simp only [HoldsIn, exec_eq_execAt]
    exact ⟨hwrite, hshort⟩

/-! ### The core read (R180) -/

theorem ioCall_coreRead_iff : ioCall p s = .ok (some .coreRead) ↔ s.pc = .coreRead := by
  simp [ioCall_some]

/-- Outcome `OK` of the core read with a message of at least one byte (R180). -/
theorem coreRead_taken {m : List Byte} {rest : List (List Byte)} (hpc : s.pc = .coreRead) (hin : s.coreIn = m :: rest)
    (hne : m ≠ []) (hwf : Memory.wf s.egMsg) :
    ∃ t, execAt p (.coreRead (min m.length p.txMax)) s = .next t ∧
      t = { s with
        coreIn := rest, egMsg := t.egMsg, egLen := min m.length p.txMax, pc := .poll
        history := s.history ++ [⟨.coreRead (min m.length p.txMax), m.take p.txMax⟩] } ∧
      (∀ a, a < min m.length p.txMax → memRead t.egMsg a = m[a]?) ∧
      (∀ a, min m.length p.txMax ≤ a → memRead t.egMsg a = none) := by
  have hlen : (m.take p.txMax).length = min m.length p.txMax := by rw [List.length_take, Nat.min_comm]
  have hread := (filled_overwrite hwf (m.take p.txMax)).2
  rw [hlen] at hread
  refine ⟨_, execAt_of_effect (i := .coreRead _) ⟨m, rest, hin, hpc, hne, rfl, rfl⟩, rfl, fun a ha => ?_, fun a ha => ?_⟩
  · exact (hread a).trans (List.getElem?_take_of_lt (ha.trans_le (Nat.min_le_right _ _)))
  · exact (hread a).trans (List.getElem?_eq_none (hlen.symm ▸ ha))

theorem coreRead_holds {len : Nat}
    (h : ∀ m rest, s.coreIn = m :: rest → s.pc = .coreRead → m ≠ [] → len ≠ min m.length p.txMax) :
    execAt p (.coreRead len) s = .next s := by
  refine execAt_holds ?_ fun t ⟨m, rest, hin, hpc, hne, hlen, _⟩ => h m rest hin hpc hne hlen
  simp only [execAt, coreReadOp]
  split <;> exact ⟨_, rfl⟩

theorem coreClosed_holds (h : ¬ (s.pc = .coreRead ∧ s.coreIn.head? = some [])) :
    execAt p (.fatal Cause.coreClosed.code) s = .next s :=
  fatal_holds (by simpa [fatalCondition] using h)

/-- Settles O22: the front message decides between the read and the closed channel; the call's other outcomes belong to
`P_CORE_READ` alone. -/
theorem coreReadOutcomes : Obligations.CoreReadOutcomes := by
  intro s
  simp only [HoldsIn, exec_eq_execAt]
  refine ⟨fun hpc => ⟨fun m rest hin hne hwf => ⟨coreRead_taken hpc hin hne hwf, ?_⟩, fun m rest len hin hno => ?_,
    fun rest hin => ?_, ?_⟩, fun hpc => ⟨fun len => ?_, ?_, fun hf => ?_⟩⟩
  · exact coreClosed_holds fun h => hne (by simpa [hin] using h.2)
  · refine coreRead_holds fun m' rest' hin' _ hne' hlen' => ?_
    obtain ⟨rfl, -⟩ := List.cons.inj (hin.symm.trans hin')
    exact hno.elim hne' fun hlen => hlen hlen'
  · exact fatal_taken (by simp [fatalCondition, hpc, hin])
  · obtain ⟨hretry, hfatal⟩ := call_outcomes (ioCall_coreRead_iff (p := Config.params).2 hpc)
    exact ⟨hretry, hfatal .coreReadError (· = .coreRead) rfl rfl⟩
  · exact coreRead_holds fun _ _ _ hpc' => absurd hpc' hpc
  · exact coreClosed_holds fun h => hpc h.1
  · refine call_fatal_holds (accept := (· = .coreRead)) hf rfl fun call hcall => decide_eq_false ?_
    rintro rfl
    exact hpc (ioCall_coreRead_iff.1 hcall)

/-! ### The idle gap (R186) -/

/-- Settles O26, by the effect of IDLE_GAP, which is all it can do. -/
theorem idleGapEndsAtTheDeadline : Obligations.IdleGapEndsAtTheDeadline := by
  intro us s
  refine ⟨fun hpc hdue hus => exec_of_effect ⟨hpc, hdue, hus, rfl⟩, fun hno => ?_⟩
  exact holdsIn_of_no_effect ⟨_, rfl⟩ fun _ ⟨hpc, hdue, hus, _⟩ => hno ⟨hpc, hdue, hus⟩

/-! ### The link write (R188) -/

theorem ioCall_linkWrite_iff : ioCall p s = .ok (some .linkWrite) ↔ s.pc = .write := by
  simp [ioCall_some]

/-- Outcome `OK` of the link write (R188). -/
theorem linkWrite_taken (hf : Filled s.egMsg s.egLen) (hpc : s.pc = .write) :
    ∃ bytes, bytes.length = s.egLen ∧ (∀ j, j < s.egLen → memRead s.egMsg j = bytes[j]?) ∧
      execAt p (.linkWrite s.egLen) s = .next
        { s with
          txQueue := s.txQueue ++ bytes
          pc := if s.pending = ⟨false, false⟩ then .wait else .dispatch
          history := s.history ++ [⟨.linkWrite s.egLen, bytes⟩] } := by
  obtain ⟨bytes, hbytes, hlen⟩ := hf.readBytes (a := 0) (k := s.egLen) (by omega)
  refine ⟨bytes, hlen, fun j hj => by simpa using (memReadBytes_eq_some.1 hbytes).2 j hj, ?_⟩
  rw [execAt_of_effect (i := .linkWrite s.egLen) ⟨hpc, rfl, bytes, hbytes, rfl⟩]
  exact congrArg _ (completeHandler_eq _)

theorem linkWrite_holds {len : Nat} (h : ¬ (s.pc = .write ∧ len = s.egLen)) :
    execAt p (.linkWrite len) s = .next s := if_neg h

theorem linkShortWrite_holds (h : ¬ (s.pc = .write ∧ 1 ≤ s.egLen)) :
    execAt p (.fatal Cause.linkShortWrite.code) s = .next s :=
  fatal_holds (by simpa [fatalCondition] using h)

/-- Settles O27: the write belongs to `P_WRITE` and its message, and its failures to `P_WRITE`. -/
theorem linkWriteOutcomes : Obligations.LinkWriteOutcomes := by
  intro s hf
  simp only [HoldsIn, exec_eq_execAt]
  refine ⟨linkWrite_taken hf, fun len => linkWrite_holds, fun hpc => ?_, linkShortWrite_holds, fun hpc hbuf => ?_⟩
  · obtain ⟨hretry, hfatal⟩ := call_outcomes (ioCall_linkWrite_iff (p := Config.params).2 hpc)
    exact ⟨hretry, hfatal .linkWriteError (· = .linkWrite) rfl rfl,
      fun hpos => fatal_taken (by simp [fatalCondition, hpc]; omega)⟩
  · refine call_fatal_holds (accept := (· = .linkWrite)) hbuf rfl fun call hcall => decide_eq_false ?_
    rintro rfl
    exact hpc (ioCall_linkWrite_iff.1 hcall)

/-! ### Interrupted calls (R216) -/

/-- Where a call whose operation has the code `op` is made. -/
theorem call_made_iff {op : Byte} (hf : Filled s.buf s.head) :
    (∃ c, ioCall p s = .ok (some c) ∧ c.opcode.code = op) ↔
      (s.pc = .linkRead ∧ op = 0x10 ∧ s.rxFifo ≠ [] ∧ s.head < p.cap) ∨ (op = 0x15 ∧ ∃ fs, FrameReady p s fs) ∨
        (s.pc = .coreRead ∧ op = 0x20) ∨ (s.pc = .poll ∧ op = 0x21) ∨ (s.pc = .write ∧ op = 0x24) := by
  constructor
  · rintro ⟨c, hcall, rfl⟩
    cases c with
    | frameEmit fs => exact .inr (.inl ⟨rfl, fs, (ioCall_frameEmit_iff hf).1 hcall⟩)
    | coreRead => exact .inr (.inr (.inl ⟨ioCall_coreRead_iff.1 hcall, rfl⟩))
    | depthPoll => exact .inr (.inr (.inr (.inl ⟨ioCall_depthPoll_iff.1 hcall, rfl⟩)))
    | linkWrite => exact .inr (.inr (.inr (.inr ⟨ioCall_linkWrite_iff.1 hcall, rfl⟩)))
    | linkRead =>
      obtain ⟨hpc, hrx, hspace⟩ : s.pc = .linkRead ∧ s.rxFifo ≠ [] ∧ s.head < p.cap := by simpa [ioCall_some] using hcall
      exact .inl ⟨hpc, rfl, hrx, hspace⟩
  · rintro (⟨hpc, rfl, hrx, hspace⟩ | ⟨rfl, fs, hready⟩ | ⟨hpc, rfl⟩ | ⟨hpc, rfl⟩ | ⟨hpc, rfl⟩)
    · exact ⟨.linkRead, ioCall_some.2 (.inl ⟨hpc, hrx, hspace, rfl⟩), rfl⟩
    · exact ⟨.frameEmit fs, (ioCall_frameEmit_iff hf).2 hready, rfl⟩
    · exact ⟨.coreRead, ioCall_coreRead_iff.2 hpc, rfl⟩
    · exact ⟨.depthPoll, ioCall_depthPoll_iff.2 hpc, rfl⟩
    · exact ⟨.linkWrite, ioCall_linkWrite_iff.2 hpc, rfl⟩

/-- Settles O32: IO_RETRY is enabled exactly where a call of its operation is made. -/
theorem ioRetryChangesNothing : Obligations.IoRetryChangesNothing := by
  intro op s hf
  rw [← call_made_iff hf]
  refine ⟨fun hmade => exec_of_effect ⟨hmade, rfl⟩, fun hno => ?_⟩
  exact (holds_of_no_effect (i := .ioRetry op) hf nofun fun t he => hno he.1).2 rfl

/-! ### START and the codes no rule raises (R221, R241) -/

theorem start_holds (h : ¬ (s.pc = .reset ∧ rateSupported Config.params s.bitrate = true)) : HoldsIn .start s :=
  holdsIn_of_no_effect ⟨_, rfl⟩ fun _ ⟨hpc, hrate, _⟩ => h ⟨hpc, hrate⟩

theorem setupFail_holds (h : ¬ (s.pc = .reset ∧ rateSupported Config.params s.bitrate = true)) :
    HoldsIn (.fatal Cause.setupFail.code) s :=
  (exec_eq_execAt _ s).trans (fatal_holds (by simpa [fatalCondition] using h))

theorem unsupportedBitrate_holds (h : ¬ (s.pc = .reset ∧ rateSupported Config.params s.bitrate = false)) :
    HoldsIn (.fatal Cause.unsupportedBitrate.code) s :=
  (exec_eq_execAt _ s).trans (fatal_holds (by simpa [fatalCondition] using h))

/-- Settles O34: in `P_RESET` the rate decides, and in every other phase the three labels hold. -/
theorem startOutcomes : Obligations.StartOutcomes := by
  intro s
  refine ⟨fun hpc hpos hmem => ?_, fun hpc hno => ?_, fun hpc => ?_⟩
  · have hrate : rateSupported Config.params s.bitrate = true := rateSupported_iff.2 ⟨hpos, hmem⟩
    exact ⟨exec_of_effect ⟨hpc, hrate, rfl⟩, exec_of_effect ⟨_, rfl, by simp [fatalCondition, hpc, hrate], rfl⟩,
      unsupportedBitrate_holds fun h => by simp [hrate] at h⟩
  · have hrate : rateSupported Config.params s.bitrate = false := by
      rw [← rateSupported_iff] at hno
      simpa using hno
    exact ⟨exec_of_effect ⟨_, rfl, by simp [fatalCondition, hpc, hrate], rfl⟩,
      start_holds fun h => by simp [hrate] at h, setupFail_holds fun h => by simp [hrate] at h⟩
  · exact ⟨start_holds fun h => hpc h.1, setupFail_holds fun h => hpc h.1, unsupportedBitrate_holds fun h => hpc h.1⟩

/-- Settles O36: a code no rule raises is that of no cause, or of `NONE`, whose condition never holds. -/
theorem unraisedCodesAreNeverRecorded : Obligations.UnraisedCodesAreNeverRecorded := by
  intro code s hcode
  rw [HoldsIn, exec_eq_execAt]
  cases hc : Cause.ofCode? code with
  | none => simp only [execAt, fatalOp, hc]
  | some c =>
    obtain rfl := code_of_ofCode? hc
    obtain rfl : c = .none := by
      rcases hcode with hzero | hbig
      · exact Cause.code_inj hzero
      · cases c <;> contradiction
    exact fatal_holds rfl

/-! ### RESET and power-on (R226, R270) -/

/-- Settles O38: both sides are the reset values with the run's record. -/
theorem resetRestoresEveryElement : Obligations.ResetRestoresEveryElement := fun _ => rfl

/-- Settles O39: the values written out are those of the definition. -/
theorem powerOnState : Obligations.PowerOnState := rfl

/-! ### The core's ends of the queues (R232, R233) -/

/-- Settles O42: the frame at the front of `core_out` is the one taken, by its length. -/
theorem envCoreSendAndReceive : Obligations.EnvCoreSendAndReceive := by
  intro s
  refine ⟨fun m => rfl, fun frame rest hout => exec_of_effect ⟨frame, rest, hout, rfl, rfl⟩, fun n hno => ?_⟩
  refine holdsIn_of_no_effect ?_ fun t ⟨frame, rest, hout, hlen, _⟩ => hno frame rest hout hlen
  simp only [execAt, envCoreRecvOp]
  split <;> exact ⟨_, rfl⟩

/-! ### Steps (60_exceptions.md R258) -/

/-- The first move offered is made in the state after the offer. -/
theorem step_of_move {m : Move} {rest : List Move} (h : s.moves = m :: rest) :
    step s = runMove m s.freeCount (afterOffer rest s) := by
  simp only [step, takeMove, h]

/-- Settles O6: the three cases of taking a move. -/
theorem stepRunsTheDecodedLabel : Obligations.StepRunsTheDecodedLabel := by
  refine ⟨fun s r rest i hm hd => ?_, fun s r rest e hm hd => step_refuses_invalid hm hd, fun s hm => ?_⟩
  · simp only [step_of_move hm, runMove, runRecord, hd]
    rfl
  · simp only [step, takeMove, hm]

/-- Settles O7, label by label. -/
theorem execIsTheMeaningAtTheParameters : Obligations.ExecIsTheMeaningAtTheParameters := exec_eq_execAt

end

end Sys2Proof.Machine
end

section
/-! The host port: reads, writes and the STATUS word (10_state.md R48, R49; 42_dispatch_control.md R219 to R221). -/

namespace Sys2Proof.Machine

section
variable {p : Params} {s : State}

/-! ### Reads (R48, R49) -/

theorem hostAccessOk_iff {width offset : Nat} : hostAccessOk width offset = true ↔ width = 32 ∧ offset % 4 = 0 := by
  simp [hostAccessOk]

theorem hostReadValue_of_ok {offset : Nat} (h : offset % 4 = 0) :
    hostReadValue p 32 offset s = .ok (registerValue p offset s) :=
  if_pos (hostAccessOk_iff.2 ⟨rfl, h⟩)

theorem hostReadValue_refused {width offset : Nat} (h : ¬ (width = 32 ∧ offset % 4 = 0)) :
    hostReadValue p width offset s = .error .hostAccess :=
  if_neg (hostAccessOk_iff.not.2 h)

/-- Every offset from `0x24` on is reserved. -/
theorem registerValue_reserved {offset : Nat} (h : 0x24 ≤ offset) : registerValue p offset s = 0 := by
  obtain ⟨n, rfl⟩ := Nat.exists_eq_add_of_le' h
  rfl

theorem hostReadOp_eq (width offset : Nat) :
    hostReadOp p width offset s = if width = 32 ∧ offset % 4 = 0 then .next s else .refused .hostAccess := by
  by_cases h : width = 32 ∧ offset % 4 = 0
  · obtain ⟨rfl, hal⟩ := h
    simp [hostReadOp, hostReadValue_of_ok, hal]
  · rw [if_neg h, hostReadOp, hostReadValue_refused h]

/-! ### Writes (R48, R49) -/

section writes
variable {value : Word32} {setup : SetupDraw}

theorem hostWriteOp_refused {width offset : Nat} (h : ¬ (width = 32 ∧ offset % 4 = 0)) :
    hostWriteOp p width offset value setup s = .refused .hostAccess :=
  if_neg (hostAccessOk_iff.not.2 h)

theorem hostWriteOp_ctrl :
    hostWriteOp p 32 0 value setup s = .next (if value.getLsbD 0 then startRequest p setup s else s) := rfl

theorem hostWriteOp_bitrate : hostWriteOp p 32 4 value setup s = cfgBitrateOp value s := rfl

theorem hostWriteOp_flowctl : hostWriteOp p 32 8 value setup s = cfgFlowctlOp (value.getLsbD 0) s := rfl

/-- A write to a read-only register or a reserved offset is ignored. -/
theorem hostWriteOp_ignored {offset : Nat} (hal : offset % 4 = 0) (h0 : offset ≠ 0) (h4 : offset ≠ 4) (h8 : offset ≠ 8) :
    hostWriteOp p 32 offset value setup s = .next s := by
  unfold hostWriteOp
  rw [if_pos (hostAccessOk_iff.2 ⟨rfl, hal⟩)]
  split
  · contradiction
  · contradiction
  · contradiction
  · rfl

theorem startRequest_of_not_reset (hpc : s.pc ≠ .reset) : startRequest p setup s = s := if_neg hpc

theorem startRequest_unsupported (hpc : s.pc = .reset) (hr : rateSupported p s.bitrate = false) :
    startRequest p setup s = raiseFatal .unsupportedBitrate s := by
  simp [startRequest, hpc, hr]

theorem startRequest_fail (hpc : s.pc = .reset) (hr : rateSupported p s.bitrate = true) :
    startRequest p .fail s = raiseFatal .setupFail s := by
  simp [startRequest, hpc, hr]

theorem startRequest_ok (hpc : s.pc = .reset) (hr : rateSupported p s.bitrate = true) :
    startRequest p .ok s = started s := by
  simp [startRequest, hpc, hr]

theorem cfgBitrateOp_of_idle (h : s.run = .idle) :
    cfgBitrateOp value s = .next (emit (.cfgBitrate value) [] { s with bitrate := value }) := by
  rw [cfgBitrateOp, if_pos h]

theorem cfgBitrateOp_of_not_idle (h : s.run ≠ .idle) : cfgBitrateOp value s = .next (emit (.cfgBitrate value) [] s) := by
  rw [cfgBitrateOp, if_neg h]

theorem cfgFlowctlOp_of_idle {f : Bool} (h : s.run = .idle) :
    cfgFlowctlOp f s = .next (emit (.cfgFlowctl f) [] { s with hwfc := f }) := by
  rw [cfgFlowctlOp, if_pos h]

theorem cfgFlowctlOp_of_not_idle {f : Bool} (h : s.run ≠ .idle) : cfgFlowctlOp f s = .next (emit (.cfgFlowctl f) [] s) := by
  rw [cfgFlowctlOp, if_neg h]

end writes

/-! ### The STATUS word (R48) -/

theorem Pending.bits_link (q : Pending) : q.bits.getLsbD 0 = q.link := by
  obtain ⟨_ | _, _ | _⟩ := q <;> rfl

theorem Pending.bits_core (q : Pending) : q.bits.getLsbD 1 = q.core := by
  obtain ⟨_ | _, _ | _⟩ := q <;> rfl

/-- The fields of STATUS stand where R48 puts them, with zeros between. -/
theorem statusWord_fields (s : State) :
    (statusWord s).extractLsb' 0 1 = s.sync.code ∧ (statusWord s).extractLsb' 1 2 = s.run.code ∧
      (statusWord s).extractLsb' 3 5 = 0 ∧ (statusWord s).extractLsb' 8 8 = s.cause.code ∧
      (statusWord s).extractLsb' 16 4 = s.pc.code ∧ (statusWord s).extractLsb' 20 2 = s.pending.bits ∧
      (statusWord s).extractLsb' 22 10 = 0 := by
  have right {u v : Nat} {x : BitVec u} {y : BitVec v} : (x ++ y).extractLsb' 0 v = y :=
    BitVec.extractLsb'_append_eq_right
  have above {u v start len : Nat} {x : BitVec u} {y : BitVec v} (h : v ≤ start) :
      (x ++ y).extractLsb' start len = x.extractLsb' (start - v) len := BitVec.extractLsb'_append_eq_of_le h
  unfold statusWord
  generalize s.sync.code = a
  generalize s.run.code = b
  generalize s.cause.code = c
  generalize s.pc.code = d
  generalize s.pending.bits = e
  refine ⟨right, ?_, ?_, ?_, ?_, ?_, ?_⟩
  · exact (above (by decide)).trans right
  · iterate 2 refine (above (by decide)).trans ?_
    exact right
  · iterate 3 refine (above (by decide)).trans ?_
    exact right
  · iterate 4 refine (above (by decide)).trans ?_
    exact right
  · iterate 5 refine (above (by decide)).trans ?_
    exact right
  · iterate 6 refine (above (by decide)).trans ?_
    exact rfl

/-- Settles O47: each field is the code of its register, and each code the number written out. -/
theorem statusFields : Obligations.StatusFields := by
  intro s
  refine ⟨statusWord s, hostReadValue_of_ok rfl, ?_⟩
  obtain ⟨hsync, hrun, hlow, hcause, hpc, hpending, hhigh⟩ := statusWord_fields s
  have hbit : ∀ i < 2, (statusWord s).getLsbD (20 + i) = s.pending.bits.getLsbD i := fun i hi => by
    rw [← hpending, BitVec.getLsbD_extractLsb', decide_eq_true hi, Bool.true_and]
  refine ⟨hsync.trans ?_, hrun.trans ?_, hlow, hcause.trans ?_, hpc.trans ?_, ⟨?_, ?_⟩, hhigh⟩
  · cases s.sync <;> rfl
  · cases s.run <;> rfl
  · cases s.cause <;> rfl
  · cases s.pc <;> rfl
  · exact (hbit 0 (by decide)).trans (Pending.bits_link _)
  · exact (hbit 1 (by decide)).trans (Pending.bits_core _)

/-! ### The access rules (R48, R49, R219 to R221) -/

/-- Settles O48: reads by the register's value, and writes that reach no operation, or one that `IDLE` guards. -/
theorem hostAccessRules : Obligations.HostAccessRules := by
  intro s width offset value setup rest
  refine ⟨fun hm => ?_, fun hm => ?_, hostReadValue_of_ok rfl, hostReadValue_of_ok rfl, ?_, hostReadValue_of_ok rfl,
    hostReadValue_of_ok rfl, hostReadValue_of_ok rfl, ?_, hostReadValue_of_ok rfl, fun hal h => ?_, hostReadValue_refused⟩
  · rw [step_of_move hm]
    exact hostReadOp_eq width offset
  · rw [step_of_move hm]
    refine ⟨hostWriteOp_refused, ?_, ?_, ?_, ?_⟩
    · rintro rfl hal h0 h4 h8
      exact hostWriteOp_ignored hal h0 h4 h8
    · rintro rfl rfl hbit
      exact hostWriteOp_ctrl.trans (by rw [hbit]; rfl)
    · rintro rfl rfl hrun
      exact cfgBitrateOp_of_not_idle hrun
    · rintro rfl rfl hrun
      exact cfgFlowctlOp_of_not_idle hrun
  · rw [hostReadValue_of_ok rfl]
    cases hw : s.hwfc <;> simp [registerValue, hw]
  · exact (hostReadValue_of_ok rfl).trans (congrArg _ (BitVec.ofNat_toNat 32 _).symm)
  · rw [hostReadValue_of_ok hal, registerValue_reserved h]

/-- Settles O49: each write is the label it stands for; at `CTRL` the checks of `startRequest` choose it. -/
theorem hostWritesThatAct : Obligations.HostWritesThatAct := by
  intro s offset value setup rest hm
  rw [step_of_move hm]
  refine ⟨?_, ?_, ?_⟩
  · rintro rfl hrun
    exact cfgBitrateOp_of_idle hrun
  · rintro rfl hrun
    exact cfgFlowctlOp_of_idle hrun
  · rintro rfl hbit
    have hwrite (u : State) : runMove (.hostWrite 32 0 value setup) s.freeCount u =
        .next (startRequest Config.params setup u) := hostWriteOp_ctrl.trans (by rw [if_pos hbit])
    rw [hwrite]
    have hreset (hpc : s.pc = .reset) : (afterOffer rest s).pc = .reset := hpc
    refine ⟨fun hpc => ?_, fun hpc hr => ?_, ?_, ?_⟩
    · exact congrArg _ (startRequest_of_not_reset (s := afterOffer rest s) hpc)
    · rw [startRequest_unsupported (hreset hpc) hr]
      exact (exec_of_effect (i := .fatal _) ⟨_, rfl, by simp [fatalCondition, hpc, hr], rfl⟩).symm
    · rintro hpc hr rfl
      rw [startRequest_fail (hreset hpc) hr]
      exact (exec_of_effect (i := .fatal _) ⟨_, rfl, by simp [fatalCondition, hpc, hr], rfl⟩).symm
    · rintro hpc hr rfl
      rw [startRequest_ok (hreset hpc) hr]
      exact (exec_of_effect (i := .start) ⟨hreset hpc, hr, rfl⟩).symm

end

end Sys2Proof.Machine
end
